-- ==== Sys2Proof/Word.lean ====
section
/-! DEFINITION. The widths of PKC16's values (spec 00_scope.md R8, R6): every value is unsigned. -/
namespace Sys2Proof

/-- A `u8` of R8: one byte of a buffer or of the wire. -/
abbrev Byte := BitVec 8

/-- A `u16` of R8: a length, a CRC, a counter of payload bytes. -/
abbrev U16 := BitVec 16

/-- A `u32` of R8: a register value or a command word (host data width 32 bits, R6). -/
abbrev Word := BitVec 32

/-- A block-relative host byte address, 18 bits, `0x00000` to `0x3FFFF` (R6, R50). -/
abbrev Addr := BitVec 18

end Sys2Proof
end

