-- ==== Sys2Proof/Syntax.lean ====
section
/-! DEFINITION. The whole syntax: the instructions of spec/opcode_table.json (30_encoding.md R73, R85), and the
assembler lines of R77 and R78. -/
namespace Sys2Proof

/-- The two directions of the wire as R85's "direction" column names them. -/
inductive Dir where
  /-- device→host: the byte is delivered on the receive port to the decoder. -/
  | toHost
  /-- host→device: the byte is taken from the encoder on the transmit port. -/
  | toDevice
  deriving DecidableEq, Repr

/-- One constructor per row of spec/opcode_table.json.  The first five are command words written to CMD (R70 to
R73).  The last eight are wire command codes (R85, R170 to R177): the command byte of a packet, which PKC16
carries and never interprets (R3, R86).  Every code but DONE has one direction in R85; DONE goes either way, so
it carries the direction it goes. -/
inductive Instr where
  /-- `NOP` (R106). -/
  | nop
  /-- `CRC_CLR` (R107). -/
  | crcClr
  /-- `CRC_BYTE B` (R108). -/
  | crcByte (b : Byte)
  /-- `ENC B, N` (R121). -/
  | enc (b : Byte) (n : U16)
  /-- `DEC` (R141). -/
  | dec
  /-- `VER` = `0x01`, device→host (R170). -/
  | ver
  /-- `BL` = `0x02`, host→device (R171). -/
  | bl
  /-- `NEXT` = `0x03`, device→host (R172). -/
  | next
  /-- `FRAME` = `0x04`, host→device (R173). -/
  | frame
  /-- `RETRY` = `0x05`, device→host (R174). -/
  | retry
  /-- `DONE` = `0x06`, either direction (R175). -/
  | done (d : Dir)
  /-- `MSG` = `0x07`, device→host (R176). -/
  | msg
  /-- `DATE` = `0x08`, host→device (R177). -/
  | date
  deriving DecidableEq, Repr

/-- One line of a host program in the assembler syntax of R77 (the five commands) and R78 (the host
pseudo-instructions).  Operands are the numbers the programmer wrote, before any range check. -/
inductive AsmLine where
  /-- `nop` -/
  | nop
  /-- `crc.clr` -/
  | crcClr
  /-- `crc.byte B` -/
  | crcByte (b : Nat)
  /-- `enc B, N` -/
  | enc (b n : Nat)
  /-- `dec` -/
  | dec
  /-- `wr OFF, V`: 32-bit host write. -/
  | wr (off v : Nat)
  /-- `rd OFF`: 32-bit host read. -/
  | rd (off : Nat)
  /-- `wrb A, V`: 8-bit host write. -/
  | wrb (a v : Nat)
  /-- `rdb A`: 8-bit host read. -/
  | rdb (a : Nat)
  /-- `wrbuf I, b0 b1 ...`: consecutive 8-bit writes from host address `0x10000 + I`. -/
  | wrbuf (i : Nat) (bytes : List Nat)
  /-- `poll OFF, MASK, VAL`: the one host-side loop. -/
  | poll (off mask val : Nat)
  /-- `clr`: clear every W1C bit of STATUS. -/
  | clr
  /-- `crc.str "s"`: `crc.byte` for each ASCII byte of `s`. -/
  | crcStr (chars : List Char)
  deriving DecidableEq, Repr

end Sys2Proof
end

