-- ==== Sys2Proof/Config.lean ====
section
/-! DEFINITION. What an implementation of PKC16 fixes (spec 00_scope.md R6, 20_memory.md R50) and the
values the spec leaves open.  `POLY` is not here: it is a named parameter every claim ranges over, so it
is a field of `State` that no step writes (assumption 1); its default is here. -/
namespace Sys2Proof.Config

/-- The default generator polynomial `0x1021`, "[from general knowledge, not in source]" (R6, K1). PRESUMED. -/
abbrev defaultPoly : U16 := 0x1021

/-- `CRC_INIT = 0x0000`, fixed (R6, R100). -/
abbrev crcInit : U16 := 0x0000

/-- `TXBUF_SIZE`, 65536 bytes (R6, R51). -/
abbrev txbufSize : Nat := 65536

/-- `RXBUF_SIZE`, 65536 bytes (R6, R52). -/
abbrev rxbufSize : Nat := 65536

/-- `N_MAX`, the largest data length ENC accepts, 65532 (R6, R75, R193). -/
abbrev nMax : Nat := 65532

/-- Host address of `TXBUF[0]` (R50, R51). -/
abbrev txbufBase : Nat := 0x10000

/-- Host address of `RXBUF[0]` (R50, R52). -/
abbrev rxbufBase : Nat := 0x20000

/-- First host address past the two buffer windows (R50): `0x30000` to `0x3FFFF` is unmapped. -/
abbrev bufferEnd : Nat := 0x30000

/-- First address past the 18-bit host space (R50). -/
abbrev spaceEnd : Nat := 0x40000

/-- FREE VALUE (R43, U2): the byte a buffer cell holds from power-on `epoch` until it is written.  It has no
body, so nothing can be proved about which byte it is; one draw per byte per power-on, stable until written. -/
opaque bufferDraw : (epoch : Nat) → (address : Nat) → Byte

/-- The platform address of the block, `PKC16_BASE`, a parameter the spec leaves open (R50, R68, D4). -/
opaque pkc16Base : Nat

end Sys2Proof.Config
end

