-- ==== Sys2Proof/WellFormed.lean ====
section
/-! DEFINITION. Which assembler lines are accepted.  A term of `Instr` has its operands at their encoded widths (`B : u8`,
`N : u16`, R71), so every `Instr` is well-formed by its type; the range checks the spec names are the
assembler's (R77: "An assembler refuses operands out of range: `B > 0xFF`, `N > 0xFFFF`"). -/
namespace Sys2Proof

/-- `v` is a `u8` (R8). -/
def isU8 (v : Nat) : Bool := decide (v < 2 ^ 8)

/-- `v` is a `u16` (R8). -/
def isU16 (v : Nat) : Bool := decide (v < 2 ^ 16)

/-- `v` is a `u32` (R8). -/
def isU32 (v : Nat) : Bool := decide (v < 2 ^ 32)

/-- `v` is an 18-bit host address (R6, R50). -/
def isAddr (v : Nat) : Bool := decide (v < 2 ^ 18)

/-- The operands of `wrb A, V`: an 18-bit address and an 8-bit value. -/
def wrbWf (a v : Nat) : Bool := isAddr a && isU8 v

/-- The assembler's operand checks.  `B` and `N` are R77's.  The others follow the operand's width in R50 and
R54 (DEDUCED, assumption 8): addresses of 18 bits, 32-bit register values, 8-bit buffer values, ASCII
characters below 128.  `wrbuf I, b0 b1 ...` is accepted exactly when each `wrb 0x10000+I+k, bk` it stands for is
(R78): it may run on past TXBUF, where those writes are ignored (R52, R55). -/
def AsmLine.wf : AsmLine → Bool
  | .nop | .crcClr | .dec | .clr => true
  | .crcByte b => isU8 b
  | .enc b n => isU8 b && isU16 n
  | .wr off v => isAddr off && isU32 v
  | .rd off => isAddr off
  | .wrb a v => wrbWf a v
  | .rdb a => isAddr a
  | .wrbuf i bytes => (bytes.zipIdx i).all fun p => wrbWf (Config.txbufBase + p.2) p.1
  | .poll off mask val => isAddr off && isU32 mask && isU32 val
  | .crcStr chars => chars.all fun c => decide (c.toNat < 128)

end Sys2Proof
end

