-- ==== Sys2Proof/Decode.lean ====
section
/-! DEFINITION. Decoding and encoding of the command word (spec 30_encoding.md R70 to R76) and of the wire command byte
(R85, R86), and the opcode table of R73 as data. -/
namespace Sys2Proof

/-- What a decoder of PKC16's table is given: a 32-bit word written to CMD, or the command byte of a packet
(payload byte 0) together with the direction it crosses the wire. -/
inductive CodeUnit where
  | word (w : Word)
  | wire (d : Dir) (b : Byte)
  deriving DecidableEq, Repr

/-- Why a unit is no instruction of the table, by name (R74's four kinds of illegal word; R86's undefined codes). -/
inductive Reject where
  /-- `OP` in `0x5..0xF` (R74). -/
  | reservedOp
  /-- `Z != 0` (R74). -/
  | nonzeroZ
  /-- A NOP, CRC_CLR or DEC word with any of bits 23:0 set (R74). -/
  | strayOperand
  /-- A CRC_BYTE word with any of bits 15:0 set (R74). -/
  | strayN
  /-- A wire byte that R85 defines no command for in that direction (R86, R178): PKC16 carries it all the same. -/
  | undefinedCode
  deriving DecidableEq, Repr

/-- `OP = w[31:28]` (R70). -/
def opField (w : Word) : BitVec 4 := w.extractLsb' 28 4

/-- `Z = w[27:24]` (R70). -/
def zField (w : Word) : BitVec 4 := w.extractLsb' 24 4

/-- `B = w[23:16]` (R70, R71). -/
def bField (w : Word) : Byte := w.extractLsb' 16 8

/-- `N = w[15:0]` (R70, R71). -/
def nField (w : Word) : U16 := w.extractLsb' 0 16

/-- A command with no operand: every bit of 27:0 must be zero (R72). -/
def decodeBare (i : Instr) (w : Word) : Except Reject Instr :=
  if zField w ≠ 0 then .error .nonzeroZ
  else if bField w ≠ 0 ∨ nField w ≠ 0 then .error .strayOperand
  else .ok i

/-- `decode` of R72 on a command word: total, and `Illegal` named by its kind. -/
def decodeWord (w : Word) : Except Reject Instr :=
  if opField w = 0x0 then decodeBare .nop w
  else if opField w = 0x1 then decodeBare .crcClr w
  else if opField w = 0x2 then
    if zField w ≠ 0 then .error .nonzeroZ
    else if nField w ≠ 0 then .error .strayN
    else .ok (.crcByte (bField w))
  else if opField w = 0x3 then
    if zField w ≠ 0 then .error .nonzeroZ else .ok (.enc (bField w) (nField w))
  else if opField w = 0x4 then decodeBare .dec w
  else .error .reservedOp

/-- A device→host command byte (R85: VER, NEXT, RETRY, DONE, MSG). -/
def decodeToHost (b : Byte) : Except Reject Instr :=
  if b = 0x01 then .ok .ver
  else if b = 0x03 then .ok .next
  else if b = 0x05 then .ok .retry
  else if b = 0x06 then .ok (.done .toHost)
  else if b = 0x07 then .ok .msg
  else .error .undefinedCode

/-- A host→device command byte (R85: BL, FRAME, DONE, DATE). -/
def decodeToDevice (b : Byte) : Except Reject Instr :=
  if b = 0x02 then .ok .bl
  else if b = 0x04 then .ok .frame
  else if b = 0x06 then .ok (.done .toDevice)
  else if b = 0x08 then .ok .date
  else .error .undefinedCode

/-- The decoder: total on every unit, rejecting by name. -/
def decode : CodeUnit → Except Reject Instr
  | .word w => decodeWord w
  | .wire .toHost b => decodeToHost b
  | .wire .toDevice b => decodeToDevice b

/-- The direction of a wire byte as R85's table gives it, for a byte whose direction is not seen on a port:
BL, FRAME and DATE are host→device; every other byte, DONE among them, is taken as received (assumption 7). -/
def tableDir (b : Byte) : Dir :=
  if b = 0x02 ∨ b = 0x04 ∨ b = 0x08 then .toDevice else .toHost

/-- The unit that `nbits` bits numbered as spec/opcode_table.json numbers them stand for: 32 bits are a command
word, 8 bits a wire command byte; the table has no other length (R70, R76, R85). -/
def tableUnit (nbits w : Nat) : Option CodeUnit :=
  if nbits = 32 then some (.word (BitVec.ofNat 32 w))
  else if nbits = 8 then some (.wire (tableDir (BitVec.ofNat 8 w)) (BitVec.ofNat 8 w))
  else none

/-- The instruction the decoder reads from a word of the opcode table. -/
def decodeTableWord (nbits w : Nat) : Option Instr :=
  match tableUnit nbits w with
  | none => none
  | some u =>
    match decode u with
    | .ok i => some i
    | .error _ => none

/-- A command word from its fields, `Z = 0` (R70). -/
def commandWord (op : BitVec 4) (b : Byte) (n : U16) : Word := op ++ (0 : BitVec 4) ++ b ++ n

/-- The unit of an instruction: the command word of R77, or the code byte of R85 with its direction. -/
def encode : Instr → CodeUnit
  | .nop => .word (commandWord 0x0 0 0)
  | .crcClr => .word (commandWord 0x1 0 0)
  | .crcByte b => .word (commandWord 0x2 b 0)
  | .enc b n => .word (commandWord 0x3 b n)
  | .dec => .word (commandWord 0x4 0 0)
  | .ver => .wire .toHost 0x01
  | .bl => .wire .toDevice 0x02
  | .next => .wire .toHost 0x03
  | .frame => .wire .toDevice 0x04
  | .retry => .wire .toHost 0x05
  | .done d => .wire d 0x06
  | .msg => .wire .toHost 0x07
  | .date => .wire .toDevice 0x08

/-- One row of an opcode table: a unit `x` selects it when `x & mask = pattern` (R73). -/
structure OpRow (w : Nat) where
  mnemonic : String
  pattern : BitVec w
  mask : BitVec w
  deriving DecidableEq, Repr

/-- `x` selects the row (R73). -/
def OpRow.selects {w : Nat} (r : OpRow w) (x : BitVec w) : Bool := x &&& r.mask == r.pattern

/-- The command-word rows of R73. -/
def commandRows : List (OpRow 32) :=
  [⟨"NOP", 0x00000000, 0xFFFFFFFF⟩, ⟨"CRC_CLR", 0x10000000, 0xFFFFFFFF⟩, ⟨"CRC_BYTE", 0x20000000, 0xFF00FFFF⟩,
   ⟨"ENC", 0x30000000, 0xFF000000⟩, ⟨"DEC", 0x40000000, 0xFFFFFFFF⟩]

/-- The wire command codes of R85, as spec/opcode_table.json lists them. -/
def wireRows : List (OpRow 8) :=
  [⟨"VER", 0x01, 0xFF⟩, ⟨"BL", 0x02, 0xFF⟩, ⟨"NEXT", 0x03, 0xFF⟩, ⟨"FRAME", 0x04, 0xFF⟩,
   ⟨"RETRY", 0x05, 0xFF⟩, ⟨"DONE", 0x06, 0xFF⟩, ⟨"MSG", 0x07, 0xFF⟩, ⟨"DATE", 0x08, 0xFF⟩]

/-- An instruction's mnemonic in spec/opcode_table.json. -/
def Instr.mnemonic : Instr → String
  | .nop => "NOP"
  | .crcClr => "CRC_CLR"
  | .crcByte _ => "CRC_BYTE"
  | .enc _ _ => "ENC"
  | .dec => "DEC"
  | .ver => "VER"
  | .bl => "BL"
  | .next => "NEXT"
  | .frame => "FRAME"
  | .retry => "RETRY"
  | .done _ => "DONE"
  | .msg => "MSG"
  | .date => "DATE"

/-- The mnemonics of the table rows a unit selects. -/
def selectedRows : CodeUnit → List String
  | .word w => (commandRows.filter fun r => r.selects w).map (·.mnemonic)
  | .wire _ b => (wireRows.filter fun r => r.selects b).map (·.mnemonic)

end Sys2Proof
end

