-- ==== Sys2Proof/Machine/Operands.lean ====
section
/-! DEFINITION. Byte order and length arithmetic (spec 00_scope.md R9, 20_memory.md R53, 40_crc.md R110): everything
the commands compute from their operands before a register is written. -/
namespace Sys2Proof.Machine

/-- `hi8(x) = x[15:8]` (R9). -/
def hi8 (x : U16) : Byte := x.extractLsb' 8 8

/-- `lo8(x) = x[7:0]` (R9). -/
def lo8 (x : U16) : Byte := x.extractLsb' 0 8

/-- The `u16` whose first byte on the wire is `b0`: `(b0 << 8) | b1` (R53, R144). -/
def bigEndian (b0 b1 : Byte) : U16 := b0 ++ b1

/-- `L = 3 + N`, exact for every `N` that ENC accepts (R110, R121). -/
def payloadLength (n : U16) : U16 := 3 + n

/-- `max(0, L - 3)` (R33, R83, R110): the data length of a payload of `l` bytes. -/
def dataLength (l : U16) : U16 := if l.toNat ≤ 3 then 0 else l - 3

/-- ENC accepts the length `n`: `N <= 65532` (R75, R193). -/
def lengthFits (n : U16) : Bool := decide (n.toNat ≤ Config.nMax)

/-- A host write's 8-bit data, `v[7:0]`. -/
def byteOf (v : Word) : Byte := v.extractLsb' 0 8

/-- The big-endian unsigned number a byte sequence spells, as R170 reads VER's data. -/
def bigEndianNat (bytes : List Byte) : Nat := bytes.foldl (fun n b => n * 256 + b.toNat) 0

end Sys2Proof.Machine
end

