-- ==== Sys2Proof/Machine/Crc.lean ====
section
/-! DEFINITION. The CRC-16 function (spec 40_crc.md R100 to R104), for every generator polynomial `poly`. -/
namespace Sys2Proof.Machine

/-- One round of R101: shift left once, and fold `poly` in when the top bit falls out. -/
def tableRound (poly r : U16) : U16 := if r.msb then (r <<< 1) ^^^ poly else r <<< 1

/-- `k` rounds of R101. -/
def tableRounds (poly : U16) : Nat → U16 → U16
  | 0, r => r
  | k + 1, r => tableRounds poly k (tableRound poly r)

/-- `T[i]`: eight rounds from `i << 8` (R101). -/
def crcTable (poly : U16) (i : Byte) : U16 := tableRounds poly 8 (i ++ (0 : Byte))

/-- `crc_step(c, b)`, the recombining form of R103. -/
def crcStep (poly c : U16) (b : Byte) : U16 :=
  let t := crcTable poly (hi8 c ^^^ b)
  (lo8 c ^^^ hi8 t) ++ lo8 t

/-- `crcfrom(c, s)`: the left-to-right fold from a start value (R104). -/
def crcFrom (poly c : U16) (s : List Byte) : U16 := s.foldl (crcStep poly) c

/-- `crc16(s)`: the fold from the seed 0 (R104). -/
def crc16 (poly : U16) (s : List Byte) : U16 := crcFrom poly Config.crcInit s

end Sys2Proof.Machine
end

