-- ==== Sys2Proof/Machine/State.lean ====
section
/-! DEFINITION. The state of PKC16 and of the two agents it steps with, the host and the transport (spec 00_scope.md R11):
every register and field of 10_state.md, the buffers, the two byte streams, the host program and the schedule. -/
namespace Sys2Proof.Machine

/-- `enc_state` (R36). -/
inductive EncState where
  | idle | lenHi | lenLo | cmd | data | crcHi | crcLo
  deriving DecidableEq, Repr

/-- `dec_state` (R40). -/
inductive DecState where
  | idle | len | pay
  deriving DecidableEq, Repr

/-- The outcome codes 0 to 5 of RX_RESULT (R30).  Codes 6 and 7 are never produced (R30, U7), so no constructor
stands for them. -/
inductive RxResult where
  | none | ok | crcErr | empty | tmoLen | tmoPay
  deriving DecidableEq, Repr

/-- The widths a host access may have on a 32-bit bus (R54 speaks of 8, 16 and 32 bits). -/
inductive Width where
  | b8 | b16 | b32
  deriving DecidableEq, Repr

/-- One byte of the transmit stream with its `last` mark (R50 space 2, R205). -/
structure TxByte where
  data : Byte
  last : Bool
  deriving DecidableEq, Repr

/-- One operation of a host program: a host access (R54), the `poll` loop (R78), or the input flush the host performs
directly on the transport (R212). -/
inductive HostOp where
  | read (w : Width) (a : Addr)
  | write (w : Width) (a : Addr) (v : Word)
  | poll (a : Addr) (mask val : Word)
  | flush
  deriving DecidableEq, Repr

/-- What one host read returned, an 8-bit value zero-extended. -/
structure HostRead where
  width : Width
  address : Addr
  value : Word
  deriving DecidableEq, Repr

/-- Which agent moves in a step (R11): one entry of the schedule.  `txTake`, `rdValid` and `rdTimeout` are the input
signals of the two ports (R205, R208) asserted for one step. -/
inductive Move where
  /-- The host performs its next operation. -/
  | host
  /-- `tx_take`: the transport takes the byte on offer (R123, R205). -/
  | txTake
  /-- `rd_valid`: the transport delivers the oldest byte it holds (R208, R210). -/
  | rdValid
  /-- `rd_timeout`: the transport ends the outstanding request short (R209). -/
  | rdTimeout
  /-- A byte arrives on the link and the transport keeps it (R210). -/
  | linkByte (b : Byte)
  /-- The reset input, the block staying powered (R220). -/
  | reset
  /-- Power off and on, with the reset input (R220, R43). -/
  | powerOn
  deriving DecidableEq, Repr

/-- Bytes by host address, strictly rising (`Memory.wf`); an unlisted address has not been written since power-on. -/
abbrev Memory := List Host.Cell

/-- The reasons a step stops with a fault. -/
inductive Fault where
  /-- `BusAccessFault(addr, width)` (R195): raised by a host access whose width or alignment R54 does not admit, read,
  write or poll.  SAFE: the model stops, and "Real hardware has no defined response". -/
  | busAccessFault (address : Addr) (width : Width)
  deriving DecidableEq, Repr

/-- The reasons a step is refused. -/
inductive Refusal where
  /-- An instruction of the opcode table that has no meaning yet.  SAFE: the model stops.  No arm of `exec` answers it. -/
  | notModelled (mnemonic : String)
  deriving DecidableEq, Repr

/-- Everything the spec gives the machine, and the model's own fields, marked so. -/
structure State where
  /-- `POLY`, the generator polynomial (R6): a parameter, written by no step. -/
  poly : U16
  /-- STATUS bit 2, ENC_DONE (R24). -/
  encDone : Bool
  /-- STATUS bit 3, DEC_DONE (R24). -/
  decDone : Bool
  /-- STATUS bit 4, ERR_ILLEGAL (R24, R191). -/
  errIllegal : Bool
  /-- STATUS bit 5, ERR_BUSY (R24, R192). -/
  errBusy : Bool
  /-- STATUS bit 6, ERR_LEN (R24, R193). -/
  errLen : Bool
  /-- CRC_ACC bits 15:0 (R25). -/
  crcAcc : U16
  /-- TX_LEN bits 15:0 (R26). -/
  txLen : U16
  /-- TX_CMD bits 7:0 (R27). -/
  txCmd : Byte
  /-- TX_CRC bits 15:0 (R28). -/
  txCrc : U16
  /-- TX_SENT bits 16:0 (R29). -/
  txSent : BitVec 17
  /-- RX_RESULT (R30). -/
  rxResult : RxResult
  /-- RX_LEN bits 15:0 (R31). -/
  rxLen : U16
  /-- RX_CMD bits 7:0 (R32). -/
  rxCmd : Byte
  /-- RX_DLEN bits 15:0 (R33). -/
  rxDlen : U16
  /-- RX_CRC bits 15:0 (R34). -/
  rxCrc : U16
  /-- RX_RCVD bits 15:0 (R35). -/
  rxRcvd : U16
  /-- `enc_state` (R36). -/
  encState : EncState
  /-- `enc_n` (R36). -/
  encN : U16
  /-- `enc_idx` (R36). -/
  encIdx : U16
  /-- `dec_state` (R40). -/
  decState : DecState
  /-- `dec_have` (R40). -/
  decHave : BitVec 1
  /-- `dec_lhi` (R40). -/
  decLhi : Byte
  /-- TXBUF and RXBUF (R42, R51, R52), at their host addresses. -/
  mem : Memory
  /-- The model's own: how many power-ons have been, which picks the draw an unwritten buffer byte reads as (R43, U2). -/
  bufferEpoch : Nat
  /-- The transmit stream (R50 space 2): every byte the transport has taken, oldest first. -/
  txStream : List TxByte
  /-- The `rd_req` pulses: the `rd_len` of every request posted, oldest first (R208). -/
  rdRequests : List U16
  /-- The receive stream's undelivered part: the bytes the transport holds, oldest first (R50 space 3, R210). -/
  rxHeld : List Byte
  /-- The host's program: the operations it has yet to perform, in program order (R60). -/
  hostProgram : List HostOp
  /-- What the host's reads returned, oldest first. -/
  hostReads : List HostRead
  /-- The model's own: which agent moves in each coming step (R11: "Steps interleave in any order"). -/
  schedule : List Move
  deriving DecidableEq, Repr

/-- The machine right after a power-on reset (R43, R220): every register and field of 10_state.md at the value the
spec gives, nothing written to the buffers.  `poly` is the parameter's default (R6); the host, the transport and
the schedule, which R43 does not speak of, are empty (assumption 5). -/
def State.reset : State where
  poly := Config.defaultPoly
  encDone := false
  decDone := false
  errIllegal := false
  errBusy := false
  errLen := false
  crcAcc := 0x0000
  txLen := 0
  txCmd := 0
  txCrc := 0
  txSent := 0
  rxResult := .none
  rxLen := 0
  rxCmd := 0
  rxDlen := 0
  rxCrc := 0
  rxRcvd := 0
  encState := .idle
  encN := 0
  encIdx := 0
  decState := .idle
  decHave := 0
  decLhi := 0
  mem := []
  bufferEpoch := 0
  txStream := []
  rdRequests := []
  rxHeld := []
  hostProgram := []
  hostReads := []
  schedule := []

end Sys2Proof.Machine
end

