-- ==== Sys2Proof/Machine/Flags.lean ====
section
/-! DEFINITION. The STATUS register (spec 10_state.md R24): its value, the flags commands set and clear, and the W1C write. -/
namespace Sys2Proof.Machine

/-- STATUS bit 0, ENC_BUSY: "It is not stored: it reads as `enc_state != IDLE`" (R24). -/
def State.encBusy (s : State) : Bool := s.encState != .idle

/-- STATUS bit 1, DEC_BUSY: "It reads as `dec_state != IDLE`" (R24). -/
def State.decBusy (s : State) : Bool := s.decState != .idle

/-- The bits of STATUS from bit 6 down to bit 0 (R24); bits 31:7 are reserved and read 0. -/
def State.status (s : State) : Word :=
  (0 : BitVec 25) ++ BitVec.ofBool s.errLen ++ BitVec.ofBool s.errBusy ++ BitVec.ofBool s.errIllegal ++
    BitVec.ofBool s.decDone ++ BitVec.ofBool s.encDone ++ BitVec.ofBool s.decBusy ++ BitVec.ofBool s.encBusy

/-- A host write of `v` to STATUS: each bit `k` of 2..6 with `v[k] = 1` is cleared, nothing else changes (R24). -/
def writeStatus (v : Word) (s : State) : State :=
  { s with
    encDone := s.encDone && !v.getLsbD 2
    decDone := s.decDone && !v.getLsbD 3
    errIllegal := s.errIllegal && !v.getLsbD 4
    errBusy := s.errBusy && !v.getLsbD 5
    errLen := s.errLen && !v.getLsbD 6 }

/-- `set ERR_ILLEGAL`, "and nothing else changes" (R191). -/
def rejectIllegal (s : State) : State := { s with errIllegal := true }

/-- `set ERR_BUSY`, "and nothing else changes" (R192). -/
def rejectBusy (s : State) : State := { s with errBusy := true }

/-- `set ERR_LEN`, "and nothing else changes" (R193). -/
def rejectLength (s : State) : State := { s with errLen := true }

/-- RX_RESULT's code in bits 2:0 (R30). -/
def RxResult.code : RxResult → BitVec 3
  | .none => 0
  | .ok => 1
  | .crcErr => 2
  | .empty => 3
  | .tmoLen => 4
  | .tmoPay => 5

/-- The source's `timed_out`: `RX_RESULT in {4, 5}` (R30, R154). -/
def RxResult.timedOut : RxResult → Bool
  | .tmoLen | .tmoPay => true
  | .none | .ok | .crcErr | .empty => false

end Sys2Proof.Machine
end

