-- ==== Sys2Proof/Machine/Memory.lean ====
section
/-! DEFINITION. The two buffers (spec 20_memory.md R50 to R52) as a sorted list of written bytes by host address. -/
namespace Sys2Proof.Machine

/-- The byte written at `a` since power-on, if any. -/
def Memory.read? : Memory → Nat → Option Byte
  | [], _ => none
  | (x, b) :: rest, a => if a = x then some b else Memory.read? rest a

/-- Writes `b` at `a`, keeping the addresses strictly rising. -/
def Memory.write : Memory → Nat → Byte → Memory
  | [], a, b => [(a, b)]
  | (x, y) :: rest, a, b =>
    if a < x then (a, b) :: (x, y) :: rest
    else if a = x then (a, b) :: rest
    else (x, y) :: Memory.write rest a b

/-- Every address of the list is above `lo`, and they rise strictly. -/
def Memory.risesFrom : Nat → Memory → Bool
  | _, [] => true
  | lo, (x, _) :: rest => decide (lo ≤ x) && Memory.risesFrom (x + 1) rest

/-- The canonical form: addresses strictly rising, all of them in the two buffer windows of R50.  An unlisted
address reads as nothing written (`none`), so no entry can equal it. -/
def Memory.wf (m : Memory) : Bool :=
  Memory.risesFrom Config.txbufBase m && m.all fun c => decide (c.1 < Config.bufferEnd)

/-- The current byte of a buffer cell (R51: "A host read always returns the current byte"): the byte last written, or,
where none was since power-on, the cell's draw, a free value (R43, R59, U2). -/
def State.bufferByte (s : State) (a : Nat) : Byte :=
  (s.mem.read? a).getD (Config.bufferDraw s.bufferEpoch a)

/-- `TXBUF[i]`, at host address `0x10000 + i` (R51). -/
def State.txbuf (s : State) (i : Nat) : Byte := s.bufferByte (Config.txbufBase + i)

/-- `RXBUF[i]`, at host address `0x20000 + i` (R52). -/
def State.rxbuf (s : State) (i : Nat) : Byte := s.bufferByte (Config.rxbufBase + i)

/-- `TXBUF[0 .. n)` (R121). -/
def State.txBytes (s : State) (n : Nat) : List Byte := (List.range n).map s.txbuf

/-- `RXBUF[i .. i + n)` (R33, R154). -/
def State.rxBytes (s : State) (i n : Nat) : List Byte := (List.range n).map fun k => s.rxbuf (i + k)

/-- `MemWrite` on a buffer cell at a host address (R10). -/
def State.writeBuffer (s : State) (a : Nat) (b : Byte) : State := { s with mem := s.mem.write a b }

end Sys2Proof.Machine
end

