-- ==== Sys2Proof/Machine/Ops.lean ====
section
/-! DEFINITION. The shared operations of the units (spec 41_encoder.md §3, 42_decoder.md §3, 60_exceptions.md §3,
70_reset_and_hazards.md §1).  PKC16 has no exception entry and no return from one (R190, R200), so the shared
operation the errors take is the setting of a sticky flag, in Flags.lean. -/
namespace Sys2Proof.Machine

/-- `crc_step` with the machine's `POLY` (R103). -/
def State.fold (s : State) (c : U16) (b : Byte) : U16 := crcStep s.poly c b

/-! ### The transmit port (R122 to R126, R205) -/

/-- The byte the encoder offers and its `last` mark, a function of the state; nothing in IDLE (R122). -/
def State.offer (s : State) : Option TxByte :=
  match s.encState with
  | .idle => none
  | .lenHi => some ⟨hi8 s.txLen, false⟩
  | .lenLo => some ⟨lo8 s.txLen, true⟩
  | .cmd => some ⟨s.txCmd, false⟩
  | .data => some ⟨s.txbuf s.encIdx.toNat, false⟩
  | .crcHi => some ⟨hi8 s.txCrc, false⟩
  | .crcLo => some ⟨lo8 s.txCrc, true⟩

/-- `tx_valid`: the encoder offers a byte (R205). -/
def State.txValid (s : State) : Bool := s.offer.isSome

/-- CRC folding and the data index, in the transfer step (R124); TXBUF is read once, by the offer of `b`. -/
def foldSent (b : Byte) (s : State) : State :=
  match s.encState with
  | .cmd => { s with txCrc := s.fold s.txCrc b }
  | .data => { s with txCrc := s.fold s.txCrc b, encIdx := s.encIdx + 1 }
  | .idle | .lenHi | .lenLo | .crcHi | .crcLo => s

/-- The next-state function, "applied in the transfer step after R124" (R125). -/
def State.nextEncState (s : State) : EncState :=
  match s.encState with
  | .idle => .idle
  | .lenHi => .lenLo
  | .lenLo => .cmd
  | .cmd => if s.encN = 0 then .crcHi else .data
  | .data => if s.encIdx = s.encN then .crcHi else .data
  | .crcHi => .crcLo
  | .crcLo => .idle

/-- Completion: the transfer out of CRC_LO sets ENC_DONE (R126). -/
def completeEncode (s : State) : State :=
  match s.encState with
  | .crcLo => { s with encDone := true }
  | .idle | .lenHi | .lenLo | .cmd | .data | .crcHi => s

/-- `emit(b, last)`: the transport takes the byte (R10, R123). -/
def emit (x : TxByte) (s : State) : State := { s with txStream := s.txStream ++ [x], txSent := s.txSent + 1 }

/-- A transmit transfer (R123): the transport takes the byte on offer, TX_SENT counts it, and the encoder moves on.
"It can happen only when `enc_state != IDLE`"; otherwise nothing happens. -/
def transmitTransfer (s : State) : State :=
  match s.offer with
  | none => s
  | some x =>
    let s1 := foldSent x.data (emit x s)
    { completeEncode s1 with encState := s1.nextEncState }

/-! ### The receive port (R142 to R150, R208, R209) -/

/-- `want`, the bytes still wanted of the outstanding request (R41); a request is outstanding exactly when it is
positive. -/
def State.want (s : State) : Nat :=
  match s.decState with
  | .idle => 0
  | .len => 2 - s.decHave.toNat
  | .pay => s.rxLen.toNat - s.rxRcvd.toNat

/-- `request(n)`: the `rd_req` pulse with `rd_len = n` (R208). -/
def request (n : U16) (s : State) : State := { s with rdRequests := s.rdRequests ++ [n] }

/-- `finish(r)` ends a decode (R150). -/
def finish (r : RxResult) (s : State) : State := { s with rxResult := r, decState := .idle, decDone := true }

/-- First prefix byte (R143). -/
def receiveFirst (b : Byte) (s : State) : State := { s with decLhi := b, decHave := 1 }

/-- Second prefix byte (R144): the length is known, and either the packet is empty or the payload is requested. -/
def receiveSecond (b : Byte) (s : State) : State :=
  let l := bigEndian s.decLhi b
  let s1 := { s with rxLen := l, rxDlen := dataLength l }
  if l = 0 then finish .empty s1 else request l { s1 with decState := .pay }

/-- A payload byte is stored, counted and folded, and byte 0 is the command (R146). -/
def storePayload (b : Byte) (s : State) : State :=
  { s with
    mem := s.mem.write (Config.rxbufBase + s.rxRcvd.toNat) b
    rxCmd := if s.rxRcvd = 0 then b else s.rxCmd
    rxCrc := s.fold s.rxCrc b
    rxRcvd := s.rxRcvd + 1 }

/-- A payload byte (R146): after the last one the residue decides the outcome. -/
def receivePayload (b : Byte) (s : State) : State :=
  let s1 := storePayload b s
  if s.rxRcvd.toNat + 1 = s.rxLen.toNat then finish (if s1.rxCrc = 0 then .ok else .crcErr) s1 else s1

/-- A receive transfer of `b` (R143, R144, R146). "It can happen only while `want > 0`" (R208); otherwise nothing
happens. -/
def receiveTransfer (b : Byte) (s : State) : State :=
  if s.want = 0 then s
  else
    match s.decState with
    | .idle => s
    | .len => if s.decHave = 0 then receiveFirst b s else receiveSecond b s
    | .pay => receivePayload b s

/-- `rd_timeout` (R147, R148, R209): ends the decode in LEN or PAY; "a `rd_timeout` while `want = 0` is ignored". -/
def readTimeout (s : State) : State :=
  if s.want = 0 then s
  else
    match s.decState with
    | .idle => s
    | .len => finish .tmoLen s
    | .pay => finish .tmoPay s

/-! ### What a step has used up -/

/-- The state with the schedule it has left, once its first move is taken. -/
def State.afterMove (s : State) (moves : List Move) : State := { s with schedule := moves }

/-- The host's program once its first operation is performed (R60). -/
def State.afterOp (s : State) (ops : List HostOp) : State := { s with hostProgram := ops }

/-- What the transport still holds. -/
def State.afterByte (s : State) (held : List Byte) : State := { s with rxHeld := held }

/-! ### The transport (R210 to R212) and reset (R220) -/

/-- A byte arrives on the link; the transport keeps it, "in arrival order, for later requests" (R210). -/
def linkArrival (b : Byte) (s : State) : State := { s with rxHeld := s.rxHeld ++ [b] }

/-- The input flush (R211, R212): the transport discards the bytes it holds; a flush while a request is in progress
"must then end the request with a timeout" (U18). -/
def flushTransport (s : State) : State := readTimeout (s.afterByte [])

/-- The reset input while the block stays powered (R220): every register and field of R43 takes its reset value, the
offer and the request are withdrawn with the units' states, and the buffers "keep their last values".  What the
transport has taken or holds (R221, R222) and the host's program are not PKC16's state. -/
def resetBlock (s : State) : State :=
  { State.reset with
    poly := s.poly
    mem := s.mem
    bufferEpoch := s.bufferEpoch
    txStream := s.txStream
    rdRequests := s.rdRequests
    rxHeld := s.rxHeld
    hostProgram := s.hostProgram
    hostReads := s.hostReads
    schedule := s.schedule }

/-- A power-on reset (R220): as `resetBlock`, and every buffer byte is a new draw (R43, U2). -/
def powerOnBlock (s : State) : State :=
  { resetBlock s with mem := [], bufferEpoch := s.bufferEpoch + 1 }

end Sys2Proof.Machine
end

