-- ==== Sys2Proof/Machine/CrcUnit.lean ====
section
/-! DEFINITION. The CRC unit's commands (spec 40_crc.md §2): each completes within the host step that writes CMD. -/
namespace Sys2Proof.Machine

/-- `crc_acc <- c`: CRC_ACC is written by CRC_CLR, CRC_BYTE and reset only (R25). -/
def setCrcAcc (c : U16) (s : State) : State := { s with crcAcc := c }

/-- `NOP` (R106): `skip`. -/
def execNop (s : State) : Host.Outcome State Fault Refusal := .next s

/-- `CRC_CLR` (R107): `crc_acc <- 0x0000`. -/
def execCrcClr (s : State) : Host.Outcome State Fault Refusal := .next (setCrcAcc Config.crcInit s)

/-- `CRC_BYTE B` (R108): `crc_acc <- crc_step(crc_acc, B)`. -/
def execCrcByte (b : Byte) (s : State) : Host.Outcome State Fault Refusal :=
  .next (setCrcAcc (s.fold s.crcAcc b) s)

end Sys2Proof.Machine
end

