-- ==== Sys2Proof/Machine/Decoder.lean ====
section
/-! DEFINITION. `DEC` (spec 42_decoder.md §2); the decoder's byte and timeout steps are in Ops.lean. -/
namespace Sys2Proof.Machine

/-- Acceptance of a DEC: the RX_* registers are cleared, the decoder enters LEN and `request(2)` is posted (R141,
R142). -/
def acceptDec (s : State) : State :=
  request 2
    { s with
      rxResult := .none
      rxLen := 0
      rxCmd := 0
      rxDlen := 0
      rxCrc := Config.crcInit
      rxRcvd := 0
      decHave := 0
      decLhi := 0
      decDone := false
      decState := .len }

/-- `DEC` (R141): rejected while the decoder is busy (R192). -/
def execDec (s : State) : Host.Outcome State Fault Refusal :=
  if s.decBusy then .next (rejectBusy s) else .next (acceptDec s)

end Sys2Proof.Machine
end

