-- ==== Sys2Proof/Machine/Encoder.lean ====
section
/-! DEFINITION. `ENC B, N` (spec 41_encoder.md §2); the encoder's byte steps are in Ops.lean. -/
namespace Sys2Proof.Machine

/-- Acceptance of an ENC: the working registers are initialised and the encoder enters LEN_HI (R121). -/
def acceptEnc (b : Byte) (n : U16) (s : State) : State :=
  { s with
    encN := n
    encIdx := 0
    txCmd := b
    txLen := payloadLength n
    txCrc := Config.crcInit
    txSent := 0
    encDone := false
    encState := .lenHi }

/-- `ENC B, N` (R121): busy is checked before the length, and the first check that holds is the only one reported
(R192 to R194). -/
def execEnc (b : Byte) (n : U16) (s : State) : Host.Outcome State Fault Refusal :=
  if s.encBusy then .next (rejectBusy s)
  else if !lengthFits n then .next (rejectLength s)
  else .next (acceptEnc b n s)

end Sys2Proof.Machine
end

