-- ==== Sys2Proof/Machine/Packet.lean ====
section
/-! DEFINITION. The wire packet as a function of its content (spec 30_encoding.md R80 to R84; 41_encoder.md R120; 42_decoder.md
R140), which the encoder and decoder units compute one byte per step; and R85's command codes. -/
namespace Sys2Proof.Machine

/-- The payload an encoder builds: `command ‖ data ‖ crc16(command ‖ data)`, big-endian (R80, R81, R120). -/
def encodePayload (poly : U16) (cmd : Byte) (data : List Byte) : List Byte :=
  cmd :: data ++ [hi8 (crc16 poly (cmd :: data)), lo8 (crc16 poly (cmd :: data))]

/-- The length prefix `L = 3 + len(data)` as its two bytes (R80, R81), exact for `n <= 65532`.  For a longer string `L`
is no `u16` and the spec gives no bytes (R9 defines `hi8` and `lo8` of a `u16`; N11, D8 and U14 settle ENC alone):
there the low 16 bits of `L` stand, a DESIGN CHOICE (assumption 16) no ENC reaches. -/
def lengthBytes (n : Nat) : List Byte := [hi8 (BitVec.ofNat 16 (3 + n)), lo8 (BitVec.ofNat 16 (3 + n))]

/-- `encode(cmd, data)` of R120; the prefix of more than 65532 bytes of data is the model's choice (assumption 16). -/
def encodePacket (poly : U16) (cmd : Byte) (data : List Byte) : List Byte :=
  lengthBytes data.length ++ encodePayload poly cmd data

/-- The write unit of `bytes`: its last byte carries `last = 1` and no other does (R84, R206). -/
def writeUnit : List Byte → List TxByte
  | [] => []
  | [b] => [⟨b, true⟩]
  | b :: c :: rest => ⟨b, false⟩ :: writeUnit (c :: rest)

/-- The packet with its `last` marks: the prefix and the payload are its two write units (R84, R127). -/
def markedPacket (poly : U16) (cmd : Byte) (data : List Byte) : List TxByte :=
  writeUnit (lengthBytes data.length) ++ writeUnit (encodePayload poly cmd data)

/-- R140's `Result`. -/
inductive DecodeResult where
  | tmoLen
  | empty
  | tmoPay
  | ok (cmd : Byte) (data : List Byte)
  | crcErr (residue : U16)
  deriving DecidableEq, Repr

/-- R140's judgement of a whole payload `p` of `L >= 1` bytes: command byte 0, data `p[1 .. L-2)`, residue over
all of it. -/
def judgePayload (poly : U16) (p : List Byte) : DecodeResult :=
  if crc16 poly p = 0 then .ok (p.headD 0) ((p.drop 1).take (p.length - 3)) else .crcErr (crc16 poly p)

/-- `decode(stream)` of R140 on the bytes a transport delivers before it lets every further read time out. -/
def decodeStream (poly : U16) : List Byte → DecodeResult
  | b0 :: b1 :: rest =>
    let l := (bigEndian b0 b1).toNat
    if l = 0 then .empty
    else if rest.length < l then .tmoPay
    else judgePayload poly (rest.take l)
  | _ => .tmoLen

/-- How many bytes of the stream `decode` consumes (R149: none is pushed back, none beyond the request is read). -/
def decodeConsumes : List Byte → Nat
  | b0 :: b1 :: rest => 2 + min (bigEndian b0 b1).toNat rest.length
  | short => short.length

/-- The read requests a decode of the stream posts: `read(2)`, then `read(L)` when there is a payload to read, so at most
two (R142, R155). -/
def decodeRequests : List Byte → List U16
  | b0 :: b1 :: _ => if bigEndian b0 b1 = 0 then [2] else [2, bigEndian b0 b1]
  | _ => [2]

/-- RX_RESULT for a `Result` of R140 (R30). -/
def DecodeResult.code : DecodeResult → RxResult
  | .tmoLen => .tmoLen
  | .empty => .empty
  | .tmoPay => .tmoPay
  | .ok _ _ => .ok
  | .crcErr _ => .crcErr

/-- A byte sequence has the format an encoder gives a packet (R80, R81): a prefix that counts the bytes after it, at least
3 of them, and a CRC field over command and data. -/
def wellFormedPacket (poly : U16) : List Byte → Bool
  | b0 :: b1 :: p =>
    decide (3 ≤ p.length) && decide ((bigEndian b0 b1).toNat = p.length) &&
      decide (p.drop (p.length - 2) =
        [hi8 (crc16 poly (p.take (p.length - 2))), lo8 (crc16 poly (p.take (p.length - 2)))])
  | _ => false

/-- The command codes of R85, as named constants (N6). -/
def codeVer : Byte := 0x01
/-- `BL` (R85, R171). -/
def codeBl : Byte := 0x02
/-- `NEXT` (R85, R172). -/
def codeNext : Byte := 0x03
/-- `FRAME` (R85, R173). -/
def codeFrame : Byte := 0x04
/-- `RETRY` (R85, R174). -/
def codeRetry : Byte := 0x05
/-- `DONE` (R85, R175). -/
def codeDone : Byte := 0x06
/-- `MSG` (R85, R176). -/
def codeMsg : Byte := 0x07
/-- `DATE` (R85, R177). -/
def codeDate : Byte := 0x08

end Sys2Proof.Machine
end

