-- ==== Sys2Proof/Machine/Wire.lean ====
section
/-! DEFINITION. The wire command codes (spec 43_wire_commands.md R170 to R178).  PKC16 "carries them but never interprets
them" (R3): what the block does with a command byte is the transfer that carries it, on the receive port for a
device→host code ("decoded like any packet") and on the transmit port for a host→device code ("sent with
`enc`").  Each code has a meaning of its own over those two shared operations (assumption 7). -/
namespace Sys2Proof.Machine

/-- The byte `code` is delivered on the receive port: the receive transfer of R143, R144 or R146 where one is due. -/
def carryToHost (code : Byte) (s : State) : Host.Outcome State Fault Refusal := .next (receiveTransfer code s)

/-- The byte `code` crosses the transmit port: the transmit transfer of R123, which "can happen only when" the encoder
offers a byte, and carries `code` only when that is the byte on offer; otherwise there is no transfer. -/
def carryToDevice (code : Byte) (s : State) : Host.Outcome State Fault Refusal :=
  if s.offer.map TxByte.data = some code then .next (transmitTransfer s) else .next s

/-- `VER` (R170): received, "decoded like any packet". -/
def execVer (s : State) : Host.Outcome State Fault Refusal := carryToHost codeVer s

/-- `BL` (R171): sent. -/
def execBl (s : State) : Host.Outcome State Fault Refusal := carryToDevice codeBl s

/-- `NEXT` (R172): received, "decoded like any packet". -/
def execNext (s : State) : Host.Outcome State Fault Refusal := carryToHost codeNext s

/-- `FRAME` (R173): sent. -/
def execFrame (s : State) : Host.Outcome State Fault Refusal := carryToDevice codeFrame s

/-- `RETRY` (R174): received, "decoded like any packet". -/
def execRetry (s : State) : Host.Outcome State Fault Refusal := carryToHost codeRetry s

/-- `DONE` (R175): sent, or "received like any packet". -/
def execDone (d : Dir) (s : State) : Host.Outcome State Fault Refusal :=
  match d with
  | .toHost => carryToHost codeDone s
  | .toDevice => carryToDevice codeDone s

/-- `MSG` (R176): received, "decoded like any packet". -/
def execMsg (s : State) : Host.Outcome State Fault Refusal := carryToHost codeMsg s

/-- `DATE` (R177): sent "like any packet". -/
def execDate (s : State) : Host.Outcome State Fault Refusal := carryToDevice codeDate s

/-! ### What a user of the block reads and writes to exchange the codes -/

/-- The command word that sends a packet with code `code` and `n` data bytes: `enc code, n` (R171, R173, R175, R177). -/
def sendUnit (code : Byte) (n : U16) : CodeUnit := encode (.enc code n)

/-- The data of the received packet, `RXBUF[1 .. 1 + RX_DLEN)` (R33, R176). -/
def State.rxData (s : State) : List Byte := s.rxBytes 1 s.rxDlen.toNat

/-- VER's version: `RXBUF[1 .. 1 + RX_DLEN)` "as a big-endian number" (R170). -/
def State.version (s : State) : Nat := bigEndianNat s.rxData

/-- The source's `Packet` record, read off the registers after a decode as R154 maps it. -/
structure PacketRecord where
  timedOut : Bool
  length : U16
  command : Byte
  data : List Byte
  crc : U16
  deriving DecidableEq, Repr

/-- The record of the last decode (R154).  `command` and `data` mean something only when RX_RESULT is OK (R232). -/
def State.packetRecord (s : State) : PacketRecord where
  timedOut := s.rxResult.timedOut
  length := s.rxLen
  command := s.rxCmd
  data := s.rxData
  crc := s.rxCrc

end Sys2Proof.Machine
end

