-- ==== Sys2Proof/Machine/Dispatch.lean ====
section
/-! DEFINITION. One arm per instruction of spec/opcode_table.json. -/
namespace Sys2Proof.Machine

-- the command words (R73)
def exec (i : Instr) (s : State) : Host.Outcome State Fault Refusal :=
  match i with
  | .nop => Sys2Proof.Machine.execNop s
  | .crcClr => Sys2Proof.Machine.execCrcClr s
  | .crcByte b => Sys2Proof.Machine.execCrcByte b s
  | .enc b n => Sys2Proof.Machine.execEnc b n s
  | .dec => Sys2Proof.Machine.execDec s
  -- the wire command codes (R85)
  | .ver => Sys2Proof.Machine.execVer s
  | .bl => Sys2Proof.Machine.execBl s
  | .next => Sys2Proof.Machine.execNext s
  | .frame => Sys2Proof.Machine.execFrame s
  | .retry => Sys2Proof.Machine.execRetry s
  | .done d => Sys2Proof.Machine.execDone d s
  | .msg => Sys2Proof.Machine.execMsg s
  | .date => Sys2Proof.Machine.execDate s

end Sys2Proof.Machine
end

