-- ==== Sys2Proof/Machine/HostBus.lean ====
section
/-! DEFINITION. Host accesses (spec 10_state.md §2, 20_memory.md R50 to R58): the register map, the buffer windows, the
access rules, and a write to CMD, which decodes and performs a command (R23). -/
namespace Sys2Proof.Machine

/-- The mapped registers (10_state.md §2). -/
inductive Reg where
  | cmd | status | crcAcc | txLen | txCmd | txCrc | txSent
  | rxResult | rxLen | rxCmd | rxDlen | rxCrc | rxRcvd
  deriving DecidableEq, Repr

/-- A register's offset in the register window (10_state.md §2). -/
def Reg.offset : Reg → Addr
  | .cmd => 0x000
  | .status => 0x004
  | .crcAcc => 0x008
  | .txLen => 0x00C
  | .txCmd => 0x010
  | .txCrc => 0x014
  | .txSent => 0x018
  | .rxResult => 0x020
  | .rxLen => 0x024
  | .rxCmd => 0x028
  | .rxDlen => 0x02C
  | .rxCrc => 0x030
  | .rxRcvd => 0x034

/-- Every mapped register. -/
def Reg.all : List Reg :=
  [.cmd, .status, .crcAcc, .txLen, .txCmd, .txCrc, .txSent, .rxResult, .rxLen, .rxCmd, .rxDlen, .rxCrc, .rxRcvd]

/-- The register mapped at an offset, if any: "Every other offset in the register window is unmapped". -/
def Reg.at? (a : Addr) : Option Reg := Reg.all.find? fun r => r.offset == a

/-- A register's 32-bit value, its unlisted bits reading 0 (R23 to R35). -/
def readReg (r : Reg) (s : State) : Word :=
  match r with
  | .cmd => 0
  | .status => s.status
  | .crcAcc => s.crcAcc.setWidth 32
  | .txLen => s.txLen.setWidth 32
  | .txCmd => s.txCmd.setWidth 32
  | .txCrc => s.txCrc.setWidth 32
  | .txSent => s.txSent.setWidth 32
  | .rxResult => s.rxResult.code.setWidth 32
  | .rxLen => s.rxLen.setWidth 32
  | .rxCmd => s.rxCmd.setWidth 32
  | .rxDlen => s.rxDlen.setWidth 32
  | .rxCrc => s.rxCrc.setWidth 32
  | .rxRcvd => s.rxRcvd.setWidth 32

/-- What an access of a width at an address reaches (R50, R54, R55). -/
inductive Target where
  /-- A mapped register. -/
  | reg (r : Reg)
  /-- `TXBUF[i]`, by host address. -/
  | txbuf (a : Nat)
  /-- `RXBUF[i]`, by host address. -/
  | rxbuf (a : Nat)
  /-- An unmapped address, the width being legal there: reads 0, ignores writes. -/
  | unmapped
  /-- An access R54 does not admit. -/
  | illegal
  deriving DecidableEq, Repr

/-- The access rules: 32 bits, 4-aligned, in the register window; 8 bits in a buffer window or in the unmapped range;
nothing else (R54, R55). -/
def target (w : Width) (a : Addr) : Target :=
  match w with
  | .b16 => .illegal
  | .b32 =>
    if a.toNat < Config.txbufBase ∧ a.toNat % 4 = 0 then
      match Reg.at? a with
      | some r => .reg r
      | none => .unmapped
    else .illegal
  | .b8 =>
    if a.toNat < Config.txbufBase then .illegal
    else if a.toNat < Config.rxbufBase then .txbuf a.toNat
    else if a.toNat < Config.bufferEnd then .rxbuf a.toNat
    else .unmapped

/-- The value a host read returns; `none` for an access R54 does not admit.  No read has a side effect (R58). -/
def readValue (w : Width) (a : Addr) (s : State) : Option Word :=
  match target w a with
  | .reg r => some (readReg r s)
  | .txbuf x => some ((s.bufferByte x).setWidth 32)
  | .rxbuf x => some ((s.bufferByte x).setWidth 32)
  | .unmapped => some 0
  | .illegal => none

/-- The host receives a read's value. -/
def logRead (w : Width) (a : Addr) (v : Word) (s : State) : State :=
  { s with hostReads := s.hostReads ++ [⟨w, a, v⟩] }

/-- A host read: one atomic step (R57), or BusAccessFault (R54, R195). -/
def hostRead (w : Width) (a : Addr) (s : State) : Host.Outcome State Fault Refusal :=
  match readValue w a s with
  | some v => .next (logRead w a v s)
  | none => .fault (.busAccessFault a w)

/-- A host write of `w` to CMD: decoded, then performed or rejected with ERR_ILLEGAL (R23, R72, R191). -/
def writeCommand (w : Word) (s : State) : Host.Outcome State Fault Refusal :=
  match decode (.word w) with
  | .ok i => exec i s
  | .error _ => .next (rejectIllegal s)

/-- A host write to a register: CMD performs a command, STATUS clears W1C bits, every other register ignores it (R58). -/
def writeReg (r : Reg) (v : Word) (s : State) : Host.Outcome State Fault Refusal :=
  match r with
  | .cmd => writeCommand v s
  | .status => .next (writeStatus v s)
  | .crcAcc | .txLen | .txCmd | .txCrc | .txSent => .next s
  | .rxResult | .rxLen | .rxCmd | .rxDlen | .rxCrc | .rxRcvd => .next s

/-- A host write to a TXBUF byte: "ignored" while ENC_BUSY (R51). -/
def writeTxbuf (a : Nat) (b : Byte) (s : State) : State := if s.encBusy then s else s.writeBuffer a b

/-- A host write: one atomic step with the effect R58 gives its target, or BusAccessFault (R54, R195).  RXBUF and
unmapped addresses ignore it (R52, R55). -/
def hostWrite (w : Width) (a : Addr) (v : Word) (s : State) : Host.Outcome State Fault Refusal :=
  match target w a with
  | .reg r => writeReg r v s
  | .txbuf x => .next (writeTxbuf x (byteOf v) s)
  | .rxbuf _ => .next s
  | .unmapped => .next s
  | .illegal => .fault (.busAccessFault a w)

/-- One turn of `poll OFF, MASK, VAL` (R78): a 32-bit read; the loop is over when `(t & MASK) = VAL`, and otherwise the
host will read again in its next step. -/
def hostPoll (a : Addr) (mask val : Word) (s : State) : Host.Outcome State Fault Refusal :=
  match readValue .b32 a s with
  | none => .fault (.busAccessFault a .b32)
  | some v =>
    if v &&& mask = val then .next (logRead .b32 a v s)
    else .next ((logRead .b32 a v s).afterOp (.poll a mask val :: s.hostProgram))

/-- One operation of the host's program. -/
def hostOp (op : HostOp) (s : State) : Host.Outcome State Fault Refusal :=
  match op with
  | .read w a => hostRead w a s
  | .write w a v => hostWrite w a v s
  | .poll a mask val => hostPoll a mask val s
  | .flush => .next (flushTransport s)

/-- The block-relative address of a platform address, if the block is there (R50, R68). -/
def blockAddress? (platform : Nat) : Option Addr :=
  if Config.pkc16Base ≤ platform ∧ platform < Config.pkc16Base + Config.spaceEnd then
    some (BitVec.ofNat 18 (platform - Config.pkc16Base))
  else none

end Sys2Proof.Machine
end

