-- ==== Sys2Proof/Machine/Moves.lean ====
section
/-! DEFINITION. One atomic step of one agent, or one joint step of a unit and the transport (spec 00_scope.md R11,
20_memory.md R57), and where a step finds the instruction it runs. -/
namespace Sys2Proof.Machine

/-- The instruction a byte delivered now is: a wire command code of R85, when it is payload byte 0. -/
def State.receivedCode (s : State) (b : Byte) : Option Instr :=
  if s.decState = .pay ∧ s.rxRcvd = 0 then (decode (.wire .toHost b)).toOption else none

/-- The instruction the byte on offer is: a wire command code of R85, when the encoder is in CMD. -/
def State.offeredCode (s : State) : Option Instr :=
  if s.encState = .cmd then (decode (.wire .toDevice s.txCmd)).toOption else none

/-- The host performs its next operation, in program order (R60); with no operation left it does nothing. -/
def hostMove (s : State) : Host.Outcome State Fault Refusal :=
  match s.hostProgram with
  | [] => .next s
  | op :: rest => hostOp op (s.afterOp rest)

/-- `tx_take`: a transmit transfer (R123).  A command byte R85 defines is that code's instruction; every other byte is
carried the same way (R86). -/
def txTakeMove (s : State) : Host.Outcome State Fault Refusal :=
  match s.offeredCode with
  | some i => exec i s
  | none => .next (transmitTransfer s)

/-- `rd_valid`: the transport delivers the oldest byte it holds, "only while `want > 0`" (R208, R210).  A command byte
R85 defines is that code's instruction; every other byte is carried the same way (R86). -/
def rdValidMove (s : State) : Host.Outcome State Fault Refusal :=
  match s.rxHeld with
  | [] => .next s
  | b :: held =>
    if s.want = 0 then .next s
    else
      match s.receivedCode b with
      | some i => exec i (s.afterByte held)
      | none => .next (receiveTransfer b (s.afterByte held))

/-- One move of the schedule. -/
def perform (m : Move) (s : State) : Host.Outcome State Fault Refusal :=
  match m with
  | .host => hostMove s
  | .txTake => txTakeMove s
  | .rdValid => rdValidMove s
  | .rdTimeout => .next (readTimeout s)
  | .linkByte b => .next (linkArrival b s)
  | .reset => .next (resetBlock s)
  | .powerOn => .next (powerOnBlock s)

/-- Where the host's next CMD write comes from: the word is put at the head of the host's program, and the host moves
next. -/
def placeCommand (w : Word) (s : State) : State :=
  { s with
    hostProgram := .write .b32 Reg.cmd.offset w :: s.hostProgram
    schedule := .host :: s.schedule }

/-- A device→host command byte comes next: the decoder is at payload byte 0 of a packet of the shortest format (R153), the
transport holds the byte and delivers it next. -/
def placeReceivedByte (b : Byte) (s : State) : State :=
  { s with
    decState := .pay
    rxResult := .none
    rxLen := 3
    rxDlen := 0
    rxCmd := 0
    rxCrc := Config.crcInit
    rxRcvd := 0
    decDone := false
    rxHeld := b :: s.rxHeld
    schedule := .rdValid :: s.schedule }

/-- A host→device command byte comes next: the encoder offers it, in CMD of a packet with no data (R129), and the
transport takes it next. -/
def placeOfferedByte (b : Byte) (s : State) : State :=
  { s with
    encState := .cmd
    encN := 0
    encIdx := 0
    txCmd := b
    txLen := payloadLength 0
    txCrc := Config.crcInit
    txSent := 2
    encDone := false
    schedule := .txTake :: s.schedule }

/-- A unit of the opcode table placed so that the very next step runs it. -/
def placeUnit (u : CodeUnit) (s : State) : State :=
  match u with
  | .word w => placeCommand w s
  | .wire .toHost b => placeReceivedByte b s
  | .wire .toDevice b => placeOfferedByte b s

end Sys2Proof.Machine
end

