-- ==== Sys2Proof/Machine/Step.lean ====
section
/-! DEFINITION. The step function (spec 00_scope.md R11): the schedule says which agent moves, and one atomic step of that
agent is taken. -/
namespace Sys2Proof.Machine

/-- One step.  With an empty schedule no agent moves and nothing changes: the block has no clock and does nothing of
itself (R11, R21, R237; assumption 4). -/
def step (s : State) : Host.Outcome State Fault Refusal :=
  match s.schedule with
  | [] => .next s
  | m :: rest => perform m (s.afterMove rest)

/-- The state whose very next step runs the instruction whose bits are `w`, numbered as spec/opcode_table.json
numbers them (assumption 6). -/
def State.withFetchWord (s : State) (nbits w : Nat) : State :=
  match tableUnit nbits w with
  | some u => placeUnit u s
  | none => s

end Sys2Proof.Machine
end

