-- ==== Sys2Proof/Machine/Assembler.lean ====
section
/-! DEFINITION. The assembler of spec 30_encoding.md R77 and R78: a line is a sequence of host accesses. -/
namespace Sys2Proof.Machine

/-- "Each line stands for one CMD write" (R77): the write of a command word. -/
def cmdWrite (w : Word) : HostOp := .write .b32 Reg.cmd.offset w

/-- The word of a command line as R77's table writes it: `OP << 28 | B << 16 | N`. -/
def asmWord (op b n : Nat) : Word :=
  (BitVec.ofNat 32 op <<< 28) ||| (BitVec.ofNat 32 b <<< 16) ||| BitVec.ofNat 32 n

/-- `crc.byte B` (R77). -/
def asmCrcByte (b : Nat) : HostOp := cmdWrite (asmWord 2 b 0)

/-- `wrb A, V`: an 8-bit host write (R78). -/
def asmWrb (a v : Nat) : HostOp := .write .b8 (BitVec.ofNat 18 a) (BitVec.ofNat 32 v)

/-- `wrbuf`'s expansion: `wrb 0x10000+I, b0`; `wrb 0x10001+I, b1`; ... in order (R78). -/
def expandWrbuf (i : Nat) (bytes : List Nat) : List HostOp :=
  (bytes.zipIdx i).map fun p => asmWrb (Config.txbufBase + p.2) p.1

/-- The host operations a line expands to (R77, R78). -/
def AsmLine.expand : AsmLine → List HostOp
  | .nop => [cmdWrite (asmWord 0 0 0)]
  | .crcClr => [cmdWrite (asmWord 1 0 0)]
  | .crcByte b => [asmCrcByte b]
  | .enc b n => [cmdWrite (asmWord 3 b n)]
  | .dec => [cmdWrite (asmWord 4 0 0)]
  | .wr off v => [.write .b32 (BitVec.ofNat 18 off) (BitVec.ofNat 32 v)]
  | .rd off => [.read .b32 (BitVec.ofNat 18 off)]
  | .wrb a v => [asmWrb a v]
  | .rdb a => [.read .b8 (BitVec.ofNat 18 a)]
  | .wrbuf i bytes => expandWrbuf i bytes
  | .poll off mask val => [.poll (BitVec.ofNat 18 off) (BitVec.ofNat 32 mask) (BitVec.ofNat 32 val)]
  | .clr => [.write .b32 Reg.status.offset 0x0000007C]
  | .crcStr chars => chars.map fun c => asmCrcByte c.toNat

/-- Assembling a program: the accesses of its lines in order, or refused (`none`) where a line's operands are out of
range (R77). -/
def assemble (lines : List AsmLine) : Option (List HostOp) :=
  if lines.all AsmLine.wf then some (lines.flatMap AsmLine.expand) else none

end Sys2Proof.Machine
end

