-- ==== Sys2Proof/Safety.lean ====
section
/-! DEFINITION. What the spec promises of every state (10_state.md R37, R41; 41_encoder.md R124, R127; 42_decoder.md R146,
R150), as predicates that every step keeps; runs under a given schedule; and what R236 assumes of endless runs. -/
namespace Sys2Proof.Machine

/-- TX_SENT in each busy state, and the encoder's index (R37, R125): a function of the state. -/
def EncCounters (s : State) : Prop :=
  match s.encState with
  | .idle => True
  | .lenHi => s.txSent.toNat = 0 ∧ s.encIdx.toNat = 0
  | .lenLo => s.txSent.toNat = 1 ∧ s.encIdx.toNat = 0
  | .cmd => s.txSent.toNat = 2 ∧ s.encIdx.toNat = 0
  | .data => s.txSent.toNat = 3 + s.encIdx.toNat ∧ s.encIdx.toNat < s.encN.toNat
  | .crcHi => s.txSent.toNat = 3 + s.encN.toNat ∧ s.encIdx = s.encN
  | .crcLo => s.txSent.toNat = 4 + s.encN.toNat ∧ s.encIdx = s.encN

/-- R37: "While `enc_state != IDLE`, `TX_LEN = 3 + enc_n`", the counters of each state, and ENC_DONE clear since the
acceptance (R121). -/
def EncSequenced (s : State) : Prop :=
  (s.encState ≠ .idle → s.txLen.toNat = 3 + s.encN.toNat ∧ s.encDone = false) ∧ EncCounters s

/-- The decoder's fields in each state: `RX_RCVD` never passes `RX_LEN` (R146) and is below it in PAY, so that a request
is outstanding (R41); the acceptance values stay until they are written (R141, R144). -/
def DecSequenced (s : State) : Prop :=
  s.rxDlen = dataLength s.rxLen ∧ s.rxRcvd.toNat ≤ s.rxLen.toNat ∧
    (s.decState ≠ .idle → s.rxResult = .none ∧ s.decDone = false) ∧
    (s.decState = .len → s.rxLen = 0 ∧ s.rxRcvd = 0) ∧
    (s.decState = .pay → s.rxRcvd.toNat < s.rxLen.toNat)

/-- The buffers' canonical form and the units' sequencing. -/
structure Sequenced (s : State) : Prop where
  memory : s.mem.wf = true
  encoder : EncSequenced s
  decoder : DecSequenced s

/-- TX_CRC is the CRC of what the encoder has sent of `command ‖ data` (R28, R124). -/
def TxCrcCovers (s : State) : Prop :=
  match s.encState with
  | .idle => True
  | .lenHi | .lenLo | .cmd => s.txCrc = 0
  | .data | .crcHi | .crcLo => s.txCrc = crc16 s.poly (s.txCmd :: s.txBytes s.encIdx.toNat)

/-- RX_CRC is the CRC of `RXBUF[0 .. RX_RCVD)`, and RX_CMD is its first byte (R32, R34, R146). -/
def RxCrcCovers (s : State) : Prop :=
  s.rxCrc = crc16 s.poly (s.rxBytes 0 s.rxRcvd.toNat) ∧ s.rxCmd = if s.rxRcvd = 0 then 0 else s.rxbuf 0

/-- What each outcome says of the received packet (R30): OK is a full payload with residue 0, CRC_ERR a full payload
with another residue, EMPTY and TMO_LEN no length, TMO_PAY a payload cut short. -/
def OutcomeMeans (s : State) : Prop :=
  match s.rxResult with
  | .none => s.decState = .idle → s.rxLen = 0
  | .ok => s.rxLen ≠ 0 ∧ s.rxRcvd = s.rxLen ∧ s.rxCrc = 0
  | .crcErr => s.rxLen ≠ 0 ∧ s.rxRcvd = s.rxLen ∧ s.rxCrc ≠ 0
  | .empty => s.rxLen = 0
  | .tmoLen => s.rxLen = 0
  | .tmoPay => s.rxRcvd.toNat < s.rxLen.toNat

/-- The CRC registers cover what they are said to cover, and RX_RESULT means what R30 says. -/
structure Residues (s : State) : Prop where
  transmit : TxCrcCovers s
  receive : RxCrcCovers s
  outcome : OutcomeMeans s

/-- While the encoder runs, the last TX_SENT bytes the transport took are the first TX_SENT bytes, with their marks, of
the packet of TX_CMD and `TXBUF[0 .. enc_n)` (R61, R123, R127). -/
def StreamCarriesPacket (s : State) : Prop :=
  s.encState ≠ .idle →
    ∃ before, s.txStream = before ++ (markedPacket s.poly s.txCmd (s.txBytes s.encN.toNat)).take s.txSent.toNat

/-- A run under the schedule `ms`: one step per move (R11), stopping at the first fault or refusal. -/
def runMoves (ms : List Move) (s : State) : Host.Outcome State Fault Refusal :=
  Host.Core.run Sys2Proof.core ms.length ({ s with schedule := ms } : State)

/-- A run is safe when no step of it stops: the host makes no access R54 does not admit (R195: "the faulted run is not
a successful end"). -/
def SafeRun (ms : List Move) (s : State) : Prop := ∃ t, runMoves ms s = .next t

/-! ### Endless runs, fairness and the transport's duty (R11, R211, R236) -/

/-- An endless run: `moves n` is the move taken in step `n`, from `states n` to `states (n + 1)`. -/
def IsRun (states : Nat → State) (moves : Nat → Move) : Prop :=
  ∀ n, step ((states n).afterMove [moves n]) = .next (states (n + 1))

/-- An agent's step that can be taken in `s`: the host has an operation left (R60), the encoder offers a byte (R205), a
byte is held and wanted (R208, R210), a request is outstanding (R209).  A byte arriving on the link, reset and
power-on are inputs from outside the agents of R11: nothing is owed of them. -/
def Enabled (s : State) : Move → Prop
  | .host => s.hostProgram ≠ []
  | .txTake => s.encState ≠ .idle
  | .rdValid => s.rxHeld ≠ [] ∧ 0 < s.want
  | .rdTimeout => 0 < s.want
  | .linkByte _ | .reset | .powerOn => False

/-- Weak fairness to one move: from no point on does it stay enabled and is never taken (R236). -/
def FairTo (states : Nat → State) (moves : Nat → Move) (m : Move) : Prop :=
  ∀ n, (∀ k, n ≤ k → Enabled (states k) m) → ∃ k, n ≤ k ∧ moves k = m

/-- R236: "every agent step that stays enabled is eventually taken", save `txTake`: of the transport's taking "the model
assumes none", so that one is a premise of its own, `FairTo states moves .txTake`. -/
def WeaklyFair (states : Nat → State) (moves : Nat → Move) : Prop := ∀ m, m ≠ .txTake → FairTo states moves m

/-- The move ends the request outstanding in `s` (R211, U18): its last byte is delivered, it times out, the host flushes
the transport, or reset cancels it (R220). -/
def EndsRequest (s : State) (m : Move) : Prop :=
  0 < s.want ∧
    match m with
    | .rdValid => s.rxHeld ≠ [] ∧ s.want = 1
    | .rdTimeout | .reset | .powerOn => True
    | .host => ∃ ops, s.hostProgram = .flush :: ops
    | .txTake | .linkByte _ => False

/-- The transport's duty: "end each request by delivering all `n` bytes or by a timeout" (R211). -/
def EndsEveryRequest (states : Nat → State) (moves : Nat → Move) : Prop :=
  ∀ n, 0 < (states n).want → ∃ k, n ≤ k ∧ EndsRequest (states k) (moves k)

/-- All that R236 assumes of a run. -/
structure FairRun (states : Nat → State) (moves : Nat → Move) : Prop where
  run : IsRun states moves
  weaklyFair : WeaklyFair states moves
  endsEveryRequest : EndsEveryRequest states moves

end Sys2Proof.Machine
end

