-- ==== Sys2Proof/Certificates/Slice0/Obligations.lean ====
section
/-! DEFINITION. What is claimed of the model, for the provers.  Each docstring names the rule of spec/ it formalises. -/
open Sys2Proof Sys2Proof.Machine

/-! ### Encoding (30_encoding.md) -/

/-- R70, R71, R77, R85: no bit of an encoding is dropped; every operand value comes back. -/
def Obligations.DecodeOfEncodeIsTheInstruction : Prop :=
  ∀ i : Instr, decode (encode i) = .ok i

/-- R72: every unit that decodes has one spelling; two words never stand for one instruction. -/
def Obligations.EncodeOfDecodeIsTheUnit : Prop :=
  ∀ (u : CodeUnit) (i : Instr), decode u = .ok i → encode i = u

/-- R73: a word selects a row when `w & mask = match`; at most one row matches any word; the decoder reads that row's
instruction, and a word that matches no row is Illegal. -/
def Obligations.DecodeReadsTheSelectedTableRow : Prop :=
  ∀ w : Word, selectedRows (.word w) =
    match decode (.word w) with
    | .ok i => [i.mnemonic]
    | .error _ => []

/-- R74: the illegal words are exactly the four kinds the rule lists. -/
def Obligations.IllegalWordsAreTheFourKinds : Prop :=
  ∀ w : Word, (∃ r, decode (.word w) = .error r) ↔
    (5 ≤ (w.extractLsb' 28 4).toNat ∨ w.extractLsb' 24 4 ≠ 0 ∨
      ((w.extractLsb' 28 4 = 0x0 ∨ w.extractLsb' 28 4 = 0x1 ∨ w.extractLsb' 28 4 = 0x4) ∧ w.extractLsb' 0 24 ≠ 0) ∨
      (w.extractLsb' 28 4 = 0x2 ∧ w.extractLsb' 0 16 ≠ 0))

/-- R72, R77, R85, words written out from the spec's encodings (95_test_vectors.md W1 to W12; R85's codes). -/
def Obligations.SpecWordsDecodeToTheirInstructions : Prop :=
  decodeTableWord 32 0x00000000 = some .nop ∧ decodeTableWord 32 0x10000000 = some .crcClr ∧
    decodeTableWord 32 0x20AB0000 = some (.crcByte 0xAB) ∧ decodeTableWord 32 0x3002FFFC = some (.enc 0x02 0xFFFC) ∧
    decodeTableWord 32 0x40000000 = some .dec ∧ decodeTableWord 32 0x20AB0001 = none ∧
    decodeTableWord 32 0x3F020000 = none ∧ decodeTableWord 32 0xF0000000 = none ∧
    decodeTableWord 8 0x01 = some .ver ∧ decodeTableWord 8 0x08 = some .date

/-- R77: each command line of the assembler stands for one CMD write of its instruction's word, and operands out of
range are refused. -/
def Obligations.AssemblerWritesTheEncodedWord : Prop :=
  (∀ b n : Nat, AsmLine.wf (.enc b n) = true →
      ∃ w, encode (.enc (BitVec.ofNat 8 b) (BitVec.ofNat 16 n)) = .word w ∧
        assemble [.enc b n] = some [.write .b32 0x00000 w]) ∧
    (∀ b : Nat, AsmLine.wf (.crcByte b) = true →
      ∃ w, encode (.crcByte (BitVec.ofNat 8 b)) = .word w ∧ assemble [.crcByte b] = some [.write .b32 0x00000 w]) ∧
    (∀ b n : Nat, 0xFF < b ∨ 0xFFFF < n → assemble [.enc b n] = none) ∧
    (∀ b : Nat, 0xFF < b → assemble [.crcByte b] = none) ∧
    assemble [.nop] = some [.write .b32 0x00000 0x00000000] ∧
    assemble [.crcClr] = some [.write .b32 0x00000 0x10000000] ∧
    assemble [.dec] = some [.write .b32 0x00000 0x40000000]

/-- R78: `wr`, `rd`, `wrb`, `rdb` and `poll` stand for one host operation each; `wrbuf` for its `wrb` lines, accepted
when they are, wherever they reach; `clr` for `wr 0x004, 0x0000007C`; `crc.str` for a `crc.byte` of each ASCII
byte.  (The operand ranges are log entry 8, DEDUCED.) -/
def Obligations.PseudoInstructionsExpandToHostAccesses : Prop :=
  (∀ off v : Nat, off < 2 ^ 18 → v < 2 ^ 32 →
      assemble [.wr off v] = some [.write .b32 (BitVec.ofNat 18 off) (BitVec.ofNat 32 v)]) ∧
    (∀ off : Nat, off < 2 ^ 18 → assemble [.rd off] = some [.read .b32 (BitVec.ofNat 18 off)]) ∧
    (∀ a v : Nat, a < 2 ^ 18 → v < 2 ^ 8 →
      assemble [.wrb a v] = some [.write .b8 (BitVec.ofNat 18 a) (BitVec.ofNat 32 v)]) ∧
    (∀ a : Nat, a < 2 ^ 18 → assemble [.rdb a] = some [.read .b8 (BitVec.ofNat 18 a)]) ∧
    (∀ off mask val : Nat, off < 2 ^ 18 → mask < 2 ^ 32 → val < 2 ^ 32 →
      assemble [.poll off mask val] =
        some [.poll (BitVec.ofNat 18 off) (BitVec.ofNat 32 mask) (BitVec.ofNat 32 val)]) ∧
    (∀ (i : Nat) (bytes : List Nat),
      assemble [.wrbuf i bytes] = assemble (bytes.mapIdx fun k b => .wrb (0x10000 + (i + k)) b)) ∧
    assemble [.clr] = assemble [.wr 0x004 0x0000007C] ∧
    ∀ chars : List Char, (∀ c ∈ chars, c.toNat < 128) →
      assemble [.crcStr chars] = assemble (chars.map fun c => .crcByte c.toNat)

/-! ### The CRC-16 function (40_crc.md §1) -/

/-- R103: `crc_step` recombines the table bytes with the low byte of the running CRC, and its shift form is the same
function, for every `POLY`. -/
def Obligations.CrcStepIsShiftXorTable : Prop :=
  ∀ (poly c : U16) (b : Byte), let t := crcTable poly (c.extractLsb' 8 8 ^^^ b)
    crcStep poly c b = (c.extractLsb' 0 8 ^^^ t.extractLsb' 8 8) ++ t.extractLsb' 0 8 ∧
      crcStep poly c b = (c <<< 8) ^^^ t

/-- R104: `crc16` is the left-to-right fold of `crc_step` from 0, and a fold continues from the CRC before it. -/
def Obligations.CrcIsTheLeftFoldFromZero : Prop :=
  ∀ (poly : U16) (s t : List Byte) (b : Byte),
    crc16 poly s = s.foldl (crcStep poly) 0x0000 ∧ crc16 poly [] = 0x0000 ∧
      crc16 poly (s ++ [b]) = crcStep poly (crc16 poly s) b ∧
      ∀ c, crcFrom poly c s = s.foldl (crcStep poly) c ∧ crc16 poly (s ++ t) = crcFrom poly (crc16 poly s) t

/-- R101: `T[i]` is eight rounds of the shift register from `i << 8`; `T[0] = 0` for every `POLY`, `T` is linear, and no
step changes it. -/
def Obligations.CrcTableIsEightRoundsAndLinear : Prop :=
  ∀ (poly : U16) (i j : Byte),
    (∃ r : Nat → U16, r 0 = i.setWidth 16 <<< 8 ∧
      (∀ k, r (k + 1) = if (r k).getLsbD 15 = true then (r k <<< 1) ^^^ poly else r k <<< 1) ∧ crcTable poly i = r 8) ∧
      crcTable poly 0 = 0 ∧ crcTable poly (i ^^^ j) = crcTable poly i ^^^ crcTable poly j ∧
      ∀ s t : State, step s = .next t → crcTable t.poly i = crcTable s.poly i

/-- R105 laws 1, 2 and 3, for every `POLY`: the zero residue of a message with its CRC appended, leading zeros, and one
byte from zero. -/
def Obligations.CrcResidueOfAppendedCrcIsZero : Prop :=
  ∀ (poly : U16) (m : List Byte) (b : Byte),
    crc16 poly (m ++ [(crc16 poly m).extractLsb' 8 8, (crc16 poly m).extractLsb' 0 8]) = 0 ∧
      crc16 poly (0x00 :: m) = crc16 poly m ∧ crcStep poly 0 b = crcTable poly b

/-- R105 law 5 as its proof establishes it: no single-byte error goes undetected when the polynomial's constant term
is 1.  (The condition that `POLY` is odd is log entry 11, DEDUCED: as worded, for every nonzero `POLY`, the law fails.) -/
def Obligations.CrcDetectsOneByteErrorForOddPoly : Prop :=
  ∀ (poly : U16) (a z : List Byte) (x y : Byte), poly.getLsbD 0 = true → x ≠ y →
    crc16 poly (a ++ x :: z) ≠ crc16 poly (a ++ y :: z)

/-- R105 law 5 as it is worded, "whenever `POLY != 0`", with no premise on the constant term; expected to fail
(log entry 11). -/
def Obligations.CrcDetectsOneByteErrorForNonzeroPoly : Prop :=
  ∀ (poly : U16) (a z : List Byte) (x y : Byte), poly ≠ 0 → x ≠ y →
    crc16 poly (a ++ x :: z) ≠ crc16 poly (a ++ y :: z)

/-! ### The commands (40_crc.md §2, 41_encoder.md §2, 42_decoder.md §2, 60_exceptions.md §1) -/

/-- No instruction stops the machine: each one answers a next state, in every state (R190). -/
def Obligations.EveryInstructionAnswersANextState : Prop :=
  ∀ (i : Instr) (s : State), ∃ t, exec i s = .next t

/-- R106, R107, R108: NOP is `skip`, CRC_CLR seeds the accumulator, CRC_BYTE folds its byte into it, whatever the other
units are doing; nothing else changes. -/
def Obligations.CrcUnitCommandsHaveTheirEffect : Prop :=
  ∀ (b : Byte) (s : State), exec .nop s = .next s ∧ exec .crcClr s = .next { s with crcAcc := 0x0000 } ∧
    exec (.crcByte b) s = .next { s with crcAcc := crcStep s.poly s.crcAcc b }

/-- R108's law "Together": CRC_CLR and then CRC_BYTE for each byte of `bytes`, written to CMD in order, leave
`crc_acc = crc16(bytes)`. -/
def Obligations.CrcCommandsFoldAWholeString : Prop :=
  ∀ (bytes : List Byte) (s : State),
    runMoves (List.replicate (bytes.length + 1) .host)
      { s with hostProgram :=
          .write .b32 0x00000 0x10000000 :: bytes.map fun b => .write .b32 0x00000 (commandWord 0x2 b 0) } =
      .next { s with hostProgram := [], schedule := [], crcAcc := crc16 s.poly bytes }

/-- R121: ENC while the encoder is IDLE and with `N <= 65532` is accepted. -/
def Obligations.EncAcceptedWhenIdleAndFits : Prop :=
  ∀ (b : Byte) (n : U16) (s : State), s.encState = .idle → n.toNat ≤ 65532 →
    exec (.enc b n) s = .next { s with encN := n, encIdx := 0, txCmd := b, txLen := BitVec.ofNat 16 (3 + n.toNat),
                                       txCrc := 0x0000, txSent := 0, encDone := false, encState := .lenHi }

/-- R191 to R194: a CMD write of an illegal word sets ERR_ILLEGAL alone; an ENC or a DEC of a busy unit sets ERR_BUSY
alone, whatever the length; an ENC of the idle encoder with `N > 65532` sets ERR_LEN alone; nothing else changes. -/
def Obligations.RejectedCommandsSetOneErrorBit : Prop :=
  ∀ (w : Word) (s : State),
    (∀ r, decode (.word w) = .error r → hostOp (.write .b32 0x00000 w) s = .next { s with errIllegal := true }) ∧
    (∀ b n, decode (.word w) = .ok (.enc b n) → s.encState ≠ .idle →
      hostOp (.write .b32 0x00000 w) s = .next { s with errBusy := true }) ∧
    (decode (.word w) = .ok .dec → s.decState ≠ .idle →
      hostOp (.write .b32 0x00000 w) s = .next { s with errBusy := true }) ∧
    (∀ b n, decode (.word w) = .ok (.enc b n) → s.encState = .idle → 65532 < n.toNat →
      hostOp (.write .b32 0x00000 w) s = .next { s with errLen := true })

/-- R141, R142, R192: DEC while the decoder is IDLE is accepted, and `request(2)` is posted; while the decoder is busy it
sets ERR_BUSY alone, and the running decode goes on unaffected. -/
def Obligations.DecAcceptedWhenIdleElseRejected : Prop :=
  ∀ s : State,
    (s.decState = .idle →
      exec .dec s = .next { s with rxResult := .none, rxLen := 0, rxCmd := 0, rxDlen := 0, rxCrc := 0x0000, rxRcvd := 0,
                                   decHave := 0, decLhi := 0, decDone := false, decState := .len,
                                   rdRequests := s.rdRequests ++ [2] }) ∧
    (s.decState ≠ .idle → exec .dec s = .next { s with errBusy := true })

/-- R3, R85, R86, R146: a device→host command code delivered as payload byte 0 is stored, folded and counted like any
byte, and becomes RX_CMD; when it is the whole payload the residue decides the outcome (R150).  (That `exec` of the
code is that receive transfer is log entry 7, DEDUCED.) -/
def Obligations.DeviceToHostCodesAreReceived : Prop :=
  ∀ (i : Instr) (code : Byte) (s : State),
    (i, code) ∈ [(Instr.ver, (0x01 : Byte)), (.next, 0x03), (.retry, 0x05), (.done .toHost, 0x06), (.msg, 0x07)] →
    s.decState = .pay → s.rxRcvd = 0 → s.rxLen ≠ 0 →
    exec i s = .next
      { s with
        mem := s.mem.write 0x20000 code
        rxCmd := code
        rxCrc := crcStep s.poly s.rxCrc code
        rxRcvd := 1
        rxResult := if s.rxLen = 1 then (if crcStep s.poly s.rxCrc code = 0 then .ok else .crcErr) else s.rxResult
        decState := if s.rxLen = 1 then .idle else .pay
        decDone := if s.rxLen = 1 then true else s.decDone }

/-- R3, R85, R86, R122 to R125: a host→device command code on offer in CMD is taken, folded and counted like any
command byte.  (That `exec` of the code is that transmit transfer is log entry 7, DEDUCED.) -/
def Obligations.HostToDeviceCodesAreSent : Prop :=
  ∀ (i : Instr) (code : Byte) (s : State),
    (i, code) ∈ [(Instr.bl, (0x02 : Byte)), (.frame, 0x04), (.done .toDevice, 0x06), (.date, 0x08)] →
    s.encState = .cmd → s.txCmd = code →
    exec i s = .next
      { s with
        txStream := s.txStream ++ [⟨code, false⟩]
        txSent := s.txSent + 1
        txCrc := crcStep s.poly s.txCrc code
        encState := if s.encN = 0 then .crcHi else .data }

/-- R82, R121, R171 to R177 (PKC16's part): a host sends a code with `enc code, n`; the word written to CMD starts that
packet when the encoder is IDLE and `n` fits. -/
def Obligations.SendWordStartsItsPacket : Prop :=
  ∀ (code : Byte) (n : U16) (s : State), s.encState = .idle → n.toNat ≤ 65532 →
    ∃ w t, sendUnit code n = .word w ∧ hostOp (.write .b32 0x00000 w) s = .next t ∧
      t.encState = .lenHi ∧ t.txCmd = code ∧ t.encN = n ∧ t.txLen.toNat = 3 + n.toNat ∧ t.mem = s.mem

/-! ### Frames of the commands -/

/-- The CRC unit's commands write CRC_ACC and nothing else, and no byte of memory (R106 to R108, R131, R156). -/
def Obligations.CrcUnitFrame : Prop :=
  ∀ (i : Instr) (s t : State), (i = .nop ∨ i = .crcClr ∨ ∃ b, i = .crcByte b) → exec i s = .next t →
    t = { s with crcAcc := t.crcAcc } ∧ ∀ a, t.bufferByte a = s.bufferByte a

/-- ENC writes the encoder's own registers and its own STATUS bits only (R121, R131): the decoder, the CRC unit, the
buffers, ERR_ILLEGAL and DEC_DONE are as before, and a rejected ENC leaves every working register. -/
def Obligations.EncFrame : Prop :=
  ∀ (b : Byte) (n : U16) (s t : State), exec (.enc b n) s = .next t →
    t = { s with encN := t.encN, encIdx := t.encIdx, txCmd := t.txCmd, txLen := t.txLen, txCrc := t.txCrc,
                 txSent := t.txSent, encState := t.encState, encDone := t.encDone, errBusy := t.errBusy,
                 errLen := t.errLen } ∧
      (∀ a, t.bufferByte a = s.bufferByte a) ∧
      (s.errBusy = true → t.errBusy = true) ∧ (s.errLen = true → t.errLen = true) ∧
      (t.encState = s.encState → t = { s with errBusy := t.errBusy, errLen := t.errLen })

/-- DEC writes the decoder's own registers and its own STATUS bits only, and posts its request (R141, R156): the
encoder, the CRC unit and the buffers (RXBUF is not cleared) are as before. -/
def Obligations.DecFrame : Prop :=
  ∀ s t : State, exec .dec s = .next t →
    t = { s with rxResult := t.rxResult, rxLen := t.rxLen, rxCmd := t.rxCmd, rxDlen := t.rxDlen, rxCrc := t.rxCrc,
                 rxRcvd := t.rxRcvd, decHave := t.decHave, decLhi := t.decLhi, decDone := t.decDone,
                 decState := t.decState, rdRequests := t.rdRequests, errBusy := t.errBusy } ∧
      (∀ a, t.bufferByte a = s.bufferByte a) ∧ (s.errBusy = true → t.errBusy = true)

/-- A received wire code, in every state: the encoder, the CRC unit and the error flags are as before, and every byte of
memory outside the one RXBUF cell at `0x20000 + RX_RCVD`; in a state that wants no payload byte, every byte.  (That
the codes are instructions is log entry 7, DEDUCED.) -/
def Obligations.ReceivedCodeFrame : Prop :=
  ∀ (i : Instr) (s t : State), i ∈ [Instr.ver, .next, .retry, .done .toHost, .msg] → exec i s = .next t →
    t = { s with rxResult := t.rxResult, rxLen := t.rxLen, rxCmd := t.rxCmd, rxDlen := t.rxDlen, rxCrc := t.rxCrc,
                 rxRcvd := t.rxRcvd, decHave := t.decHave, decLhi := t.decLhi, decDone := t.decDone,
                 decState := t.decState, rdRequests := t.rdRequests, mem := t.mem } ∧
      (∀ a, a ≠ Config.rxbufBase + s.rxRcvd.toNat → t.bufferByte a = s.bufferByte a) ∧
      (s.decState ≠ .pay ∨ s.want = 0 → ∀ a, t.bufferByte a = s.bufferByte a)

/-- A sent wire code, in every state: the decoder, the CRC unit, the error flags, TX_CMD, TX_LEN and every byte of memory
are as before.  (That the codes are instructions is log entry 7, DEDUCED.) -/
def Obligations.SentCodeFrame : Prop :=
  ∀ (i : Instr) (s t : State), i ∈ [Instr.bl, .frame, .done .toDevice, .date] → exec i s = .next t →
    t = { s with txCrc := t.txCrc, txSent := t.txSent, encIdx := t.encIdx, encState := t.encState,
                 encDone := t.encDone, txStream := t.txStream } ∧
      ∀ a, t.bufferByte a = s.bufferByte a

/-! ### The step -/

/-- A step runs the decoded instruction.  R23: the host's CMD write of a word that decodes to `i` is `exec i`, past the
host's operation.  The second and third clauses are the model's choice, log entry 7 (DEDUCED): that a byte delivered as
payload byte 0, or taken in CMD, is `exec` of the wire code it decodes to, when R85 and R86 say only that the byte is
carried. -/
def Obligations.StepRunsTheDecodedInstruction : Prop :=
  ∀ (i : Instr) (s : State) (moves : List Move),
    (∀ (w : Word) (ops : List HostOp), s.schedule = .host :: moves →
      s.hostProgram = .write .b32 0x00000 w :: ops → decode (.word w) = .ok i →
      step s = exec i { s with schedule := moves, hostProgram := ops }) ∧
    (∀ (b : Byte) (held : List Byte), s.schedule = .rdValid :: moves → s.rxHeld = b :: held →
      s.decState = .pay → s.rxRcvd = 0 → s.rxLen ≠ 0 → decode (.wire .toHost b) = .ok i →
      step s = exec i { s with schedule := moves, rxHeld := held }) ∧
    (s.schedule = .txTake :: moves → s.encState = .cmd → decode (.wire .toDevice s.txCmd) = .ok i →
      step s = exec i { s with schedule := moves })

/-! ### The encoder's and the decoder's steps (41_encoder.md §3, 42_decoder.md §3) -/

/-- R122 to R126: the byte taken in each state, with its mark, and everything that changes with it; in IDLE nothing. -/
def Obligations.TransmitTransferInEachState : Prop :=
  ∀ (s : State) (moves : List Move), s.schedule = .txTake :: moves →
    (s.encState = .idle → step s = .next { s with schedule := moves }) ∧
    (s.encState = .lenHi → step s = .next
      { s with schedule := moves, txStream := s.txStream ++ [⟨s.txLen.extractLsb' 8 8, false⟩],
               txSent := s.txSent + 1, encState := .lenLo }) ∧
    (s.encState = .lenLo → step s = .next
      { s with schedule := moves, txStream := s.txStream ++ [⟨s.txLen.extractLsb' 0 8, true⟩],
               txSent := s.txSent + 1, encState := .cmd }) ∧
    (s.encState = .cmd → step s = .next
      { s with schedule := moves, txStream := s.txStream ++ [⟨s.txCmd, false⟩], txSent := s.txSent + 1,
               txCrc := crcStep s.poly s.txCrc s.txCmd, encState := if s.encN = 0 then .crcHi else .data }) ∧
    (s.encState = .data → step s = .next
      { s with schedule := moves, txStream := s.txStream ++ [⟨s.txbuf s.encIdx.toNat, false⟩],
               txSent := s.txSent + 1, txCrc := crcStep s.poly s.txCrc (s.txbuf s.encIdx.toNat),
               encIdx := s.encIdx + 1, encState := if s.encIdx + 1 = s.encN then .crcHi else .data }) ∧
    (s.encState = .crcHi → step s = .next
      { s with schedule := moves, txStream := s.txStream ++ [⟨s.txCrc.extractLsb' 8 8, false⟩],
               txSent := s.txSent + 1, encState := .crcLo }) ∧
    (s.encState = .crcLo → step s = .next
      { s with schedule := moves, txStream := s.txStream ++ [⟨s.txCrc.extractLsb' 0 8, true⟩],
               txSent := s.txSent + 1, encState := .idle, encDone := true })

/-- R143, R144, R150: the two prefix bytes; the second gives RX_LEN and RX_DLEN, and either ends the decode EMPTY or
posts `request(L)` and enters PAY. -/
def Obligations.PrefixBytesGiveTheLength : Prop :=
  ∀ (s : State) (moves : List Move) (b : Byte) (held : List Byte),
    s.schedule = .rdValid :: moves → s.rxHeld = b :: held → s.decState = .len →
    (s.decHave = 0 → step s = .next { s with schedule := moves, rxHeld := held, decLhi := b, decHave := 1 }) ∧
    (s.decHave = 1 → s.decLhi ++ b = (0 : U16) → step s = .next
      { s with schedule := moves, rxHeld := held, rxLen := 0, rxDlen := 0, rxResult := .empty, decState := .idle,
               decDone := true }) ∧
    (s.decHave = 1 → s.decLhi ++ b ≠ (0 : U16) → step s = .next
      { s with schedule := moves, rxHeld := held, rxLen := s.decLhi ++ b,
               rxDlen := BitVec.ofNat 16 ((s.decLhi ++ b).toNat - 3), decState := .pay,
               rdRequests := s.rdRequests ++ [s.decLhi ++ b] })

/-- R146, R150: a payload byte; the last one ends the decode with OK or CRC_ERR by the updated RX_CRC. -/
def Obligations.PayloadByteIsStoredAndFolded : Prop :=
  ∀ (s : State) (moves : List Move) (b : Byte) (held : List Byte),
    s.schedule = .rdValid :: moves → s.rxHeld = b :: held → s.decState = .pay → s.rxRcvd.toNat < s.rxLen.toNat →
    step s = .next
      { s with
        schedule := moves
        rxHeld := held
        mem := s.mem.write (Config.rxbufBase + s.rxRcvd.toNat) b
        rxCmd := if s.rxRcvd = 0 then b else s.rxCmd
        rxCrc := crcStep s.poly s.rxCrc b
        rxRcvd := s.rxRcvd + 1
        rxResult := if s.rxRcvd.toNat + 1 = s.rxLen.toNat then
            (if crcStep s.poly s.rxCrc b = 0 then .ok else .crcErr) else s.rxResult
        decState := if s.rxRcvd.toNat + 1 = s.rxLen.toNat then .idle else .pay
        decDone := if s.rxRcvd.toNat + 1 = s.rxLen.toNat then true else s.decDone }

/-- R147, R148, R209: a timeout ends a decode with TMO_LEN or TMO_PAY while a request is outstanding, and is ignored
while none is. -/
def Obligations.TimeoutEndsTheOutstandingRead : Prop :=
  ∀ (s : State) (moves : List Move), s.schedule = .rdTimeout :: moves →
    (s.decState = .len → step s = .next
      { s with schedule := moves, rxResult := .tmoLen, decState := .idle, decDone := true }) ∧
    (s.decState = .pay → s.rxRcvd.toNat < s.rxLen.toNat → step s = .next
      { s with schedule := moves, rxResult := .tmoPay, decState := .idle, decDone := true }) ∧
    (s.want = 0 → step s = .next { s with schedule := moves })

/-- R86, R178: PKC16 never checks the command byte.  Whatever the byte is, defined by R85 or not, its transfer is the
transfer of any byte, in either direction. -/
def Obligations.EveryCommandByteIsCarriedAlike : Prop :=
  ∀ (s : State) (b : Byte) (held : List Byte),
    txTakeMove s = .next (transmitTransfer s) ∧
      (s.rxHeld = b :: held → 0 < s.want → rdValidMove s = .next (receiveTransfer b { s with rxHeld := held }))

/-- R41, R208: `want`, the value of the `rd_want` port, is 0 in IDLE, `2 - dec_have` in LEN and `RX_LEN - RX_RCVD` in PAY.
R208, R210, R211, R212, U18: the transport delivers nothing while no byte is wanted, and keeps what it holds, a newly
arrived byte after the others; a flush empties what it holds, and ends a request in progress with a timeout.  (That a
flush discards all it holds is log entry 9, DESIGN CHOICE.) -/
def Obligations.TransportKeepsOrFlushesItsBytes : Prop :=
  ∀ (s : State) (moves : List Move) (b : Byte),
    (s.decState = .idle → s.want = 0) ∧
    (s.decState = .len → s.want = 2 - s.decHave.toNat) ∧
    (s.decState = .pay → s.want = s.rxLen.toNat - s.rxRcvd.toNat) ∧
    (s.schedule = .rdValid :: moves → s.want = 0 → step s = .next { s with schedule := moves }) ∧
    (s.schedule = .linkByte b :: moves → step s = .next { s with schedule := moves, rxHeld := s.rxHeld ++ [b] }) ∧
    (s.want = 0 → hostOp .flush s = .next { s with rxHeld := [] }) ∧
    (s.decState = .len → hostOp .flush s = .next
      { s with rxHeld := [], rxResult := .tmoLen, decState := .idle, decDone := true }) ∧
    (s.decState = .pay → s.rxRcvd.toNat < s.rxLen.toNat → hostOp .flush s = .next
      { s with rxHeld := [], rxResult := .tmoPay, decState := .idle, decDone := true })

/-! ### Host accesses (10_state.md §2, 20_memory.md) -/

/-- R54, R55, R195: an access is admitted when it is 32 bits, 4-aligned and in the register window, or 8 bits at or above
the buffer windows; every other one raises BusAccessFault of its address and width; and an admitted one never
faults. -/
def Obligations.BusAccessFaultExactlyWhenNotAdmitted : Prop :=
  ∀ (w : Width) (a : Addr) (v mask : Word) (s : State),
    let admitted := (w = .b32 ∧ a.toNat < 0x10000 ∧ a.toNat % 4 = 0) ∨ (w = .b8 ∧ 0x10000 ≤ a.toNat)
    (¬ admitted → hostOp (.read w a) s = .fault (.busAccessFault a w) ∧
      hostOp (.write w a v) s = .fault (.busAccessFault a w) ∧
      (w = .b32 → hostOp (.poll a mask v) s = .fault (.busAccessFault a w))) ∧
    (admitted → (∃ t, hostOp (.read w a) s = .next t) ∧ (∃ t, hostOp (.write w a v) s = .next t) ∧
      (w = .b32 → ∃ t, hostOp (.poll a mask v) s = .next t))

/-- R23 to R35: the 32-bit value a read of each mapped register returns, its unlisted bits 0. -/
def Obligations.RegisterReadsReturnTheirFields : Prop :=
  ∀ (s : State) (a : Addr) (v : Word),
    (a, v) ∈ [((0x000 : Addr), (0 : Word)), (0x008, s.crcAcc.setWidth 32), (0x00C, s.txLen.setWidth 32),
      (0x010, s.txCmd.setWidth 32), (0x014, s.txCrc.setWidth 32), (0x018, s.txSent.setWidth 32),
      (0x024, s.rxLen.setWidth 32), (0x028, s.rxCmd.setWidth 32), (0x02C, s.rxDlen.setWidth 32),
      (0x030, s.rxCrc.setWidth 32), (0x034, s.rxRcvd.setWidth 32),
      (0x020, match s.rxResult with | .none => 0 | .ok => 1 | .crcErr => 2 | .empty => 3 | .tmoLen => 4 | .tmoPay => 5)] →
    hostOp (.read .b32 a) s = .next { s with hostReads := s.hostReads ++ [⟨.b32, a, v⟩] }

/-- R24: every bit of STATUS as a read returns it; bits 31:7 read 0. -/
def Obligations.StatusReadsItsBits : Prop :=
  ∀ s : State, ∃ v : Word,
    hostOp (.read .b32 0x004) s = .next { s with hostReads := s.hostReads ++ [⟨.b32, 0x004, v⟩] } ∧
      v.getLsbD 0 = decide (s.encState ≠ .idle) ∧ v.getLsbD 1 = decide (s.decState ≠ .idle) ∧
      v.getLsbD 2 = s.encDone ∧ v.getLsbD 3 = s.decDone ∧ v.getLsbD 4 = s.errIllegal ∧
      v.getLsbD 5 = s.errBusy ∧ v.getLsbD 6 = s.errLen ∧ ∀ k, 7 ≤ k → v.getLsbD k = false

/-- R24: a write of `v` to STATUS clears each bit `k` in 2..6 with `v[k] = 1`, and changes nothing else. -/
def Obligations.StatusWriteClearsTheOnesWritten : Prop :=
  ∀ (v : Word) (s : State),
    hostOp (.write .b32 0x004 v) s = .next
      { s with
        encDone := if v.getLsbD 2 = true then false else s.encDone
        decDone := if v.getLsbD 3 = true then false else s.decDone
        errIllegal := if v.getLsbD 4 = true then false else s.errIllegal
        errBusy := if v.getLsbD 5 = true then false else s.errBusy
        errLen := if v.getLsbD 6 = true then false else s.errLen }

/-- R55: at an unmapped address a read of legal width returns 0 and a write is ignored, 32 bits in the register window and
8 bits above the buffers; a 32-bit access above the buffers raises BusAccessFault. -/
def Obligations.UnmappedReadsZeroAndIgnoresWrites : Prop :=
  ∀ (w : Width) (a : Addr) (v : Word) (s : State),
    ((w = .b8 ∧ 0x30000 ≤ a.toNat) ∨
      (w = .b32 ∧ a.toNat < 0x10000 ∧ a.toNat % 4 = 0 ∧ (0x034 < a.toNat ∨ a.toNat = 0x01C)) →
      hostOp (.read w a) s = .next { s with hostReads := s.hostReads ++ [⟨w, a, 0⟩] } ∧
        hostOp (.write w a v) s = .next s) ∧
    (w = .b32 ∧ 0x30000 ≤ a.toNat →
      hostOp (.read w a) s = .fault (.busAccessFault a w) ∧ hostOp (.write w a v) s = .fault (.busAccessFault a w))

/-- 10_state.md §2 ("A register marked R (read-only) ignores every host write to it"), R52: a host write to a read-only
register or to RXBUF is ignored, and an RXBUF read returns the current byte. -/
def Obligations.ReadOnlyTargetsIgnoreWrites : Prop :=
  ∀ (a : Addr) (v : Word) (s : State),
    (a.toNat < 0x10000 → a.toNat % 4 = 0 → 0x004 < a.toNat → hostOp (.write .b32 a v) s = .next s) ∧
    (0x20000 ≤ a.toNat → a.toNat < 0x30000 → hostOp (.write .b8 a v) s = .next s ∧
      hostOp (.read .b8 a) s =
        .next { s with hostReads := s.hostReads ++ [⟨.b8, a, (s.bufferByte a.toNat).setWidth 32⟩] })

/-- R51: a host write to TXBUF is stored unless the encoder is busy, when it is ignored; every other byte keeps its value.
"A host read always returns the current byte", whatever the encoder is doing, so a read after a stored write returns
the byte written. -/
def Obligations.TxbufWriteStoredUnlessEncBusy : Prop :=
  ∀ (a : Addr) (v : Word) (s : State), 0x10000 ≤ a.toNat → a.toNat < 0x20000 →
    hostOp (.read .b8 a) s =
        .next { s with hostReads := s.hostReads ++ [⟨.b8, a, (s.bufferByte a.toNat).setWidth 32⟩] } ∧
    (s.encState ≠ .idle → hostOp (.write .b8 a v) s = .next s) ∧
    (s.encState = .idle → ∃ t, hostOp (.write .b8 a v) s = .next t ∧ t = { s with mem := t.mem } ∧
      t.bufferByte a.toNat = v.extractLsb' 0 8 ∧ (∀ x, x ≠ a.toNat → t.bufferByte x = s.bufferByte x) ∧
      hostOp (.read .b8 a) t =
        .next { t with hostReads := t.hostReads ++ [⟨.b8, a, (v.extractLsb' 0 8).setWidth 32⟩] })

/-- R58: a host read has no side effect: only the host's own record of what it read grows, by one entry. -/
def Obligations.HostReadsHaveNoSideEffect : Prop :=
  ∀ (w : Width) (a : Addr) (s t : State), hostOp (.read w a) s = .next t →
    ∃ v, t = { s with hostReads := s.hostReads ++ [⟨w, a, v⟩] }

/-- R78: `poll` reads a register, goes on when `(t & MASK) = VAL`, and otherwise comes next again. -/
def Obligations.PollRepeatsUntilTheMaskedValue : Prop :=
  ∀ (a : Addr) (mask val v : Word) (s : State), readValue .b32 a s = some v →
    (v &&& mask = val → hostOp (.poll a mask val) s =
      .next { s with hostReads := s.hostReads ++ [⟨.b32, a, v⟩] }) ∧
    (v &&& mask ≠ val → hostOp (.poll a mask val) s =
      .next { s with hostReads := s.hostReads ++ [⟨.b32, a, v⟩], hostProgram := .poll a mask val :: s.hostProgram })

/-! ### Reset (10_state.md R43, 70_reset_and_hazards.md R220) -/

/-- R43: the reset values the spec gives.  The buffer clause is the model's choice, log entry 2 (DESIGN CHOICE): each byte
is a draw of its own, a free value, of the first epoch.  (The rest of `State.reset` is log entries 1 and 5.) -/
def Obligations.ResetValuesAreTheSpecs : Prop :=
  let s := State.reset
  s.status = 0 ∧ s.crcAcc = 0x0000 ∧ s.txLen = 0 ∧ s.txCmd = 0 ∧ s.txCrc = 0 ∧ s.txSent = 0 ∧ s.rxResult = .none ∧
    s.rxLen = 0 ∧ s.rxCmd = 0 ∧ s.rxDlen = 0 ∧ s.rxCrc = 0 ∧ s.rxRcvd = 0 ∧ s.encState = .idle ∧ s.decState = .idle ∧
    s.encN = 0 ∧ s.encIdx = 0 ∧ s.decHave = 0 ∧ s.decLhi = 0 ∧ s.want = 0 ∧
    ∀ a, s.bufferByte a = Config.bufferDraw 0 a

/-- R220, R221, R222: the reset input puts every register and field of R43 at its reset value in one step, withdraws the
offer and the request, keeps the buffers while the block stays powered, and takes nothing back from the
transport; a power-on makes every buffer byte a new draw.  (Which reset keeps the buffers is log entry 3, DEDUCED; what
stands outside PKC16 is log entry 5.) -/
def Obligations.ResetInputRestoresTheResetState : Prop :=
  ∀ (s : State) (moves : List Move),
    (s.schedule = .reset :: moves → step s = .next
      { State.reset with
        poly := s.poly, mem := s.mem, bufferEpoch := s.bufferEpoch, txStream := s.txStream, rdRequests := s.rdRequests,
        rxHeld := s.rxHeld, hostProgram := s.hostProgram, hostReads := s.hostReads, schedule := moves }) ∧
    (s.schedule = .powerOn :: moves → ∃ t, step s = .next t ∧
      { t with poly := s.poly, bufferEpoch := 0, txStream := [], rdRequests := [], rxHeld := [], hostProgram := [],
               hostReads := [], schedule := [] } = { State.reset with poly := s.poly } ∧
      t.txStream = s.txStream ∧ t.rxHeld = s.rxHeld ∧
      ∀ a, t.bufferByte a = Config.bufferDraw (s.bufferEpoch + 1) a)

/-! ### Invariants (10_state.md R37, 41_encoder.md R124, 42_decoder.md R146) -/

/-- The reset state meets the invariants below. -/
def Obligations.ResetMeetsTheInvariants : Prop :=
  Sequenced State.reset ∧ Residues State.reset ∧ StreamCarriesPacket State.reset

/-- R37, R121: every step, of any agent, keeps the relation between the encoder's fields; R33, R41, R110, R141, R144, R146:
and those between the decoder's, RX_RCVD at most RX_LEN and below it while a payload is wanted.  The memory clause of
`Sequenced`, the canonical list, is the model's own, log entry 2 (DESIGN CHOICE). -/
def Obligations.StepKeepsTheUnitsSequenced : Prop :=
  ∀ s t : State, Sequenced s → step s = .next t → Sequenced t

/-- R28, R30, R34: every step keeps TX_CRC the CRC of what was sent, RX_CRC the CRC of what was received, RX_CMD its
first byte, and RX_RESULT true to its meaning. -/
def Obligations.StepKeepsTheResidues : Prop :=
  ∀ s t : State, Sequenced s → Residues s → step s = .next t → Residues t

/-- R61, R123, R127: under every interleaving, the bytes the transport has taken of the packet being sent are the first
TX_SENT bytes of `encode(TX_CMD, TXBUF[0 .. enc_n))`, with its `last` marks. -/
def Obligations.StepKeepsTheStreamOnItsPacket : Prop :=
  ∀ s t : State, Sequenced s → Residues s → StreamCarriesPacket s → step s = .next t → StreamCarriesPacket t

/-- R127, under every interleaving: the step that completes an encode has put the whole packet on the transmit stream, with
its `last` marks, and TX_SENT, TX_LEN and TX_CRC are its own. -/
def Obligations.CompletedEncodeHasSentItsPacket : Prop :=
  ∀ s t : State, Sequenced s → Residues s → StreamCarriesPacket s → s.encState ≠ .idle → step s = .next t →
    t.encDone = true →
    t.encState = .idle ∧
      (∃ before, t.txStream = before ++ markedPacket s.poly s.txCmd (s.txBytes s.encN.toNat)) ∧
      t.txSent.toNat = s.encN.toNat + 5 ∧ t.txLen.toNat = s.encN.toNat + 3 ∧ t.txCmd = s.txCmd ∧
      t.txCrc = crc16 s.poly (s.txCmd :: s.txBytes s.encN.toNat)

/-! ### Whole-machine rules -/

/-- R24: "The error bits 4..6 are cleared by nothing but a STATUS write or reset", and the done bits by those or by their
own unit's acceptance. -/
def Obligations.StickyBitsClearedOnlyAsStated : Prop :=
  ∀ s t : State, step s = .next t →
    ((∃ ms, s.schedule = .reset :: ms) ∨ (∃ ms, s.schedule = .powerOn :: ms) ∨
      (∃ ms v ops, s.schedule = .host :: ms ∧ s.hostProgram = .write .b32 0x004 v :: ops) ∨
      ((s.errIllegal = true → t.errIllegal = true) ∧ (s.errBusy = true → t.errBusy = true) ∧
        (s.errLen = true → t.errLen = true) ∧
        (s.encDone = true → t.encDone = true ∨ (s.encState = .idle ∧ t.encState = .lenHi)) ∧
        (s.decDone = true → t.decDone = true ∨ (s.decState = .idle ∧ t.decState = .len))))

/-- R62, R150: a finished decode is final.  While the decoder is IDLE no step changes an RX_* register or a byte of RXBUF,
other than a step that accepts a DEC, or a reset. -/
def Obligations.FinishedDecodeIsFinal : Prop :=
  ∀ s t : State, s.decState = .idle → step s = .next t → t.decState = .idle →
    (∃ ms, s.schedule = .reset :: ms) ∨ (∃ ms, s.schedule = .powerOn :: ms) ∨
      (t.rxResult = s.rxResult ∧ t.rxLen = s.rxLen ∧ t.rxCmd = s.rxCmd ∧ t.rxDlen = s.rxDlen ∧ t.rxCrc = s.rxCrc ∧
        t.rxRcvd = s.rxRcvd ∧ ∀ k, k < 65536 → t.rxbuf k = s.rxbuf k)

/-- R51, R61: while the encoder is busy no step other than a power-on changes a byte of TXBUF, and none but a reset
changes the packet it is sending.  (That a warm reset leaves every byte is log entry 3, DEDUCED: one reading of
R220.) -/
def Obligations.TxbufHeldWhileEncBusy : Prop :=
  ∀ s t : State, s.encState ≠ .idle → step s = .next t →
    (∃ ms, s.schedule = .powerOn :: ms) ∨
      ((∀ k, k < 65536 → t.txbuf k = s.txbuf k) ∧
        ((∃ ms, s.schedule = .reset :: ms) ∨ (t.txCmd = s.txCmd ∧ t.encN = s.encN ∧ t.txLen = s.txLen)))

/-- R25: CRC_ACC is written only by CRC_CLR, by CRC_BYTE and by reset. -/
def Obligations.CrcAccWrittenOnlyByItsCommands : Prop :=
  ∀ s t : State, step s = .next t → t.crcAcc ≠ s.crcAcc →
    (∃ ms, s.schedule = .reset :: ms) ∨ (∃ ms, s.schedule = .powerOn :: ms) ∨
      ∃ ms w ops i, s.schedule = .host :: ms ∧ s.hostProgram = .write .b32 0x00000 w :: ops ∧
        decode (.word w) = .ok i ∧ (i = .crcClr ∨ ∃ b, i = .crcByte b)

/-- R2, R131, R156: the units share no state.  A transmit move leaves every decoder field, a receive move or a timeout every
encoder field, and neither touches the CRC unit or an error flag. -/
def Obligations.PortMovesStayInTheirUnit : Prop :=
  ∀ (s t : State) (moves : List Move), step s = .next t →
    (s.schedule = .txTake :: moves →
      t = { s with schedule := moves, txCrc := t.txCrc, txSent := t.txSent, encIdx := t.encIdx,
                   encState := t.encState, encDone := t.encDone, txStream := t.txStream }) ∧
    (s.schedule = .rdValid :: moves ∨ s.schedule = .rdTimeout :: moves →
      t = { s with schedule := moves, rxResult := t.rxResult, rxLen := t.rxLen, rxCmd := t.rxCmd, rxDlen := t.rxDlen,
                   rxCrc := t.rxCrc, rxRcvd := t.rxRcvd, decHave := t.decHave, decLhi := t.decLhi,
                   decDone := t.decDone, decState := t.decState, rdRequests := t.rdRequests, mem := t.mem,
                   rxHeld := t.rxHeld } ∧ ∀ k, k < 65536 → t.txbuf k = s.txbuf k)

/-- R123, R207, R221, R237: no step, reset among them, takes back or alters a byte the transport has taken; at most one is
added.  That no step writes `POLY` is log entry 1 (PRESUMED), by which R6's parameter is a field of State; by R101 "no
operation writes" its table. -/
def Obligations.TransmitStreamOnlyGrows : Prop :=
  ∀ s t : State, step s = .next t →
    t.poly = s.poly ∧ ∃ added, t.txStream = s.txStream ++ added ∧ added.length ≤ 1

/-! ### Fair runs (70_reset_and_hazards.md R236) -/

/-- R236, R211: in a run that is weakly fair and whose transport ends every request, the host's next operation is
performed, each decode that runs completes, and so does each encode if, a premise of its own, the transport
takes what stays on offer.  A unit is busy from then until it completes; a reset in between ends it. -/
def Obligations.FairRunsComplete : Prop :=
  ∀ (states : Nat → State) (moves : Nat → Move), FairRun states moves → Sequenced (states 0) → ∀ n,
    ((states n).hostProgram ≠ [] →
      ∃ k, n ≤ k ∧ moves k = .host ∧ (states k).hostProgram = (states n).hostProgram) ∧
    ((states n).decState ≠ .idle →
      ∃ k, n ≤ k ∧ (∀ j, n ≤ j → j ≤ k → (states j).decState ≠ .idle) ∧ (states (k + 1)).decState = .idle ∧
        (moves k = .reset ∨ moves k = .powerOn ∨
          ((states (k + 1)).decDone = true ∧ (states (k + 1)).rxResult ≠ .none))) ∧
    (FairTo states moves .txTake → (states n).encState ≠ .idle →
      ∃ k, n ≤ k ∧ (∀ j, n ≤ j → j ≤ k → (states j).encState ≠ .idle) ∧ (states (k + 1)).encState = .idle ∧
        (moves k = .reset ∨ moves k = .powerOn ∨ (states (k + 1)).encDone = true))

/-! ### Whole packets -/

/-- R127, R126: an accepted ENC `B, N` whose bytes the transport takes puts exactly `encode(B, TXBUF[0 .. N))` on the
transmit stream, with the `last` marks of its two write units, in `N + 5` transfers, and leaves
`TX_SENT = N + 5`, `TX_LEN = N + 3`, `TX_CRC = crc16([B] ‖ d)` and ENC_DONE set. -/
def Obligations.EncodeSendsThePacket : Prop :=
  ∀ (b : Byte) (n : U16) (s s1 : State), s.encState = .idle → n.toNat ≤ 65532 → exec (.enc b n) s = .next s1 →
    ∃ t, runMoves (List.replicate (n.toNat + 5) .txTake) s1 = .next t ∧
      t.txStream = s.txStream ++ markedPacket s.poly b (s.txBytes n.toNat) ∧
      (markedPacket s.poly b (s.txBytes n.toNat)).map TxByte.data = encodePacket s.poly b (s.txBytes n.toNat) ∧
      t.encState = .idle ∧ t.encDone = true ∧ t.txSent.toNat = n.toNat + 5 ∧ t.txLen.toNat = n.toNat + 3 ∧
      t.txCmd = b ∧ t.txCrc = crc16 s.poly (b :: s.txBytes n.toNat) ∧ t.mem = s.mem

/-- R140, R142, R149: from the acceptance of a DEC, delivering the bytes the transport holds, whatever they are, and then
letting it time out leaves in RX_RESULT the outcome of `decode(stream)`, with the bytes `decode` does not read still
held, and with the read requests `decode` makes posted, each once. -/
def Obligations.DecoderComputesDecode : Prop :=
  ∀ (stream : List Byte) (s s1 : State), s.decState = .idle → s.rxHeld = stream → exec .dec s = .next s1 →
    ∃ t, runMoves (List.replicate stream.length .rdValid ++ [.rdTimeout]) s1 = .next t ∧
      t.decState = .idle ∧ t.decDone = true ∧
      t.rxResult = (decodeStream s.poly stream).code ∧ t.rxHeld = stream.drop (decodeConsumes stream) ∧
      t.rdRequests = s.rdRequests ++ decodeRequests stream ∧
      (∀ cmd data, decodeStream s.poly stream = .ok cmd data → t.rxCmd = cmd ∧ t.rxData = data ∧ t.rxCrc = 0) ∧
      (∀ residue, decodeStream s.poly stream = .crcErr residue → t.rxCrc = residue ∧ residue ≠ 0)

/-- R151: `encode(B, d)` with `len(d) <= 65532`, delivered byte for byte to a DEC, ends OK with the original command and
data. -/
def Obligations.DecodeOfEncodeRoundTrip : Prop :=
  ∀ (b : Byte) (d : List Byte) (s s1 : State), d.length ≤ 65532 → s.decState = .idle →
    s.rxHeld = encodePacket s.poly b d → exec .dec s = .next s1 →
    ∃ t, runMoves (List.replicate (d.length + 5) .rdValid) s1 = .next t ∧
      t.rxResult = .ok ∧ t.rxLen.toNat = 3 + d.length ∧ t.rxCmd = b ∧ t.rxDlen.toNat = d.length ∧
      t.rxBytes 1 d.length = d ∧
      t.rxBytes (1 + d.length) 2 = [(crc16 s.poly (b :: d)).extractLsb' 8 8, (crc16 s.poly (b :: d)).extractLsb' 0 8] ∧
      t.rxCrc = 0 ∧ t.rxRcvd.toNat = 3 + d.length ∧ t.decState = .idle ∧ t.decDone = true ∧ t.rxHeld = []
end

