-- ==== Sys2Proof/Laws/Fairness.lean ====
section
/-! SUPPORT. Leaving a condition in an endless run: the first step that does, and, by weak fairness and a measure, that
there is one. -/
namespace Sys2Proof.Machine

/-- What holds at `n` and fails later holds up to some `k` and fails at `k + 1`. -/
theorem first_exit {P : Nat → Prop} {n m : Nat} (hn : P n) (hm : n ≤ m) (hp : ¬ P m) :
    ∃ k, n ≤ k ∧ (∀ j, n ≤ j → j ≤ k → P j) ∧ ¬ P (k + 1) := by
  obtain ⟨d, rfl⟩ := Nat.exists_eq_add_of_le hm
  clear hm
  induction d generalizing n with
  | zero => exact absurd hn hp
  | succ d ih =>
    by_cases h1 : P (n + 1)
    · obtain ⟨k, hk, hall, hx⟩ := ih h1 (by rwa [Nat.add_assoc, Nat.add_comm 1 d])
      refine ⟨k, by omega, fun j hj hjk => ?_, hx⟩
      rcases Nat.eq_or_lt_of_le hj with rfl | hj
      · exact hn
      · exact hall j hj hjk
    · exact ⟨n, le_refl n, fun j h h' => le_antisymm h h' ▸ hn, h1⟩

/-- If a move is enabled while `P` holds, every step within `P` keeps the measure from growing, and that move makes it
smaller, then weak fairness to the move ends `P`. -/
theorem FairTo.exits {states : Nat → State} {moves : Nat → Move} {m : Move} (hf : FairTo states moves m)
    {P : Nat → Prop} {μ : Nat → Nat} (enabled : ∀ k, P k → Enabled (states k) m)
    (measure : ∀ k, P k → P (k + 1) → μ (k + 1) ≤ μ k ∧ (moves k = m → μ (k + 1) < μ k)) {n : Nat} (hn : P n) :
    ∃ k, n ≤ k ∧ (∀ j, n ≤ j → j ≤ k → P j) ∧ ¬ P (k + 1) := by
  by_contra hc
  have hP : ∀ k, n ≤ k → P k := fun k hk => by
    by_contra hp
    exact hc (first_exit hn hk hp)
  have mono : ∀ j k, n ≤ j → j ≤ k → μ k ≤ μ j := fun j k hj hk => by
    induction k, hk using Nat.le_induction with
    | base => exact le_refl _
    | succ k hk ih => exact ((measure k (hP k (by omega)) (hP _ (by omega))).1).trans ih
  have down : ∀ v j, n ≤ j → μ j ≤ v → False := fun v => by
    induction v with
    | zero =>
      intro j hj hv
      obtain ⟨k, hk, e⟩ := hf j fun i hi => enabled i (hP i (by omega))
      have := (measure k (hP k (by omega)) (hP _ (by omega))).2 e
      have := mono j k hj hk
      omega
    | succ v ih =>
      intro j hj hv
      obtain ⟨k, hk, e⟩ := hf j fun i hi => enabled i (hP i (by omega))
      have := (measure k (hP k (by omega)) (hP _ (by omega))).2 e
      have := mono j k hj hk
      exact ih (k + 1) (by omega) (by omega)
  exact down (μ n) n (le_refl n) (le_refl _)

end Sys2Proof.Machine
end

