-- ==== Sys2Proof/Laws/Memory.lean ====
section
/-! SUPPORT. The laws of the buffers: a read after a write, and the canonical form is kept. -/
namespace Sys2Proof.Machine

@[simp] theorem read_write_same (m : Memory) (a : Nat) (b : Byte) : (m.write a b).read? a = some b := by
  induction m with
  | nil => simp [Memory.write, Memory.read?]
  | cons c rest ih =>
    obtain ⟨x, y⟩ := c
    unfold Memory.write
    split
    · simp [Memory.read?]
    · split
      · simp [Memory.read?]
      · simp [Memory.read?, *]

theorem read_write_other (m : Memory) {a z : Nat} (b : Byte) (h : z ≠ a) :
    (m.write a b).read? z = m.read? z := by
  induction m with
  | nil => simp [Memory.write, Memory.read?, h]
  | cons c rest ih =>
    obtain ⟨x, y⟩ := c
    unfold Memory.write
    split
    · simp [Memory.read?, h]
    · split
      · subst x; simp [Memory.read?, h]
      · simp [Memory.read?, ih]

theorem risesFrom_write (m : Memory) {lo a : Nat} (b : Byte) (hm : m.risesFrom lo = true) (ha : lo ≤ a) :
    (m.write a b).risesFrom lo = true := by
  induction m generalizing lo with
  | nil => simpa [Memory.write, Memory.risesFrom] using ha
  | cons c rest ih =>
    obtain ⟨x, y⟩ := c
    simp only [Memory.risesFrom, Bool.and_eq_true, decide_eq_true_eq] at hm
    unfold Memory.write
    split
    · rename_i hax
      simp only [Memory.risesFrom, Bool.and_eq_true, decide_eq_true_eq]
      exact ⟨ha, by omega, hm.2⟩
    · split
      · rename_i hax
        subst hax
        simp [Memory.risesFrom, hm]
      · have hlo : x + 1 ≤ a := by omega
        simp [Memory.risesFrom, hm.1, ih hm.2 hlo]

theorem all_write (m : Memory) (p : Host.Cell → Bool) {a : Nat} {b : Byte} (hm : m.all p = true)
    (hp : p (a, b) = true) : (m.write a b).all p = true := by
  induction m with
  | nil => simpa [Memory.write] using hp
  | cons c rest ih =>
    obtain ⟨x, y⟩ := c
    simp only [List.all_cons, Bool.and_eq_true] at hm
    unfold Memory.write
    split
    · simp [hm, hp]
    · split
      · simp [hm, hp]
      · simp [hm.1, ih hm.2]

/-- Every write inside the buffer windows keeps the canonical form; it is the only operation that changes memory other
than emptying it. -/
theorem write_wf (m : Memory) {a : Nat} (b : Byte) (hm : m.wf = true) (hlo : Config.txbufBase ≤ a)
    (hhi : a < Config.bufferEnd) : (m.write a b).wf = true := by
  simp only [Memory.wf, Bool.and_eq_true] at *
  exact ⟨risesFrom_write m b hm.1 hlo, all_write m _ hm.2 (by simpa using hhi)⟩

theorem nil_wf : Memory.wf [] = true := rfl

@[simp] theorem bufferByte_writeBuffer_same (s : State) (a : Nat) (b : Byte) :
    (s.writeBuffer a b).bufferByte a = b := by
  simp [State.bufferByte, State.writeBuffer]

theorem bufferByte_writeBuffer_other (s : State) {a z : Nat} (b : Byte) (h : z ≠ a) :
    (s.writeBuffer a b).bufferByte z = s.bufferByte z := by
  simp [State.bufferByte, State.writeBuffer, read_write_other _ _ h]

/-- A buffer byte depends on the memory and the power-on count only. -/
theorem bufferByte_congr {s t : State} (hm : t.mem = s.mem) (he : t.bufferEpoch = s.bufferEpoch) (a : Nat) :
    t.bufferByte a = s.bufferByte a := by
  simp [State.bufferByte, hm, he]

/-- What a buffer byte reads as once one byte of the memory has been written. -/
theorem bufferByte_of_write {s t : State} {x : Nat} {b : Byte} (hm : t.mem = s.mem.write x b)
    (he : t.bufferEpoch = s.bufferEpoch) (a : Nat) :
    t.bufferByte a = if a = x then b else s.bufferByte a := by
  by_cases h : a = x
  · subst h; simp [State.bufferByte, hm]
  · simp [State.bufferByte, hm, he, read_write_other _ _ h, h]

end Sys2Proof.Machine
end

