-- ==== Sys2Proof/Laws/State.lean ====
section
/-! SUPPORT. Each field after each named update of the state, one lemma a field (all by rfl). -/
namespace Sys2Proof.Machine

@[simp] theorem writeStatus_poly (v : Word) (s : State) : (writeStatus v s).poly = s.poly := rfl
@[simp] theorem writeStatus_encDone (v : Word) (s : State) : (writeStatus v s).encDone = (s.encDone && !v.getLsbD 2) := rfl
@[simp] theorem writeStatus_decDone (v : Word) (s : State) : (writeStatus v s).decDone = (s.decDone && !v.getLsbD 3) := rfl
@[simp] theorem writeStatus_errIllegal (v : Word) (s : State) : (writeStatus v s).errIllegal = (s.errIllegal && !v.getLsbD 4) := rfl
@[simp] theorem writeStatus_errBusy (v : Word) (s : State) : (writeStatus v s).errBusy = (s.errBusy && !v.getLsbD 5) := rfl
@[simp] theorem writeStatus_errLen (v : Word) (s : State) : (writeStatus v s).errLen = (s.errLen && !v.getLsbD 6) := rfl
@[simp] theorem writeStatus_crcAcc (v : Word) (s : State) : (writeStatus v s).crcAcc = s.crcAcc := rfl
@[simp] theorem writeStatus_txLen (v : Word) (s : State) : (writeStatus v s).txLen = s.txLen := rfl
@[simp] theorem writeStatus_txCmd (v : Word) (s : State) : (writeStatus v s).txCmd = s.txCmd := rfl
@[simp] theorem writeStatus_txCrc (v : Word) (s : State) : (writeStatus v s).txCrc = s.txCrc := rfl
@[simp] theorem writeStatus_txSent (v : Word) (s : State) : (writeStatus v s).txSent = s.txSent := rfl
@[simp] theorem writeStatus_rxResult (v : Word) (s : State) : (writeStatus v s).rxResult = s.rxResult := rfl
@[simp] theorem writeStatus_rxLen (v : Word) (s : State) : (writeStatus v s).rxLen = s.rxLen := rfl
@[simp] theorem writeStatus_rxCmd (v : Word) (s : State) : (writeStatus v s).rxCmd = s.rxCmd := rfl
@[simp] theorem writeStatus_rxDlen (v : Word) (s : State) : (writeStatus v s).rxDlen = s.rxDlen := rfl
@[simp] theorem writeStatus_rxCrc (v : Word) (s : State) : (writeStatus v s).rxCrc = s.rxCrc := rfl
@[simp] theorem writeStatus_rxRcvd (v : Word) (s : State) : (writeStatus v s).rxRcvd = s.rxRcvd := rfl
@[simp] theorem writeStatus_encState (v : Word) (s : State) : (writeStatus v s).encState = s.encState := rfl
@[simp] theorem writeStatus_encN (v : Word) (s : State) : (writeStatus v s).encN = s.encN := rfl
@[simp] theorem writeStatus_encIdx (v : Word) (s : State) : (writeStatus v s).encIdx = s.encIdx := rfl
@[simp] theorem writeStatus_decState (v : Word) (s : State) : (writeStatus v s).decState = s.decState := rfl
@[simp] theorem writeStatus_decHave (v : Word) (s : State) : (writeStatus v s).decHave = s.decHave := rfl
@[simp] theorem writeStatus_decLhi (v : Word) (s : State) : (writeStatus v s).decLhi = s.decLhi := rfl
@[simp] theorem writeStatus_mem (v : Word) (s : State) : (writeStatus v s).mem = s.mem := rfl
@[simp] theorem writeStatus_bufferEpoch (v : Word) (s : State) : (writeStatus v s).bufferEpoch = s.bufferEpoch := rfl
@[simp] theorem writeStatus_txStream (v : Word) (s : State) : (writeStatus v s).txStream = s.txStream := rfl
@[simp] theorem writeStatus_rdRequests (v : Word) (s : State) : (writeStatus v s).rdRequests = s.rdRequests := rfl
@[simp] theorem writeStatus_rxHeld (v : Word) (s : State) : (writeStatus v s).rxHeld = s.rxHeld := rfl
@[simp] theorem writeStatus_hostProgram (v : Word) (s : State) : (writeStatus v s).hostProgram = s.hostProgram := rfl
@[simp] theorem writeStatus_hostReads (v : Word) (s : State) : (writeStatus v s).hostReads = s.hostReads := rfl
@[simp] theorem writeStatus_schedule (v : Word) (s : State) : (writeStatus v s).schedule = s.schedule := rfl

@[simp] theorem rejectIllegal_poly (s : State) : (rejectIllegal s).poly = s.poly := rfl
@[simp] theorem rejectIllegal_encDone (s : State) : (rejectIllegal s).encDone = s.encDone := rfl
@[simp] theorem rejectIllegal_decDone (s : State) : (rejectIllegal s).decDone = s.decDone := rfl
@[simp] theorem rejectIllegal_errIllegal (s : State) : (rejectIllegal s).errIllegal = true := rfl
@[simp] theorem rejectIllegal_errBusy (s : State) : (rejectIllegal s).errBusy = s.errBusy := rfl
@[simp] theorem rejectIllegal_errLen (s : State) : (rejectIllegal s).errLen = s.errLen := rfl
@[simp] theorem rejectIllegal_crcAcc (s : State) : (rejectIllegal s).crcAcc = s.crcAcc := rfl
@[simp] theorem rejectIllegal_txLen (s : State) : (rejectIllegal s).txLen = s.txLen := rfl
@[simp] theorem rejectIllegal_txCmd (s : State) : (rejectIllegal s).txCmd = s.txCmd := rfl
@[simp] theorem rejectIllegal_txCrc (s : State) : (rejectIllegal s).txCrc = s.txCrc := rfl
@[simp] theorem rejectIllegal_txSent (s : State) : (rejectIllegal s).txSent = s.txSent := rfl
@[simp] theorem rejectIllegal_rxResult (s : State) : (rejectIllegal s).rxResult = s.rxResult := rfl
@[simp] theorem rejectIllegal_rxLen (s : State) : (rejectIllegal s).rxLen = s.rxLen := rfl
@[simp] theorem rejectIllegal_rxCmd (s : State) : (rejectIllegal s).rxCmd = s.rxCmd := rfl
@[simp] theorem rejectIllegal_rxDlen (s : State) : (rejectIllegal s).rxDlen = s.rxDlen := rfl
@[simp] theorem rejectIllegal_rxCrc (s : State) : (rejectIllegal s).rxCrc = s.rxCrc := rfl
@[simp] theorem rejectIllegal_rxRcvd (s : State) : (rejectIllegal s).rxRcvd = s.rxRcvd := rfl
@[simp] theorem rejectIllegal_encState (s : State) : (rejectIllegal s).encState = s.encState := rfl
@[simp] theorem rejectIllegal_encN (s : State) : (rejectIllegal s).encN = s.encN := rfl
@[simp] theorem rejectIllegal_encIdx (s : State) : (rejectIllegal s).encIdx = s.encIdx := rfl
@[simp] theorem rejectIllegal_decState (s : State) : (rejectIllegal s).decState = s.decState := rfl
@[simp] theorem rejectIllegal_decHave (s : State) : (rejectIllegal s).decHave = s.decHave := rfl
@[simp] theorem rejectIllegal_decLhi (s : State) : (rejectIllegal s).decLhi = s.decLhi := rfl
@[simp] theorem rejectIllegal_mem (s : State) : (rejectIllegal s).mem = s.mem := rfl
@[simp] theorem rejectIllegal_bufferEpoch (s : State) : (rejectIllegal s).bufferEpoch = s.bufferEpoch := rfl
@[simp] theorem rejectIllegal_txStream (s : State) : (rejectIllegal s).txStream = s.txStream := rfl
@[simp] theorem rejectIllegal_rdRequests (s : State) : (rejectIllegal s).rdRequests = s.rdRequests := rfl
@[simp] theorem rejectIllegal_rxHeld (s : State) : (rejectIllegal s).rxHeld = s.rxHeld := rfl
@[simp] theorem rejectIllegal_hostProgram (s : State) : (rejectIllegal s).hostProgram = s.hostProgram := rfl
@[simp] theorem rejectIllegal_hostReads (s : State) : (rejectIllegal s).hostReads = s.hostReads := rfl
@[simp] theorem rejectIllegal_schedule (s : State) : (rejectIllegal s).schedule = s.schedule := rfl

@[simp] theorem rejectBusy_poly (s : State) : (rejectBusy s).poly = s.poly := rfl
@[simp] theorem rejectBusy_encDone (s : State) : (rejectBusy s).encDone = s.encDone := rfl
@[simp] theorem rejectBusy_decDone (s : State) : (rejectBusy s).decDone = s.decDone := rfl
@[simp] theorem rejectBusy_errIllegal (s : State) : (rejectBusy s).errIllegal = s.errIllegal := rfl
@[simp] theorem rejectBusy_errBusy (s : State) : (rejectBusy s).errBusy = true := rfl
@[simp] theorem rejectBusy_errLen (s : State) : (rejectBusy s).errLen = s.errLen := rfl
@[simp] theorem rejectBusy_crcAcc (s : State) : (rejectBusy s).crcAcc = s.crcAcc := rfl
@[simp] theorem rejectBusy_txLen (s : State) : (rejectBusy s).txLen = s.txLen := rfl
@[simp] theorem rejectBusy_txCmd (s : State) : (rejectBusy s).txCmd = s.txCmd := rfl
@[simp] theorem rejectBusy_txCrc (s : State) : (rejectBusy s).txCrc = s.txCrc := rfl
@[simp] theorem rejectBusy_txSent (s : State) : (rejectBusy s).txSent = s.txSent := rfl
@[simp] theorem rejectBusy_rxResult (s : State) : (rejectBusy s).rxResult = s.rxResult := rfl
@[simp] theorem rejectBusy_rxLen (s : State) : (rejectBusy s).rxLen = s.rxLen := rfl
@[simp] theorem rejectBusy_rxCmd (s : State) : (rejectBusy s).rxCmd = s.rxCmd := rfl
@[simp] theorem rejectBusy_rxDlen (s : State) : (rejectBusy s).rxDlen = s.rxDlen := rfl
@[simp] theorem rejectBusy_rxCrc (s : State) : (rejectBusy s).rxCrc = s.rxCrc := rfl
@[simp] theorem rejectBusy_rxRcvd (s : State) : (rejectBusy s).rxRcvd = s.rxRcvd := rfl
@[simp] theorem rejectBusy_encState (s : State) : (rejectBusy s).encState = s.encState := rfl
@[simp] theorem rejectBusy_encN (s : State) : (rejectBusy s).encN = s.encN := rfl
@[simp] theorem rejectBusy_encIdx (s : State) : (rejectBusy s).encIdx = s.encIdx := rfl
@[simp] theorem rejectBusy_decState (s : State) : (rejectBusy s).decState = s.decState := rfl
@[simp] theorem rejectBusy_decHave (s : State) : (rejectBusy s).decHave = s.decHave := rfl
@[simp] theorem rejectBusy_decLhi (s : State) : (rejectBusy s).decLhi = s.decLhi := rfl
@[simp] theorem rejectBusy_mem (s : State) : (rejectBusy s).mem = s.mem := rfl
@[simp] theorem rejectBusy_bufferEpoch (s : State) : (rejectBusy s).bufferEpoch = s.bufferEpoch := rfl
@[simp] theorem rejectBusy_txStream (s : State) : (rejectBusy s).txStream = s.txStream := rfl
@[simp] theorem rejectBusy_rdRequests (s : State) : (rejectBusy s).rdRequests = s.rdRequests := rfl
@[simp] theorem rejectBusy_rxHeld (s : State) : (rejectBusy s).rxHeld = s.rxHeld := rfl
@[simp] theorem rejectBusy_hostProgram (s : State) : (rejectBusy s).hostProgram = s.hostProgram := rfl
@[simp] theorem rejectBusy_hostReads (s : State) : (rejectBusy s).hostReads = s.hostReads := rfl
@[simp] theorem rejectBusy_schedule (s : State) : (rejectBusy s).schedule = s.schedule := rfl

@[simp] theorem rejectLength_poly (s : State) : (rejectLength s).poly = s.poly := rfl
@[simp] theorem rejectLength_encDone (s : State) : (rejectLength s).encDone = s.encDone := rfl
@[simp] theorem rejectLength_decDone (s : State) : (rejectLength s).decDone = s.decDone := rfl
@[simp] theorem rejectLength_errIllegal (s : State) : (rejectLength s).errIllegal = s.errIllegal := rfl
@[simp] theorem rejectLength_errBusy (s : State) : (rejectLength s).errBusy = s.errBusy := rfl
@[simp] theorem rejectLength_errLen (s : State) : (rejectLength s).errLen = true := rfl
@[simp] theorem rejectLength_crcAcc (s : State) : (rejectLength s).crcAcc = s.crcAcc := rfl
@[simp] theorem rejectLength_txLen (s : State) : (rejectLength s).txLen = s.txLen := rfl
@[simp] theorem rejectLength_txCmd (s : State) : (rejectLength s).txCmd = s.txCmd := rfl
@[simp] theorem rejectLength_txCrc (s : State) : (rejectLength s).txCrc = s.txCrc := rfl
@[simp] theorem rejectLength_txSent (s : State) : (rejectLength s).txSent = s.txSent := rfl
@[simp] theorem rejectLength_rxResult (s : State) : (rejectLength s).rxResult = s.rxResult := rfl
@[simp] theorem rejectLength_rxLen (s : State) : (rejectLength s).rxLen = s.rxLen := rfl
@[simp] theorem rejectLength_rxCmd (s : State) : (rejectLength s).rxCmd = s.rxCmd := rfl
@[simp] theorem rejectLength_rxDlen (s : State) : (rejectLength s).rxDlen = s.rxDlen := rfl
@[simp] theorem rejectLength_rxCrc (s : State) : (rejectLength s).rxCrc = s.rxCrc := rfl
@[simp] theorem rejectLength_rxRcvd (s : State) : (rejectLength s).rxRcvd = s.rxRcvd := rfl
@[simp] theorem rejectLength_encState (s : State) : (rejectLength s).encState = s.encState := rfl
@[simp] theorem rejectLength_encN (s : State) : (rejectLength s).encN = s.encN := rfl
@[simp] theorem rejectLength_encIdx (s : State) : (rejectLength s).encIdx = s.encIdx := rfl
@[simp] theorem rejectLength_decState (s : State) : (rejectLength s).decState = s.decState := rfl
@[simp] theorem rejectLength_decHave (s : State) : (rejectLength s).decHave = s.decHave := rfl
@[simp] theorem rejectLength_decLhi (s : State) : (rejectLength s).decLhi = s.decLhi := rfl
@[simp] theorem rejectLength_mem (s : State) : (rejectLength s).mem = s.mem := rfl
@[simp] theorem rejectLength_bufferEpoch (s : State) : (rejectLength s).bufferEpoch = s.bufferEpoch := rfl
@[simp] theorem rejectLength_txStream (s : State) : (rejectLength s).txStream = s.txStream := rfl
@[simp] theorem rejectLength_rdRequests (s : State) : (rejectLength s).rdRequests = s.rdRequests := rfl
@[simp] theorem rejectLength_rxHeld (s : State) : (rejectLength s).rxHeld = s.rxHeld := rfl
@[simp] theorem rejectLength_hostProgram (s : State) : (rejectLength s).hostProgram = s.hostProgram := rfl
@[simp] theorem rejectLength_hostReads (s : State) : (rejectLength s).hostReads = s.hostReads := rfl
@[simp] theorem rejectLength_schedule (s : State) : (rejectLength s).schedule = s.schedule := rfl

@[simp] theorem writeBuffer_poly (s : State) (a : Nat) (b : Byte) : (s.writeBuffer a b).poly = s.poly := rfl
@[simp] theorem writeBuffer_encDone (s : State) (a : Nat) (b : Byte) : (s.writeBuffer a b).encDone = s.encDone := rfl
@[simp] theorem writeBuffer_decDone (s : State) (a : Nat) (b : Byte) : (s.writeBuffer a b).decDone = s.decDone := rfl
@[simp] theorem writeBuffer_errIllegal (s : State) (a : Nat) (b : Byte) : (s.writeBuffer a b).errIllegal = s.errIllegal := rfl
@[simp] theorem writeBuffer_errBusy (s : State) (a : Nat) (b : Byte) : (s.writeBuffer a b).errBusy = s.errBusy := rfl
@[simp] theorem writeBuffer_errLen (s : State) (a : Nat) (b : Byte) : (s.writeBuffer a b).errLen = s.errLen := rfl
@[simp] theorem writeBuffer_crcAcc (s : State) (a : Nat) (b : Byte) : (s.writeBuffer a b).crcAcc = s.crcAcc := rfl
@[simp] theorem writeBuffer_txLen (s : State) (a : Nat) (b : Byte) : (s.writeBuffer a b).txLen = s.txLen := rfl
@[simp] theorem writeBuffer_txCmd (s : State) (a : Nat) (b : Byte) : (s.writeBuffer a b).txCmd = s.txCmd := rfl
@[simp] theorem writeBuffer_txCrc (s : State) (a : Nat) (b : Byte) : (s.writeBuffer a b).txCrc = s.txCrc := rfl
@[simp] theorem writeBuffer_txSent (s : State) (a : Nat) (b : Byte) : (s.writeBuffer a b).txSent = s.txSent := rfl
@[simp] theorem writeBuffer_rxResult (s : State) (a : Nat) (b : Byte) : (s.writeBuffer a b).rxResult = s.rxResult := rfl
@[simp] theorem writeBuffer_rxLen (s : State) (a : Nat) (b : Byte) : (s.writeBuffer a b).rxLen = s.rxLen := rfl
@[simp] theorem writeBuffer_rxCmd (s : State) (a : Nat) (b : Byte) : (s.writeBuffer a b).rxCmd = s.rxCmd := rfl
@[simp] theorem writeBuffer_rxDlen (s : State) (a : Nat) (b : Byte) : (s.writeBuffer a b).rxDlen = s.rxDlen := rfl
@[simp] theorem writeBuffer_rxCrc (s : State) (a : Nat) (b : Byte) : (s.writeBuffer a b).rxCrc = s.rxCrc := rfl
@[simp] theorem writeBuffer_rxRcvd (s : State) (a : Nat) (b : Byte) : (s.writeBuffer a b).rxRcvd = s.rxRcvd := rfl
@[simp] theorem writeBuffer_encState (s : State) (a : Nat) (b : Byte) : (s.writeBuffer a b).encState = s.encState := rfl
@[simp] theorem writeBuffer_encN (s : State) (a : Nat) (b : Byte) : (s.writeBuffer a b).encN = s.encN := rfl
@[simp] theorem writeBuffer_encIdx (s : State) (a : Nat) (b : Byte) : (s.writeBuffer a b).encIdx = s.encIdx := rfl
@[simp] theorem writeBuffer_decState (s : State) (a : Nat) (b : Byte) : (s.writeBuffer a b).decState = s.decState := rfl
@[simp] theorem writeBuffer_decHave (s : State) (a : Nat) (b : Byte) : (s.writeBuffer a b).decHave = s.decHave := rfl
@[simp] theorem writeBuffer_decLhi (s : State) (a : Nat) (b : Byte) : (s.writeBuffer a b).decLhi = s.decLhi := rfl
@[simp] theorem writeBuffer_mem (s : State) (a : Nat) (b : Byte) : (s.writeBuffer a b).mem = s.mem.write a b := rfl
@[simp] theorem writeBuffer_bufferEpoch (s : State) (a : Nat) (b : Byte) : (s.writeBuffer a b).bufferEpoch = s.bufferEpoch := rfl
@[simp] theorem writeBuffer_txStream (s : State) (a : Nat) (b : Byte) : (s.writeBuffer a b).txStream = s.txStream := rfl
@[simp] theorem writeBuffer_rdRequests (s : State) (a : Nat) (b : Byte) : (s.writeBuffer a b).rdRequests = s.rdRequests := rfl
@[simp] theorem writeBuffer_rxHeld (s : State) (a : Nat) (b : Byte) : (s.writeBuffer a b).rxHeld = s.rxHeld := rfl
@[simp] theorem writeBuffer_hostProgram (s : State) (a : Nat) (b : Byte) : (s.writeBuffer a b).hostProgram = s.hostProgram := rfl
@[simp] theorem writeBuffer_hostReads (s : State) (a : Nat) (b : Byte) : (s.writeBuffer a b).hostReads = s.hostReads := rfl
@[simp] theorem writeBuffer_schedule (s : State) (a : Nat) (b : Byte) : (s.writeBuffer a b).schedule = s.schedule := rfl

@[simp] theorem emit_poly (x : TxByte) (s : State) : (emit x s).poly = s.poly := rfl
@[simp] theorem emit_encDone (x : TxByte) (s : State) : (emit x s).encDone = s.encDone := rfl
@[simp] theorem emit_decDone (x : TxByte) (s : State) : (emit x s).decDone = s.decDone := rfl
@[simp] theorem emit_errIllegal (x : TxByte) (s : State) : (emit x s).errIllegal = s.errIllegal := rfl
@[simp] theorem emit_errBusy (x : TxByte) (s : State) : (emit x s).errBusy = s.errBusy := rfl
@[simp] theorem emit_errLen (x : TxByte) (s : State) : (emit x s).errLen = s.errLen := rfl
@[simp] theorem emit_crcAcc (x : TxByte) (s : State) : (emit x s).crcAcc = s.crcAcc := rfl
@[simp] theorem emit_txLen (x : TxByte) (s : State) : (emit x s).txLen = s.txLen := rfl
@[simp] theorem emit_txCmd (x : TxByte) (s : State) : (emit x s).txCmd = s.txCmd := rfl
@[simp] theorem emit_txCrc (x : TxByte) (s : State) : (emit x s).txCrc = s.txCrc := rfl
@[simp] theorem emit_txSent (x : TxByte) (s : State) : (emit x s).txSent = s.txSent + 1 := rfl
@[simp] theorem emit_rxResult (x : TxByte) (s : State) : (emit x s).rxResult = s.rxResult := rfl
@[simp] theorem emit_rxLen (x : TxByte) (s : State) : (emit x s).rxLen = s.rxLen := rfl
@[simp] theorem emit_rxCmd (x : TxByte) (s : State) : (emit x s).rxCmd = s.rxCmd := rfl
@[simp] theorem emit_rxDlen (x : TxByte) (s : State) : (emit x s).rxDlen = s.rxDlen := rfl
@[simp] theorem emit_rxCrc (x : TxByte) (s : State) : (emit x s).rxCrc = s.rxCrc := rfl
@[simp] theorem emit_rxRcvd (x : TxByte) (s : State) : (emit x s).rxRcvd = s.rxRcvd := rfl
@[simp] theorem emit_encState (x : TxByte) (s : State) : (emit x s).encState = s.encState := rfl
@[simp] theorem emit_encN (x : TxByte) (s : State) : (emit x s).encN = s.encN := rfl
@[simp] theorem emit_encIdx (x : TxByte) (s : State) : (emit x s).encIdx = s.encIdx := rfl
@[simp] theorem emit_decState (x : TxByte) (s : State) : (emit x s).decState = s.decState := rfl
@[simp] theorem emit_decHave (x : TxByte) (s : State) : (emit x s).decHave = s.decHave := rfl
@[simp] theorem emit_decLhi (x : TxByte) (s : State) : (emit x s).decLhi = s.decLhi := rfl
@[simp] theorem emit_mem (x : TxByte) (s : State) : (emit x s).mem = s.mem := rfl
@[simp] theorem emit_bufferEpoch (x : TxByte) (s : State) : (emit x s).bufferEpoch = s.bufferEpoch := rfl
@[simp] theorem emit_txStream (x : TxByte) (s : State) : (emit x s).txStream = s.txStream ++ [x] := rfl
@[simp] theorem emit_rdRequests (x : TxByte) (s : State) : (emit x s).rdRequests = s.rdRequests := rfl
@[simp] theorem emit_rxHeld (x : TxByte) (s : State) : (emit x s).rxHeld = s.rxHeld := rfl
@[simp] theorem emit_hostProgram (x : TxByte) (s : State) : (emit x s).hostProgram = s.hostProgram := rfl
@[simp] theorem emit_hostReads (x : TxByte) (s : State) : (emit x s).hostReads = s.hostReads := rfl
@[simp] theorem emit_schedule (x : TxByte) (s : State) : (emit x s).schedule = s.schedule := rfl

@[simp] theorem request_poly (n : U16) (s : State) : (request n s).poly = s.poly := rfl
@[simp] theorem request_encDone (n : U16) (s : State) : (request n s).encDone = s.encDone := rfl
@[simp] theorem request_decDone (n : U16) (s : State) : (request n s).decDone = s.decDone := rfl
@[simp] theorem request_errIllegal (n : U16) (s : State) : (request n s).errIllegal = s.errIllegal := rfl
@[simp] theorem request_errBusy (n : U16) (s : State) : (request n s).errBusy = s.errBusy := rfl
@[simp] theorem request_errLen (n : U16) (s : State) : (request n s).errLen = s.errLen := rfl
@[simp] theorem request_crcAcc (n : U16) (s : State) : (request n s).crcAcc = s.crcAcc := rfl
@[simp] theorem request_txLen (n : U16) (s : State) : (request n s).txLen = s.txLen := rfl
@[simp] theorem request_txCmd (n : U16) (s : State) : (request n s).txCmd = s.txCmd := rfl
@[simp] theorem request_txCrc (n : U16) (s : State) : (request n s).txCrc = s.txCrc := rfl
@[simp] theorem request_txSent (n : U16) (s : State) : (request n s).txSent = s.txSent := rfl
@[simp] theorem request_rxResult (n : U16) (s : State) : (request n s).rxResult = s.rxResult := rfl
@[simp] theorem request_rxLen (n : U16) (s : State) : (request n s).rxLen = s.rxLen := rfl
@[simp] theorem request_rxCmd (n : U16) (s : State) : (request n s).rxCmd = s.rxCmd := rfl
@[simp] theorem request_rxDlen (n : U16) (s : State) : (request n s).rxDlen = s.rxDlen := rfl
@[simp] theorem request_rxCrc (n : U16) (s : State) : (request n s).rxCrc = s.rxCrc := rfl
@[simp] theorem request_rxRcvd (n : U16) (s : State) : (request n s).rxRcvd = s.rxRcvd := rfl
@[simp] theorem request_encState (n : U16) (s : State) : (request n s).encState = s.encState := rfl
@[simp] theorem request_encN (n : U16) (s : State) : (request n s).encN = s.encN := rfl
@[simp] theorem request_encIdx (n : U16) (s : State) : (request n s).encIdx = s.encIdx := rfl
@[simp] theorem request_decState (n : U16) (s : State) : (request n s).decState = s.decState := rfl
@[simp] theorem request_decHave (n : U16) (s : State) : (request n s).decHave = s.decHave := rfl
@[simp] theorem request_decLhi (n : U16) (s : State) : (request n s).decLhi = s.decLhi := rfl
@[simp] theorem request_mem (n : U16) (s : State) : (request n s).mem = s.mem := rfl
@[simp] theorem request_bufferEpoch (n : U16) (s : State) : (request n s).bufferEpoch = s.bufferEpoch := rfl
@[simp] theorem request_txStream (n : U16) (s : State) : (request n s).txStream = s.txStream := rfl
@[simp] theorem request_rdRequests (n : U16) (s : State) : (request n s).rdRequests = s.rdRequests ++ [n] := rfl
@[simp] theorem request_rxHeld (n : U16) (s : State) : (request n s).rxHeld = s.rxHeld := rfl
@[simp] theorem request_hostProgram (n : U16) (s : State) : (request n s).hostProgram = s.hostProgram := rfl
@[simp] theorem request_hostReads (n : U16) (s : State) : (request n s).hostReads = s.hostReads := rfl
@[simp] theorem request_schedule (n : U16) (s : State) : (request n s).schedule = s.schedule := rfl

@[simp] theorem finish_poly (r : RxResult) (s : State) : (finish r s).poly = s.poly := rfl
@[simp] theorem finish_encDone (r : RxResult) (s : State) : (finish r s).encDone = s.encDone := rfl
@[simp] theorem finish_decDone (r : RxResult) (s : State) : (finish r s).decDone = true := rfl
@[simp] theorem finish_errIllegal (r : RxResult) (s : State) : (finish r s).errIllegal = s.errIllegal := rfl
@[simp] theorem finish_errBusy (r : RxResult) (s : State) : (finish r s).errBusy = s.errBusy := rfl
@[simp] theorem finish_errLen (r : RxResult) (s : State) : (finish r s).errLen = s.errLen := rfl
@[simp] theorem finish_crcAcc (r : RxResult) (s : State) : (finish r s).crcAcc = s.crcAcc := rfl
@[simp] theorem finish_txLen (r : RxResult) (s : State) : (finish r s).txLen = s.txLen := rfl
@[simp] theorem finish_txCmd (r : RxResult) (s : State) : (finish r s).txCmd = s.txCmd := rfl
@[simp] theorem finish_txCrc (r : RxResult) (s : State) : (finish r s).txCrc = s.txCrc := rfl
@[simp] theorem finish_txSent (r : RxResult) (s : State) : (finish r s).txSent = s.txSent := rfl
@[simp] theorem finish_rxResult (r : RxResult) (s : State) : (finish r s).rxResult = r := rfl
@[simp] theorem finish_rxLen (r : RxResult) (s : State) : (finish r s).rxLen = s.rxLen := rfl
@[simp] theorem finish_rxCmd (r : RxResult) (s : State) : (finish r s).rxCmd = s.rxCmd := rfl
@[simp] theorem finish_rxDlen (r : RxResult) (s : State) : (finish r s).rxDlen = s.rxDlen := rfl
@[simp] theorem finish_rxCrc (r : RxResult) (s : State) : (finish r s).rxCrc = s.rxCrc := rfl
@[simp] theorem finish_rxRcvd (r : RxResult) (s : State) : (finish r s).rxRcvd = s.rxRcvd := rfl
@[simp] theorem finish_encState (r : RxResult) (s : State) : (finish r s).encState = s.encState := rfl
@[simp] theorem finish_encN (r : RxResult) (s : State) : (finish r s).encN = s.encN := rfl
@[simp] theorem finish_encIdx (r : RxResult) (s : State) : (finish r s).encIdx = s.encIdx := rfl
@[simp] theorem finish_decState (r : RxResult) (s : State) : (finish r s).decState = .idle := rfl
@[simp] theorem finish_decHave (r : RxResult) (s : State) : (finish r s).decHave = s.decHave := rfl
@[simp] theorem finish_decLhi (r : RxResult) (s : State) : (finish r s).decLhi = s.decLhi := rfl
@[simp] theorem finish_mem (r : RxResult) (s : State) : (finish r s).mem = s.mem := rfl
@[simp] theorem finish_bufferEpoch (r : RxResult) (s : State) : (finish r s).bufferEpoch = s.bufferEpoch := rfl
@[simp] theorem finish_txStream (r : RxResult) (s : State) : (finish r s).txStream = s.txStream := rfl
@[simp] theorem finish_rdRequests (r : RxResult) (s : State) : (finish r s).rdRequests = s.rdRequests := rfl
@[simp] theorem finish_rxHeld (r : RxResult) (s : State) : (finish r s).rxHeld = s.rxHeld := rfl
@[simp] theorem finish_hostProgram (r : RxResult) (s : State) : (finish r s).hostProgram = s.hostProgram := rfl
@[simp] theorem finish_hostReads (r : RxResult) (s : State) : (finish r s).hostReads = s.hostReads := rfl
@[simp] theorem finish_schedule (r : RxResult) (s : State) : (finish r s).schedule = s.schedule := rfl

@[simp] theorem receiveFirst_poly (b : Byte) (s : State) : (receiveFirst b s).poly = s.poly := rfl
@[simp] theorem receiveFirst_encDone (b : Byte) (s : State) : (receiveFirst b s).encDone = s.encDone := rfl
@[simp] theorem receiveFirst_decDone (b : Byte) (s : State) : (receiveFirst b s).decDone = s.decDone := rfl
@[simp] theorem receiveFirst_errIllegal (b : Byte) (s : State) : (receiveFirst b s).errIllegal = s.errIllegal := rfl
@[simp] theorem receiveFirst_errBusy (b : Byte) (s : State) : (receiveFirst b s).errBusy = s.errBusy := rfl
@[simp] theorem receiveFirst_errLen (b : Byte) (s : State) : (receiveFirst b s).errLen = s.errLen := rfl
@[simp] theorem receiveFirst_crcAcc (b : Byte) (s : State) : (receiveFirst b s).crcAcc = s.crcAcc := rfl
@[simp] theorem receiveFirst_txLen (b : Byte) (s : State) : (receiveFirst b s).txLen = s.txLen := rfl
@[simp] theorem receiveFirst_txCmd (b : Byte) (s : State) : (receiveFirst b s).txCmd = s.txCmd := rfl
@[simp] theorem receiveFirst_txCrc (b : Byte) (s : State) : (receiveFirst b s).txCrc = s.txCrc := rfl
@[simp] theorem receiveFirst_txSent (b : Byte) (s : State) : (receiveFirst b s).txSent = s.txSent := rfl
@[simp] theorem receiveFirst_rxResult (b : Byte) (s : State) : (receiveFirst b s).rxResult = s.rxResult := rfl
@[simp] theorem receiveFirst_rxLen (b : Byte) (s : State) : (receiveFirst b s).rxLen = s.rxLen := rfl
@[simp] theorem receiveFirst_rxCmd (b : Byte) (s : State) : (receiveFirst b s).rxCmd = s.rxCmd := rfl
@[simp] theorem receiveFirst_rxDlen (b : Byte) (s : State) : (receiveFirst b s).rxDlen = s.rxDlen := rfl
@[simp] theorem receiveFirst_rxCrc (b : Byte) (s : State) : (receiveFirst b s).rxCrc = s.rxCrc := rfl
@[simp] theorem receiveFirst_rxRcvd (b : Byte) (s : State) : (receiveFirst b s).rxRcvd = s.rxRcvd := rfl
@[simp] theorem receiveFirst_encState (b : Byte) (s : State) : (receiveFirst b s).encState = s.encState := rfl
@[simp] theorem receiveFirst_encN (b : Byte) (s : State) : (receiveFirst b s).encN = s.encN := rfl
@[simp] theorem receiveFirst_encIdx (b : Byte) (s : State) : (receiveFirst b s).encIdx = s.encIdx := rfl
@[simp] theorem receiveFirst_decState (b : Byte) (s : State) : (receiveFirst b s).decState = s.decState := rfl
@[simp] theorem receiveFirst_decHave (b : Byte) (s : State) : (receiveFirst b s).decHave = 1 := rfl
@[simp] theorem receiveFirst_decLhi (b : Byte) (s : State) : (receiveFirst b s).decLhi = b := rfl
@[simp] theorem receiveFirst_mem (b : Byte) (s : State) : (receiveFirst b s).mem = s.mem := rfl
@[simp] theorem receiveFirst_bufferEpoch (b : Byte) (s : State) : (receiveFirst b s).bufferEpoch = s.bufferEpoch := rfl
@[simp] theorem receiveFirst_txStream (b : Byte) (s : State) : (receiveFirst b s).txStream = s.txStream := rfl
@[simp] theorem receiveFirst_rdRequests (b : Byte) (s : State) : (receiveFirst b s).rdRequests = s.rdRequests := rfl
@[simp] theorem receiveFirst_rxHeld (b : Byte) (s : State) : (receiveFirst b s).rxHeld = s.rxHeld := rfl
@[simp] theorem receiveFirst_hostProgram (b : Byte) (s : State) : (receiveFirst b s).hostProgram = s.hostProgram := rfl
@[simp] theorem receiveFirst_hostReads (b : Byte) (s : State) : (receiveFirst b s).hostReads = s.hostReads := rfl
@[simp] theorem receiveFirst_schedule (b : Byte) (s : State) : (receiveFirst b s).schedule = s.schedule := rfl

@[simp] theorem storePayload_poly (b : Byte) (s : State) : (storePayload b s).poly = s.poly := rfl
@[simp] theorem storePayload_encDone (b : Byte) (s : State) : (storePayload b s).encDone = s.encDone := rfl
@[simp] theorem storePayload_decDone (b : Byte) (s : State) : (storePayload b s).decDone = s.decDone := rfl
@[simp] theorem storePayload_errIllegal (b : Byte) (s : State) : (storePayload b s).errIllegal = s.errIllegal := rfl
@[simp] theorem storePayload_errBusy (b : Byte) (s : State) : (storePayload b s).errBusy = s.errBusy := rfl
@[simp] theorem storePayload_errLen (b : Byte) (s : State) : (storePayload b s).errLen = s.errLen := rfl
@[simp] theorem storePayload_crcAcc (b : Byte) (s : State) : (storePayload b s).crcAcc = s.crcAcc := rfl
@[simp] theorem storePayload_txLen (b : Byte) (s : State) : (storePayload b s).txLen = s.txLen := rfl
@[simp] theorem storePayload_txCmd (b : Byte) (s : State) : (storePayload b s).txCmd = s.txCmd := rfl
@[simp] theorem storePayload_txCrc (b : Byte) (s : State) : (storePayload b s).txCrc = s.txCrc := rfl
@[simp] theorem storePayload_txSent (b : Byte) (s : State) : (storePayload b s).txSent = s.txSent := rfl
@[simp] theorem storePayload_rxResult (b : Byte) (s : State) : (storePayload b s).rxResult = s.rxResult := rfl
@[simp] theorem storePayload_rxLen (b : Byte) (s : State) : (storePayload b s).rxLen = s.rxLen := rfl
@[simp] theorem storePayload_rxCmd (b : Byte) (s : State) : (storePayload b s).rxCmd = (if s.rxRcvd = 0 then b else s.rxCmd) := rfl
@[simp] theorem storePayload_rxDlen (b : Byte) (s : State) : (storePayload b s).rxDlen = s.rxDlen := rfl
@[simp] theorem storePayload_rxCrc (b : Byte) (s : State) : (storePayload b s).rxCrc = crcStep s.poly s.rxCrc b := rfl
@[simp] theorem storePayload_rxRcvd (b : Byte) (s : State) : (storePayload b s).rxRcvd = s.rxRcvd + 1 := rfl
@[simp] theorem storePayload_encState (b : Byte) (s : State) : (storePayload b s).encState = s.encState := rfl
@[simp] theorem storePayload_encN (b : Byte) (s : State) : (storePayload b s).encN = s.encN := rfl
@[simp] theorem storePayload_encIdx (b : Byte) (s : State) : (storePayload b s).encIdx = s.encIdx := rfl
@[simp] theorem storePayload_decState (b : Byte) (s : State) : (storePayload b s).decState = s.decState := rfl
@[simp] theorem storePayload_decHave (b : Byte) (s : State) : (storePayload b s).decHave = s.decHave := rfl
@[simp] theorem storePayload_decLhi (b : Byte) (s : State) : (storePayload b s).decLhi = s.decLhi := rfl
@[simp] theorem storePayload_mem (b : Byte) (s : State) : (storePayload b s).mem = s.mem.write (Config.rxbufBase + s.rxRcvd.toNat) b := rfl
@[simp] theorem storePayload_bufferEpoch (b : Byte) (s : State) : (storePayload b s).bufferEpoch = s.bufferEpoch := rfl
@[simp] theorem storePayload_txStream (b : Byte) (s : State) : (storePayload b s).txStream = s.txStream := rfl
@[simp] theorem storePayload_rdRequests (b : Byte) (s : State) : (storePayload b s).rdRequests = s.rdRequests := rfl
@[simp] theorem storePayload_rxHeld (b : Byte) (s : State) : (storePayload b s).rxHeld = s.rxHeld := rfl
@[simp] theorem storePayload_hostProgram (b : Byte) (s : State) : (storePayload b s).hostProgram = s.hostProgram := rfl
@[simp] theorem storePayload_hostReads (b : Byte) (s : State) : (storePayload b s).hostReads = s.hostReads := rfl
@[simp] theorem storePayload_schedule (b : Byte) (s : State) : (storePayload b s).schedule = s.schedule := rfl

@[simp] theorem linkArrival_poly (b : Byte) (s : State) : (linkArrival b s).poly = s.poly := rfl
@[simp] theorem linkArrival_encDone (b : Byte) (s : State) : (linkArrival b s).encDone = s.encDone := rfl
@[simp] theorem linkArrival_decDone (b : Byte) (s : State) : (linkArrival b s).decDone = s.decDone := rfl
@[simp] theorem linkArrival_errIllegal (b : Byte) (s : State) : (linkArrival b s).errIllegal = s.errIllegal := rfl
@[simp] theorem linkArrival_errBusy (b : Byte) (s : State) : (linkArrival b s).errBusy = s.errBusy := rfl
@[simp] theorem linkArrival_errLen (b : Byte) (s : State) : (linkArrival b s).errLen = s.errLen := rfl
@[simp] theorem linkArrival_crcAcc (b : Byte) (s : State) : (linkArrival b s).crcAcc = s.crcAcc := rfl
@[simp] theorem linkArrival_txLen (b : Byte) (s : State) : (linkArrival b s).txLen = s.txLen := rfl
@[simp] theorem linkArrival_txCmd (b : Byte) (s : State) : (linkArrival b s).txCmd = s.txCmd := rfl
@[simp] theorem linkArrival_txCrc (b : Byte) (s : State) : (linkArrival b s).txCrc = s.txCrc := rfl
@[simp] theorem linkArrival_txSent (b : Byte) (s : State) : (linkArrival b s).txSent = s.txSent := rfl
@[simp] theorem linkArrival_rxResult (b : Byte) (s : State) : (linkArrival b s).rxResult = s.rxResult := rfl
@[simp] theorem linkArrival_rxLen (b : Byte) (s : State) : (linkArrival b s).rxLen = s.rxLen := rfl
@[simp] theorem linkArrival_rxCmd (b : Byte) (s : State) : (linkArrival b s).rxCmd = s.rxCmd := rfl
@[simp] theorem linkArrival_rxDlen (b : Byte) (s : State) : (linkArrival b s).rxDlen = s.rxDlen := rfl
@[simp] theorem linkArrival_rxCrc (b : Byte) (s : State) : (linkArrival b s).rxCrc = s.rxCrc := rfl
@[simp] theorem linkArrival_rxRcvd (b : Byte) (s : State) : (linkArrival b s).rxRcvd = s.rxRcvd := rfl
@[simp] theorem linkArrival_encState (b : Byte) (s : State) : (linkArrival b s).encState = s.encState := rfl
@[simp] theorem linkArrival_encN (b : Byte) (s : State) : (linkArrival b s).encN = s.encN := rfl
@[simp] theorem linkArrival_encIdx (b : Byte) (s : State) : (linkArrival b s).encIdx = s.encIdx := rfl
@[simp] theorem linkArrival_decState (b : Byte) (s : State) : (linkArrival b s).decState = s.decState := rfl
@[simp] theorem linkArrival_decHave (b : Byte) (s : State) : (linkArrival b s).decHave = s.decHave := rfl
@[simp] theorem linkArrival_decLhi (b : Byte) (s : State) : (linkArrival b s).decLhi = s.decLhi := rfl
@[simp] theorem linkArrival_mem (b : Byte) (s : State) : (linkArrival b s).mem = s.mem := rfl
@[simp] theorem linkArrival_bufferEpoch (b : Byte) (s : State) : (linkArrival b s).bufferEpoch = s.bufferEpoch := rfl
@[simp] theorem linkArrival_txStream (b : Byte) (s : State) : (linkArrival b s).txStream = s.txStream := rfl
@[simp] theorem linkArrival_rdRequests (b : Byte) (s : State) : (linkArrival b s).rdRequests = s.rdRequests := rfl
@[simp] theorem linkArrival_rxHeld (b : Byte) (s : State) : (linkArrival b s).rxHeld = s.rxHeld ++ [b] := rfl
@[simp] theorem linkArrival_hostProgram (b : Byte) (s : State) : (linkArrival b s).hostProgram = s.hostProgram := rfl
@[simp] theorem linkArrival_hostReads (b : Byte) (s : State) : (linkArrival b s).hostReads = s.hostReads := rfl
@[simp] theorem linkArrival_schedule (b : Byte) (s : State) : (linkArrival b s).schedule = s.schedule := rfl

@[simp] theorem logRead_poly (w : Width) (a : Addr) (v : Word) (s : State) : (logRead w a v s).poly = s.poly := rfl
@[simp] theorem logRead_encDone (w : Width) (a : Addr) (v : Word) (s : State) : (logRead w a v s).encDone = s.encDone := rfl
@[simp] theorem logRead_decDone (w : Width) (a : Addr) (v : Word) (s : State) : (logRead w a v s).decDone = s.decDone := rfl
@[simp] theorem logRead_errIllegal (w : Width) (a : Addr) (v : Word) (s : State) : (logRead w a v s).errIllegal = s.errIllegal := rfl
@[simp] theorem logRead_errBusy (w : Width) (a : Addr) (v : Word) (s : State) : (logRead w a v s).errBusy = s.errBusy := rfl
@[simp] theorem logRead_errLen (w : Width) (a : Addr) (v : Word) (s : State) : (logRead w a v s).errLen = s.errLen := rfl
@[simp] theorem logRead_crcAcc (w : Width) (a : Addr) (v : Word) (s : State) : (logRead w a v s).crcAcc = s.crcAcc := rfl
@[simp] theorem logRead_txLen (w : Width) (a : Addr) (v : Word) (s : State) : (logRead w a v s).txLen = s.txLen := rfl
@[simp] theorem logRead_txCmd (w : Width) (a : Addr) (v : Word) (s : State) : (logRead w a v s).txCmd = s.txCmd := rfl
@[simp] theorem logRead_txCrc (w : Width) (a : Addr) (v : Word) (s : State) : (logRead w a v s).txCrc = s.txCrc := rfl
@[simp] theorem logRead_txSent (w : Width) (a : Addr) (v : Word) (s : State) : (logRead w a v s).txSent = s.txSent := rfl
@[simp] theorem logRead_rxResult (w : Width) (a : Addr) (v : Word) (s : State) : (logRead w a v s).rxResult = s.rxResult := rfl
@[simp] theorem logRead_rxLen (w : Width) (a : Addr) (v : Word) (s : State) : (logRead w a v s).rxLen = s.rxLen := rfl
@[simp] theorem logRead_rxCmd (w : Width) (a : Addr) (v : Word) (s : State) : (logRead w a v s).rxCmd = s.rxCmd := rfl
@[simp] theorem logRead_rxDlen (w : Width) (a : Addr) (v : Word) (s : State) : (logRead w a v s).rxDlen = s.rxDlen := rfl
@[simp] theorem logRead_rxCrc (w : Width) (a : Addr) (v : Word) (s : State) : (logRead w a v s).rxCrc = s.rxCrc := rfl
@[simp] theorem logRead_rxRcvd (w : Width) (a : Addr) (v : Word) (s : State) : (logRead w a v s).rxRcvd = s.rxRcvd := rfl
@[simp] theorem logRead_encState (w : Width) (a : Addr) (v : Word) (s : State) : (logRead w a v s).encState = s.encState := rfl
@[simp] theorem logRead_encN (w : Width) (a : Addr) (v : Word) (s : State) : (logRead w a v s).encN = s.encN := rfl
@[simp] theorem logRead_encIdx (w : Width) (a : Addr) (v : Word) (s : State) : (logRead w a v s).encIdx = s.encIdx := rfl
@[simp] theorem logRead_decState (w : Width) (a : Addr) (v : Word) (s : State) : (logRead w a v s).decState = s.decState := rfl
@[simp] theorem logRead_decHave (w : Width) (a : Addr) (v : Word) (s : State) : (logRead w a v s).decHave = s.decHave := rfl
@[simp] theorem logRead_decLhi (w : Width) (a : Addr) (v : Word) (s : State) : (logRead w a v s).decLhi = s.decLhi := rfl
@[simp] theorem logRead_mem (w : Width) (a : Addr) (v : Word) (s : State) : (logRead w a v s).mem = s.mem := rfl
@[simp] theorem logRead_bufferEpoch (w : Width) (a : Addr) (v : Word) (s : State) : (logRead w a v s).bufferEpoch = s.bufferEpoch := rfl
@[simp] theorem logRead_txStream (w : Width) (a : Addr) (v : Word) (s : State) : (logRead w a v s).txStream = s.txStream := rfl
@[simp] theorem logRead_rdRequests (w : Width) (a : Addr) (v : Word) (s : State) : (logRead w a v s).rdRequests = s.rdRequests := rfl
@[simp] theorem logRead_rxHeld (w : Width) (a : Addr) (v : Word) (s : State) : (logRead w a v s).rxHeld = s.rxHeld := rfl
@[simp] theorem logRead_hostProgram (w : Width) (a : Addr) (v : Word) (s : State) : (logRead w a v s).hostProgram = s.hostProgram := rfl
@[simp] theorem logRead_hostReads (w : Width) (a : Addr) (v : Word) (s : State) : (logRead w a v s).hostReads = s.hostReads ++ [⟨w, a, v⟩] := rfl
@[simp] theorem logRead_schedule (w : Width) (a : Addr) (v : Word) (s : State) : (logRead w a v s).schedule = s.schedule := rfl

@[simp] theorem acceptEnc_poly (b : Byte) (n : U16) (s : State) : (acceptEnc b n s).poly = s.poly := rfl
@[simp] theorem acceptEnc_encDone (b : Byte) (n : U16) (s : State) : (acceptEnc b n s).encDone = false := rfl
@[simp] theorem acceptEnc_decDone (b : Byte) (n : U16) (s : State) : (acceptEnc b n s).decDone = s.decDone := rfl
@[simp] theorem acceptEnc_errIllegal (b : Byte) (n : U16) (s : State) : (acceptEnc b n s).errIllegal = s.errIllegal := rfl
@[simp] theorem acceptEnc_errBusy (b : Byte) (n : U16) (s : State) : (acceptEnc b n s).errBusy = s.errBusy := rfl
@[simp] theorem acceptEnc_errLen (b : Byte) (n : U16) (s : State) : (acceptEnc b n s).errLen = s.errLen := rfl
@[simp] theorem acceptEnc_crcAcc (b : Byte) (n : U16) (s : State) : (acceptEnc b n s).crcAcc = s.crcAcc := rfl
@[simp] theorem acceptEnc_txLen (b : Byte) (n : U16) (s : State) : (acceptEnc b n s).txLen = payloadLength n := rfl
@[simp] theorem acceptEnc_txCmd (b : Byte) (n : U16) (s : State) : (acceptEnc b n s).txCmd = b := rfl
@[simp] theorem acceptEnc_txCrc (b : Byte) (n : U16) (s : State) : (acceptEnc b n s).txCrc = 0 := rfl
@[simp] theorem acceptEnc_txSent (b : Byte) (n : U16) (s : State) : (acceptEnc b n s).txSent = 0 := rfl
@[simp] theorem acceptEnc_rxResult (b : Byte) (n : U16) (s : State) : (acceptEnc b n s).rxResult = s.rxResult := rfl
@[simp] theorem acceptEnc_rxLen (b : Byte) (n : U16) (s : State) : (acceptEnc b n s).rxLen = s.rxLen := rfl
@[simp] theorem acceptEnc_rxCmd (b : Byte) (n : U16) (s : State) : (acceptEnc b n s).rxCmd = s.rxCmd := rfl
@[simp] theorem acceptEnc_rxDlen (b : Byte) (n : U16) (s : State) : (acceptEnc b n s).rxDlen = s.rxDlen := rfl
@[simp] theorem acceptEnc_rxCrc (b : Byte) (n : U16) (s : State) : (acceptEnc b n s).rxCrc = s.rxCrc := rfl
@[simp] theorem acceptEnc_rxRcvd (b : Byte) (n : U16) (s : State) : (acceptEnc b n s).rxRcvd = s.rxRcvd := rfl
@[simp] theorem acceptEnc_encState (b : Byte) (n : U16) (s : State) : (acceptEnc b n s).encState = .lenHi := rfl
@[simp] theorem acceptEnc_encN (b : Byte) (n : U16) (s : State) : (acceptEnc b n s).encN = n := rfl
@[simp] theorem acceptEnc_encIdx (b : Byte) (n : U16) (s : State) : (acceptEnc b n s).encIdx = 0 := rfl
@[simp] theorem acceptEnc_decState (b : Byte) (n : U16) (s : State) : (acceptEnc b n s).decState = s.decState := rfl
@[simp] theorem acceptEnc_decHave (b : Byte) (n : U16) (s : State) : (acceptEnc b n s).decHave = s.decHave := rfl
@[simp] theorem acceptEnc_decLhi (b : Byte) (n : U16) (s : State) : (acceptEnc b n s).decLhi = s.decLhi := rfl
@[simp] theorem acceptEnc_mem (b : Byte) (n : U16) (s : State) : (acceptEnc b n s).mem = s.mem := rfl
@[simp] theorem acceptEnc_bufferEpoch (b : Byte) (n : U16) (s : State) : (acceptEnc b n s).bufferEpoch = s.bufferEpoch := rfl
@[simp] theorem acceptEnc_txStream (b : Byte) (n : U16) (s : State) : (acceptEnc b n s).txStream = s.txStream := rfl
@[simp] theorem acceptEnc_rdRequests (b : Byte) (n : U16) (s : State) : (acceptEnc b n s).rdRequests = s.rdRequests := rfl
@[simp] theorem acceptEnc_rxHeld (b : Byte) (n : U16) (s : State) : (acceptEnc b n s).rxHeld = s.rxHeld := rfl
@[simp] theorem acceptEnc_hostProgram (b : Byte) (n : U16) (s : State) : (acceptEnc b n s).hostProgram = s.hostProgram := rfl
@[simp] theorem acceptEnc_hostReads (b : Byte) (n : U16) (s : State) : (acceptEnc b n s).hostReads = s.hostReads := rfl
@[simp] theorem acceptEnc_schedule (b : Byte) (n : U16) (s : State) : (acceptEnc b n s).schedule = s.schedule := rfl

@[simp] theorem acceptDec_poly (s : State) : (acceptDec s).poly = s.poly := rfl
@[simp] theorem acceptDec_encDone (s : State) : (acceptDec s).encDone = s.encDone := rfl
@[simp] theorem acceptDec_decDone (s : State) : (acceptDec s).decDone = false := rfl
@[simp] theorem acceptDec_errIllegal (s : State) : (acceptDec s).errIllegal = s.errIllegal := rfl
@[simp] theorem acceptDec_errBusy (s : State) : (acceptDec s).errBusy = s.errBusy := rfl
@[simp] theorem acceptDec_errLen (s : State) : (acceptDec s).errLen = s.errLen := rfl
@[simp] theorem acceptDec_crcAcc (s : State) : (acceptDec s).crcAcc = s.crcAcc := rfl
@[simp] theorem acceptDec_txLen (s : State) : (acceptDec s).txLen = s.txLen := rfl
@[simp] theorem acceptDec_txCmd (s : State) : (acceptDec s).txCmd = s.txCmd := rfl
@[simp] theorem acceptDec_txCrc (s : State) : (acceptDec s).txCrc = s.txCrc := rfl
@[simp] theorem acceptDec_txSent (s : State) : (acceptDec s).txSent = s.txSent := rfl
@[simp] theorem acceptDec_rxResult (s : State) : (acceptDec s).rxResult = .none := rfl
@[simp] theorem acceptDec_rxLen (s : State) : (acceptDec s).rxLen = 0 := rfl
@[simp] theorem acceptDec_rxCmd (s : State) : (acceptDec s).rxCmd = 0 := rfl
@[simp] theorem acceptDec_rxDlen (s : State) : (acceptDec s).rxDlen = 0 := rfl
@[simp] theorem acceptDec_rxCrc (s : State) : (acceptDec s).rxCrc = 0 := rfl
@[simp] theorem acceptDec_rxRcvd (s : State) : (acceptDec s).rxRcvd = 0 := rfl
@[simp] theorem acceptDec_encState (s : State) : (acceptDec s).encState = s.encState := rfl
@[simp] theorem acceptDec_encN (s : State) : (acceptDec s).encN = s.encN := rfl
@[simp] theorem acceptDec_encIdx (s : State) : (acceptDec s).encIdx = s.encIdx := rfl
@[simp] theorem acceptDec_decState (s : State) : (acceptDec s).decState = .len := rfl
@[simp] theorem acceptDec_decHave (s : State) : (acceptDec s).decHave = 0 := rfl
@[simp] theorem acceptDec_decLhi (s : State) : (acceptDec s).decLhi = 0 := rfl
@[simp] theorem acceptDec_mem (s : State) : (acceptDec s).mem = s.mem := rfl
@[simp] theorem acceptDec_bufferEpoch (s : State) : (acceptDec s).bufferEpoch = s.bufferEpoch := rfl
@[simp] theorem acceptDec_txStream (s : State) : (acceptDec s).txStream = s.txStream := rfl
@[simp] theorem acceptDec_rdRequests (s : State) : (acceptDec s).rdRequests = s.rdRequests ++ [2] := rfl
@[simp] theorem acceptDec_rxHeld (s : State) : (acceptDec s).rxHeld = s.rxHeld := rfl
@[simp] theorem acceptDec_hostProgram (s : State) : (acceptDec s).hostProgram = s.hostProgram := rfl
@[simp] theorem acceptDec_hostReads (s : State) : (acceptDec s).hostReads = s.hostReads := rfl
@[simp] theorem acceptDec_schedule (s : State) : (acceptDec s).schedule = s.schedule := rfl

@[simp] theorem resetBlock_poly (s : State) : (resetBlock s).poly = s.poly := rfl
@[simp] theorem resetBlock_encDone (s : State) : (resetBlock s).encDone = State.reset.encDone := rfl
@[simp] theorem resetBlock_decDone (s : State) : (resetBlock s).decDone = State.reset.decDone := rfl
@[simp] theorem resetBlock_errIllegal (s : State) : (resetBlock s).errIllegal = State.reset.errIllegal := rfl
@[simp] theorem resetBlock_errBusy (s : State) : (resetBlock s).errBusy = State.reset.errBusy := rfl
@[simp] theorem resetBlock_errLen (s : State) : (resetBlock s).errLen = State.reset.errLen := rfl
@[simp] theorem resetBlock_crcAcc (s : State) : (resetBlock s).crcAcc = State.reset.crcAcc := rfl
@[simp] theorem resetBlock_txLen (s : State) : (resetBlock s).txLen = State.reset.txLen := rfl
@[simp] theorem resetBlock_txCmd (s : State) : (resetBlock s).txCmd = State.reset.txCmd := rfl
@[simp] theorem resetBlock_txCrc (s : State) : (resetBlock s).txCrc = State.reset.txCrc := rfl
@[simp] theorem resetBlock_txSent (s : State) : (resetBlock s).txSent = State.reset.txSent := rfl
@[simp] theorem resetBlock_rxResult (s : State) : (resetBlock s).rxResult = State.reset.rxResult := rfl
@[simp] theorem resetBlock_rxLen (s : State) : (resetBlock s).rxLen = State.reset.rxLen := rfl
@[simp] theorem resetBlock_rxCmd (s : State) : (resetBlock s).rxCmd = State.reset.rxCmd := rfl
@[simp] theorem resetBlock_rxDlen (s : State) : (resetBlock s).rxDlen = State.reset.rxDlen := rfl
@[simp] theorem resetBlock_rxCrc (s : State) : (resetBlock s).rxCrc = State.reset.rxCrc := rfl
@[simp] theorem resetBlock_rxRcvd (s : State) : (resetBlock s).rxRcvd = State.reset.rxRcvd := rfl
@[simp] theorem resetBlock_encState (s : State) : (resetBlock s).encState = State.reset.encState := rfl
@[simp] theorem resetBlock_encN (s : State) : (resetBlock s).encN = State.reset.encN := rfl
@[simp] theorem resetBlock_encIdx (s : State) : (resetBlock s).encIdx = State.reset.encIdx := rfl
@[simp] theorem resetBlock_decState (s : State) : (resetBlock s).decState = State.reset.decState := rfl
@[simp] theorem resetBlock_decHave (s : State) : (resetBlock s).decHave = State.reset.decHave := rfl
@[simp] theorem resetBlock_decLhi (s : State) : (resetBlock s).decLhi = State.reset.decLhi := rfl
@[simp] theorem resetBlock_mem (s : State) : (resetBlock s).mem = s.mem := rfl
@[simp] theorem resetBlock_bufferEpoch (s : State) : (resetBlock s).bufferEpoch = s.bufferEpoch := rfl
@[simp] theorem resetBlock_txStream (s : State) : (resetBlock s).txStream = s.txStream := rfl
@[simp] theorem resetBlock_rdRequests (s : State) : (resetBlock s).rdRequests = s.rdRequests := rfl
@[simp] theorem resetBlock_rxHeld (s : State) : (resetBlock s).rxHeld = s.rxHeld := rfl
@[simp] theorem resetBlock_hostProgram (s : State) : (resetBlock s).hostProgram = s.hostProgram := rfl
@[simp] theorem resetBlock_hostReads (s : State) : (resetBlock s).hostReads = s.hostReads := rfl
@[simp] theorem resetBlock_schedule (s : State) : (resetBlock s).schedule = s.schedule := rfl

@[simp] theorem powerOnBlock_poly (s : State) : (powerOnBlock s).poly = s.poly := rfl
@[simp] theorem powerOnBlock_encDone (s : State) : (powerOnBlock s).encDone = State.reset.encDone := rfl
@[simp] theorem powerOnBlock_decDone (s : State) : (powerOnBlock s).decDone = State.reset.decDone := rfl
@[simp] theorem powerOnBlock_errIllegal (s : State) : (powerOnBlock s).errIllegal = State.reset.errIllegal := rfl
@[simp] theorem powerOnBlock_errBusy (s : State) : (powerOnBlock s).errBusy = State.reset.errBusy := rfl
@[simp] theorem powerOnBlock_errLen (s : State) : (powerOnBlock s).errLen = State.reset.errLen := rfl
@[simp] theorem powerOnBlock_crcAcc (s : State) : (powerOnBlock s).crcAcc = State.reset.crcAcc := rfl
@[simp] theorem powerOnBlock_txLen (s : State) : (powerOnBlock s).txLen = State.reset.txLen := rfl
@[simp] theorem powerOnBlock_txCmd (s : State) : (powerOnBlock s).txCmd = State.reset.txCmd := rfl
@[simp] theorem powerOnBlock_txCrc (s : State) : (powerOnBlock s).txCrc = State.reset.txCrc := rfl
@[simp] theorem powerOnBlock_txSent (s : State) : (powerOnBlock s).txSent = State.reset.txSent := rfl
@[simp] theorem powerOnBlock_rxResult (s : State) : (powerOnBlock s).rxResult = State.reset.rxResult := rfl
@[simp] theorem powerOnBlock_rxLen (s : State) : (powerOnBlock s).rxLen = State.reset.rxLen := rfl
@[simp] theorem powerOnBlock_rxCmd (s : State) : (powerOnBlock s).rxCmd = State.reset.rxCmd := rfl
@[simp] theorem powerOnBlock_rxDlen (s : State) : (powerOnBlock s).rxDlen = State.reset.rxDlen := rfl
@[simp] theorem powerOnBlock_rxCrc (s : State) : (powerOnBlock s).rxCrc = State.reset.rxCrc := rfl
@[simp] theorem powerOnBlock_rxRcvd (s : State) : (powerOnBlock s).rxRcvd = State.reset.rxRcvd := rfl
@[simp] theorem powerOnBlock_encState (s : State) : (powerOnBlock s).encState = State.reset.encState := rfl
@[simp] theorem powerOnBlock_encN (s : State) : (powerOnBlock s).encN = State.reset.encN := rfl
@[simp] theorem powerOnBlock_encIdx (s : State) : (powerOnBlock s).encIdx = State.reset.encIdx := rfl
@[simp] theorem powerOnBlock_decState (s : State) : (powerOnBlock s).decState = State.reset.decState := rfl
@[simp] theorem powerOnBlock_decHave (s : State) : (powerOnBlock s).decHave = State.reset.decHave := rfl
@[simp] theorem powerOnBlock_decLhi (s : State) : (powerOnBlock s).decLhi = State.reset.decLhi := rfl
@[simp] theorem powerOnBlock_mem (s : State) : (powerOnBlock s).mem = [] := rfl
@[simp] theorem powerOnBlock_bufferEpoch (s : State) : (powerOnBlock s).bufferEpoch = s.bufferEpoch + 1 := rfl
@[simp] theorem powerOnBlock_txStream (s : State) : (powerOnBlock s).txStream = s.txStream := rfl
@[simp] theorem powerOnBlock_rdRequests (s : State) : (powerOnBlock s).rdRequests = s.rdRequests := rfl
@[simp] theorem powerOnBlock_rxHeld (s : State) : (powerOnBlock s).rxHeld = s.rxHeld := rfl
@[simp] theorem powerOnBlock_hostProgram (s : State) : (powerOnBlock s).hostProgram = s.hostProgram := rfl
@[simp] theorem powerOnBlock_hostReads (s : State) : (powerOnBlock s).hostReads = s.hostReads := rfl
@[simp] theorem powerOnBlock_schedule (s : State) : (powerOnBlock s).schedule = s.schedule := rfl

@[simp] theorem afterMove_poly (s : State) (moves : List Move) : (s.afterMove moves).poly = s.poly := rfl
@[simp] theorem afterMove_encDone (s : State) (moves : List Move) : (s.afterMove moves).encDone = s.encDone := rfl
@[simp] theorem afterMove_decDone (s : State) (moves : List Move) : (s.afterMove moves).decDone = s.decDone := rfl
@[simp] theorem afterMove_errIllegal (s : State) (moves : List Move) : (s.afterMove moves).errIllegal = s.errIllegal := rfl
@[simp] theorem afterMove_errBusy (s : State) (moves : List Move) : (s.afterMove moves).errBusy = s.errBusy := rfl
@[simp] theorem afterMove_errLen (s : State) (moves : List Move) : (s.afterMove moves).errLen = s.errLen := rfl
@[simp] theorem afterMove_crcAcc (s : State) (moves : List Move) : (s.afterMove moves).crcAcc = s.crcAcc := rfl
@[simp] theorem afterMove_txLen (s : State) (moves : List Move) : (s.afterMove moves).txLen = s.txLen := rfl
@[simp] theorem afterMove_txCmd (s : State) (moves : List Move) : (s.afterMove moves).txCmd = s.txCmd := rfl
@[simp] theorem afterMove_txCrc (s : State) (moves : List Move) : (s.afterMove moves).txCrc = s.txCrc := rfl
@[simp] theorem afterMove_txSent (s : State) (moves : List Move) : (s.afterMove moves).txSent = s.txSent := rfl
@[simp] theorem afterMove_rxResult (s : State) (moves : List Move) : (s.afterMove moves).rxResult = s.rxResult := rfl
@[simp] theorem afterMove_rxLen (s : State) (moves : List Move) : (s.afterMove moves).rxLen = s.rxLen := rfl
@[simp] theorem afterMove_rxCmd (s : State) (moves : List Move) : (s.afterMove moves).rxCmd = s.rxCmd := rfl
@[simp] theorem afterMove_rxDlen (s : State) (moves : List Move) : (s.afterMove moves).rxDlen = s.rxDlen := rfl
@[simp] theorem afterMove_rxCrc (s : State) (moves : List Move) : (s.afterMove moves).rxCrc = s.rxCrc := rfl
@[simp] theorem afterMove_rxRcvd (s : State) (moves : List Move) : (s.afterMove moves).rxRcvd = s.rxRcvd := rfl
@[simp] theorem afterMove_encState (s : State) (moves : List Move) : (s.afterMove moves).encState = s.encState := rfl
@[simp] theorem afterMove_encN (s : State) (moves : List Move) : (s.afterMove moves).encN = s.encN := rfl
@[simp] theorem afterMove_encIdx (s : State) (moves : List Move) : (s.afterMove moves).encIdx = s.encIdx := rfl
@[simp] theorem afterMove_decState (s : State) (moves : List Move) : (s.afterMove moves).decState = s.decState := rfl
@[simp] theorem afterMove_decHave (s : State) (moves : List Move) : (s.afterMove moves).decHave = s.decHave := rfl
@[simp] theorem afterMove_decLhi (s : State) (moves : List Move) : (s.afterMove moves).decLhi = s.decLhi := rfl
@[simp] theorem afterMove_mem (s : State) (moves : List Move) : (s.afterMove moves).mem = s.mem := rfl
@[simp] theorem afterMove_bufferEpoch (s : State) (moves : List Move) : (s.afterMove moves).bufferEpoch = s.bufferEpoch := rfl
@[simp] theorem afterMove_txStream (s : State) (moves : List Move) : (s.afterMove moves).txStream = s.txStream := rfl
@[simp] theorem afterMove_rdRequests (s : State) (moves : List Move) : (s.afterMove moves).rdRequests = s.rdRequests := rfl
@[simp] theorem afterMove_rxHeld (s : State) (moves : List Move) : (s.afterMove moves).rxHeld = s.rxHeld := rfl
@[simp] theorem afterMove_hostProgram (s : State) (moves : List Move) : (s.afterMove moves).hostProgram = s.hostProgram := rfl
@[simp] theorem afterMove_hostReads (s : State) (moves : List Move) : (s.afterMove moves).hostReads = s.hostReads := rfl
@[simp] theorem afterMove_schedule (s : State) (moves : List Move) : (s.afterMove moves).schedule = moves := rfl

@[simp] theorem afterOp_poly (s : State) (ops : List HostOp) : (s.afterOp ops).poly = s.poly := rfl
@[simp] theorem afterOp_encDone (s : State) (ops : List HostOp) : (s.afterOp ops).encDone = s.encDone := rfl
@[simp] theorem afterOp_decDone (s : State) (ops : List HostOp) : (s.afterOp ops).decDone = s.decDone := rfl
@[simp] theorem afterOp_errIllegal (s : State) (ops : List HostOp) : (s.afterOp ops).errIllegal = s.errIllegal := rfl
@[simp] theorem afterOp_errBusy (s : State) (ops : List HostOp) : (s.afterOp ops).errBusy = s.errBusy := rfl
@[simp] theorem afterOp_errLen (s : State) (ops : List HostOp) : (s.afterOp ops).errLen = s.errLen := rfl
@[simp] theorem afterOp_crcAcc (s : State) (ops : List HostOp) : (s.afterOp ops).crcAcc = s.crcAcc := rfl
@[simp] theorem afterOp_txLen (s : State) (ops : List HostOp) : (s.afterOp ops).txLen = s.txLen := rfl
@[simp] theorem afterOp_txCmd (s : State) (ops : List HostOp) : (s.afterOp ops).txCmd = s.txCmd := rfl
@[simp] theorem afterOp_txCrc (s : State) (ops : List HostOp) : (s.afterOp ops).txCrc = s.txCrc := rfl
@[simp] theorem afterOp_txSent (s : State) (ops : List HostOp) : (s.afterOp ops).txSent = s.txSent := rfl
@[simp] theorem afterOp_rxResult (s : State) (ops : List HostOp) : (s.afterOp ops).rxResult = s.rxResult := rfl
@[simp] theorem afterOp_rxLen (s : State) (ops : List HostOp) : (s.afterOp ops).rxLen = s.rxLen := rfl
@[simp] theorem afterOp_rxCmd (s : State) (ops : List HostOp) : (s.afterOp ops).rxCmd = s.rxCmd := rfl
@[simp] theorem afterOp_rxDlen (s : State) (ops : List HostOp) : (s.afterOp ops).rxDlen = s.rxDlen := rfl
@[simp] theorem afterOp_rxCrc (s : State) (ops : List HostOp) : (s.afterOp ops).rxCrc = s.rxCrc := rfl
@[simp] theorem afterOp_rxRcvd (s : State) (ops : List HostOp) : (s.afterOp ops).rxRcvd = s.rxRcvd := rfl
@[simp] theorem afterOp_encState (s : State) (ops : List HostOp) : (s.afterOp ops).encState = s.encState := rfl
@[simp] theorem afterOp_encN (s : State) (ops : List HostOp) : (s.afterOp ops).encN = s.encN := rfl
@[simp] theorem afterOp_encIdx (s : State) (ops : List HostOp) : (s.afterOp ops).encIdx = s.encIdx := rfl
@[simp] theorem afterOp_decState (s : State) (ops : List HostOp) : (s.afterOp ops).decState = s.decState := rfl
@[simp] theorem afterOp_decHave (s : State) (ops : List HostOp) : (s.afterOp ops).decHave = s.decHave := rfl
@[simp] theorem afterOp_decLhi (s : State) (ops : List HostOp) : (s.afterOp ops).decLhi = s.decLhi := rfl
@[simp] theorem afterOp_mem (s : State) (ops : List HostOp) : (s.afterOp ops).mem = s.mem := rfl
@[simp] theorem afterOp_bufferEpoch (s : State) (ops : List HostOp) : (s.afterOp ops).bufferEpoch = s.bufferEpoch := rfl
@[simp] theorem afterOp_txStream (s : State) (ops : List HostOp) : (s.afterOp ops).txStream = s.txStream := rfl
@[simp] theorem afterOp_rdRequests (s : State) (ops : List HostOp) : (s.afterOp ops).rdRequests = s.rdRequests := rfl
@[simp] theorem afterOp_rxHeld (s : State) (ops : List HostOp) : (s.afterOp ops).rxHeld = s.rxHeld := rfl
@[simp] theorem afterOp_hostProgram (s : State) (ops : List HostOp) : (s.afterOp ops).hostProgram = ops := rfl
@[simp] theorem afterOp_hostReads (s : State) (ops : List HostOp) : (s.afterOp ops).hostReads = s.hostReads := rfl
@[simp] theorem afterOp_schedule (s : State) (ops : List HostOp) : (s.afterOp ops).schedule = s.schedule := rfl

@[simp] theorem afterByte_poly (s : State) (held : List Byte) : (s.afterByte held).poly = s.poly := rfl
@[simp] theorem afterByte_encDone (s : State) (held : List Byte) : (s.afterByte held).encDone = s.encDone := rfl
@[simp] theorem afterByte_decDone (s : State) (held : List Byte) : (s.afterByte held).decDone = s.decDone := rfl
@[simp] theorem afterByte_errIllegal (s : State) (held : List Byte) : (s.afterByte held).errIllegal = s.errIllegal := rfl
@[simp] theorem afterByte_errBusy (s : State) (held : List Byte) : (s.afterByte held).errBusy = s.errBusy := rfl
@[simp] theorem afterByte_errLen (s : State) (held : List Byte) : (s.afterByte held).errLen = s.errLen := rfl
@[simp] theorem afterByte_crcAcc (s : State) (held : List Byte) : (s.afterByte held).crcAcc = s.crcAcc := rfl
@[simp] theorem afterByte_txLen (s : State) (held : List Byte) : (s.afterByte held).txLen = s.txLen := rfl
@[simp] theorem afterByte_txCmd (s : State) (held : List Byte) : (s.afterByte held).txCmd = s.txCmd := rfl
@[simp] theorem afterByte_txCrc (s : State) (held : List Byte) : (s.afterByte held).txCrc = s.txCrc := rfl
@[simp] theorem afterByte_txSent (s : State) (held : List Byte) : (s.afterByte held).txSent = s.txSent := rfl
@[simp] theorem afterByte_rxResult (s : State) (held : List Byte) : (s.afterByte held).rxResult = s.rxResult := rfl
@[simp] theorem afterByte_rxLen (s : State) (held : List Byte) : (s.afterByte held).rxLen = s.rxLen := rfl
@[simp] theorem afterByte_rxCmd (s : State) (held : List Byte) : (s.afterByte held).rxCmd = s.rxCmd := rfl
@[simp] theorem afterByte_rxDlen (s : State) (held : List Byte) : (s.afterByte held).rxDlen = s.rxDlen := rfl
@[simp] theorem afterByte_rxCrc (s : State) (held : List Byte) : (s.afterByte held).rxCrc = s.rxCrc := rfl
@[simp] theorem afterByte_rxRcvd (s : State) (held : List Byte) : (s.afterByte held).rxRcvd = s.rxRcvd := rfl
@[simp] theorem afterByte_encState (s : State) (held : List Byte) : (s.afterByte held).encState = s.encState := rfl
@[simp] theorem afterByte_encN (s : State) (held : List Byte) : (s.afterByte held).encN = s.encN := rfl
@[simp] theorem afterByte_encIdx (s : State) (held : List Byte) : (s.afterByte held).encIdx = s.encIdx := rfl
@[simp] theorem afterByte_decState (s : State) (held : List Byte) : (s.afterByte held).decState = s.decState := rfl
@[simp] theorem afterByte_decHave (s : State) (held : List Byte) : (s.afterByte held).decHave = s.decHave := rfl
@[simp] theorem afterByte_decLhi (s : State) (held : List Byte) : (s.afterByte held).decLhi = s.decLhi := rfl
@[simp] theorem afterByte_mem (s : State) (held : List Byte) : (s.afterByte held).mem = s.mem := rfl
@[simp] theorem afterByte_bufferEpoch (s : State) (held : List Byte) : (s.afterByte held).bufferEpoch = s.bufferEpoch := rfl
@[simp] theorem afterByte_txStream (s : State) (held : List Byte) : (s.afterByte held).txStream = s.txStream := rfl
@[simp] theorem afterByte_rdRequests (s : State) (held : List Byte) : (s.afterByte held).rdRequests = s.rdRequests := rfl
@[simp] theorem afterByte_rxHeld (s : State) (held : List Byte) : (s.afterByte held).rxHeld = held := rfl
@[simp] theorem afterByte_hostProgram (s : State) (held : List Byte) : (s.afterByte held).hostProgram = s.hostProgram := rfl
@[simp] theorem afterByte_hostReads (s : State) (held : List Byte) : (s.afterByte held).hostReads = s.hostReads := rfl
@[simp] theorem afterByte_schedule (s : State) (held : List Byte) : (s.afterByte held).schedule = s.schedule := rfl

@[simp] theorem setCrcAcc_poly (c : U16) (s : State) : (setCrcAcc c s).poly = s.poly := rfl
@[simp] theorem setCrcAcc_encDone (c : U16) (s : State) : (setCrcAcc c s).encDone = s.encDone := rfl
@[simp] theorem setCrcAcc_decDone (c : U16) (s : State) : (setCrcAcc c s).decDone = s.decDone := rfl
@[simp] theorem setCrcAcc_errIllegal (c : U16) (s : State) : (setCrcAcc c s).errIllegal = s.errIllegal := rfl
@[simp] theorem setCrcAcc_errBusy (c : U16) (s : State) : (setCrcAcc c s).errBusy = s.errBusy := rfl
@[simp] theorem setCrcAcc_errLen (c : U16) (s : State) : (setCrcAcc c s).errLen = s.errLen := rfl
@[simp] theorem setCrcAcc_crcAcc (c : U16) (s : State) : (setCrcAcc c s).crcAcc = c := rfl
@[simp] theorem setCrcAcc_txLen (c : U16) (s : State) : (setCrcAcc c s).txLen = s.txLen := rfl
@[simp] theorem setCrcAcc_txCmd (c : U16) (s : State) : (setCrcAcc c s).txCmd = s.txCmd := rfl
@[simp] theorem setCrcAcc_txCrc (c : U16) (s : State) : (setCrcAcc c s).txCrc = s.txCrc := rfl
@[simp] theorem setCrcAcc_txSent (c : U16) (s : State) : (setCrcAcc c s).txSent = s.txSent := rfl
@[simp] theorem setCrcAcc_rxResult (c : U16) (s : State) : (setCrcAcc c s).rxResult = s.rxResult := rfl
@[simp] theorem setCrcAcc_rxLen (c : U16) (s : State) : (setCrcAcc c s).rxLen = s.rxLen := rfl
@[simp] theorem setCrcAcc_rxCmd (c : U16) (s : State) : (setCrcAcc c s).rxCmd = s.rxCmd := rfl
@[simp] theorem setCrcAcc_rxDlen (c : U16) (s : State) : (setCrcAcc c s).rxDlen = s.rxDlen := rfl
@[simp] theorem setCrcAcc_rxCrc (c : U16) (s : State) : (setCrcAcc c s).rxCrc = s.rxCrc := rfl
@[simp] theorem setCrcAcc_rxRcvd (c : U16) (s : State) : (setCrcAcc c s).rxRcvd = s.rxRcvd := rfl
@[simp] theorem setCrcAcc_encState (c : U16) (s : State) : (setCrcAcc c s).encState = s.encState := rfl
@[simp] theorem setCrcAcc_encN (c : U16) (s : State) : (setCrcAcc c s).encN = s.encN := rfl
@[simp] theorem setCrcAcc_encIdx (c : U16) (s : State) : (setCrcAcc c s).encIdx = s.encIdx := rfl
@[simp] theorem setCrcAcc_decState (c : U16) (s : State) : (setCrcAcc c s).decState = s.decState := rfl
@[simp] theorem setCrcAcc_decHave (c : U16) (s : State) : (setCrcAcc c s).decHave = s.decHave := rfl
@[simp] theorem setCrcAcc_decLhi (c : U16) (s : State) : (setCrcAcc c s).decLhi = s.decLhi := rfl
@[simp] theorem setCrcAcc_mem (c : U16) (s : State) : (setCrcAcc c s).mem = s.mem := rfl
@[simp] theorem setCrcAcc_bufferEpoch (c : U16) (s : State) : (setCrcAcc c s).bufferEpoch = s.bufferEpoch := rfl
@[simp] theorem setCrcAcc_txStream (c : U16) (s : State) : (setCrcAcc c s).txStream = s.txStream := rfl
@[simp] theorem setCrcAcc_rdRequests (c : U16) (s : State) : (setCrcAcc c s).rdRequests = s.rdRequests := rfl
@[simp] theorem setCrcAcc_rxHeld (c : U16) (s : State) : (setCrcAcc c s).rxHeld = s.rxHeld := rfl
@[simp] theorem setCrcAcc_hostProgram (c : U16) (s : State) : (setCrcAcc c s).hostProgram = s.hostProgram := rfl
@[simp] theorem setCrcAcc_hostReads (c : U16) (s : State) : (setCrcAcc c s).hostReads = s.hostReads := rfl
@[simp] theorem setCrcAcc_schedule (c : U16) (s : State) : (setCrcAcc c s).schedule = s.schedule := rfl

end Sys2Proof.Machine
end

