-- ==== Sys2Proof/Laws/Ops.lean ====
section
/-! SUPPORT. What each shared operation of Machine/Ops.lean can do, said once. -/
namespace Sys2Proof.Machine

/-! ### `want` -/

theorem want_idle {s : State} (h : s.decState = .idle) : s.want = 0 := by simp [State.want, h]

theorem want_len_pos {s : State} (h : s.decState = .len) : 0 < s.want := by
  simp only [State.want, h]; omega

theorem want_pay_pos_iff {s : State} (h : s.decState = .pay) : 0 < s.want ↔ s.rxRcvd.toNat < s.rxLen.toNat := by
  simp only [State.want, h]; omega

/-- `want` is a function of the decoder's state (R41). -/
theorem want_congr {s t : State} (h1 : t.decState = s.decState) (h2 : t.decHave = s.decHave) (h3 : t.rxLen = s.rxLen)
    (h4 : t.rxRcvd = s.rxRcvd) : t.want = s.want := by
  simp [State.want, h1, h2, h3, h4]

@[simp] theorem want_afterMove (s : State) (moves : List Move) : (s.afterMove moves).want = s.want := rfl
@[simp] theorem want_afterOp (s : State) (ops : List HostOp) : (s.afterOp ops).want = s.want := rfl
@[simp] theorem want_afterByte (s : State) (held : List Byte) : (s.afterByte held).want = s.want := rfl

/-! ### Buffer bytes through the updates that leave them -/

@[simp] theorem bufferByte_afterMove (s : State) (moves : List Move) (a : Nat) :
    (s.afterMove moves).bufferByte a = s.bufferByte a := rfl
@[simp] theorem bufferByte_afterOp (s : State) (ops : List HostOp) (a : Nat) :
    (s.afterOp ops).bufferByte a = s.bufferByte a := rfl
@[simp] theorem bufferByte_afterByte (s : State) (held : List Byte) (a : Nat) :
    (s.afterByte held).bufferByte a = s.bufferByte a := rfl

/-! ### The receive transfer, by the decoder's state -/

theorem receiveTransfer_unwanted {b : Byte} {s : State} (h : s.want = 0) : receiveTransfer b s = s := by
  simp [receiveTransfer, h]

theorem receiveTransfer_first {b : Byte} {s : State} (h : s.decState = .len) (h0 : s.decHave = 0) :
    receiveTransfer b s = receiveFirst b s := by
  have hw := want_len_pos h
  unfold receiveTransfer
  rw [if_neg (by omega), h]
  simp [h0]

theorem receiveTransfer_second {b : Byte} {s : State} (h : s.decState = .len) (h1 : s.decHave = 1) :
    receiveTransfer b s = receiveSecond b s := by
  have hw := want_len_pos h
  unfold receiveTransfer
  rw [if_neg (by omega), h]
  simp [h1]

theorem receiveTransfer_payload {b : Byte} {s : State} (h : s.decState = .pay)
    (hl : s.rxRcvd.toNat < s.rxLen.toNat) : receiveTransfer b s = receivePayload b s := by
  have hw := (want_pay_pos_iff h).mpr hl
  unfold receiveTransfer
  rw [if_neg (by omega), h]

/-- Everything a receive transfer can do. -/
theorem receiveTransfer_cases (b : Byte) (s : State) :
    (s.want = 0 ∧ receiveTransfer b s = s) ∨
      (s.decState = .len ∧ s.decHave = 0 ∧ receiveTransfer b s = receiveFirst b s) ∨
      (s.decState = .len ∧ s.decHave = 1 ∧ receiveTransfer b s = receiveSecond b s) ∨
      (s.decState = .pay ∧ s.rxRcvd.toNat < s.rxLen.toNat ∧ receiveTransfer b s = receivePayload b s) := by
  by_cases hw : s.want = 0
  · exact .inl ⟨hw, receiveTransfer_unwanted hw⟩
  · right
    cases h : s.decState with
    | idle => exact absurd (want_idle h) hw
    | len =>
      by_cases h0 : s.decHave = 0
      · exact .inl ⟨rfl, h0, receiveTransfer_first h h0⟩
      · have h1 : s.decHave = 1 := by
          have hall : ∀ x : BitVec 1, x ≠ 0 → x = 1 := by decide
          exact hall _ h0
        exact .inr (.inl ⟨rfl, h1, receiveTransfer_second h h1⟩)
    | pay =>
      have hl : s.rxRcvd.toNat < s.rxLen.toNat := (want_pay_pos_iff h).mp (Nat.pos_of_ne_zero hw)
      exact .inr (.inr ⟨rfl, hl, receiveTransfer_payload h hl⟩)

/-- Everything a timeout can do. -/
theorem readTimeout_cases (s : State) :
    (s.want = 0 ∧ readTimeout s = s) ∨
      (s.decState = .len ∧ readTimeout s = finish .tmoLen s) ∨
      (s.decState = .pay ∧ s.rxRcvd.toNat < s.rxLen.toNat ∧ readTimeout s = finish .tmoPay s) := by
  by_cases hw : s.want = 0
  · exact .inl ⟨hw, by simp [readTimeout, hw]⟩
  · right
    cases h : s.decState with
    | idle => exact absurd (want_idle h) hw
    | len => exact .inl ⟨rfl, by simp [readTimeout, hw, h]⟩
    | pay =>
      exact .inr ⟨rfl, (want_pay_pos_iff h).mp (Nat.pos_of_ne_zero hw), by simp [readTimeout, hw, h]⟩

/-- A timeout does nothing, or ends the decode. -/
theorem readTimeout_finish (s : State) : readTimeout s = s ∨ ∃ r, readTimeout s = finish r s := by
  rcases readTimeout_cases s with ⟨_, h⟩ | ⟨_, h⟩ | ⟨_, _, h⟩
  · exact .inl h
  · exact .inr ⟨_, h⟩
  · exact .inr ⟨_, h⟩

/-- A receive transfer writes the decoder's fields, its request log and its one RXBUF cell, and nothing else. -/
theorem receiveTransfer_fields (b : Byte) (s : State) :
    receiveTransfer b s =
      { s with
        rxResult := (receiveTransfer b s).rxResult
        rxLen := (receiveTransfer b s).rxLen
        rxCmd := (receiveTransfer b s).rxCmd
        rxDlen := (receiveTransfer b s).rxDlen
        rxCrc := (receiveTransfer b s).rxCrc
        rxRcvd := (receiveTransfer b s).rxRcvd
        decHave := (receiveTransfer b s).decHave
        decLhi := (receiveTransfer b s).decLhi
        decDone := (receiveTransfer b s).decDone
        decState := (receiveTransfer b s).decState
        rdRequests := (receiveTransfer b s).rdRequests
        mem := (receiveTransfer b s).mem } := by
  rcases receiveTransfer_cases b s with ⟨_, h⟩ | ⟨_, _, h⟩ | ⟨_, _, h⟩ | ⟨_, _, h⟩ <;> rw [h]
  · rfl
  · simp only [receiveSecond]; split <;> rfl
  · simp only [receivePayload]; split <;> rfl

/-- The one byte a receive transfer stores. -/
theorem receiveTransfer_mem (b : Byte) (s : State) :
    (receiveTransfer b s).mem =
      if s.decState = .pay ∧ s.rxRcvd.toNat < s.rxLen.toNat then
        s.mem.write (Config.rxbufBase + s.rxRcvd.toNat) b else s.mem := by
  rcases receiveTransfer_cases b s with ⟨hw, h⟩ | ⟨hs, _, h⟩ | ⟨hs, _, h⟩ | ⟨hs, hl, h⟩ <;> rw [h]
  · rw [if_neg]
    rintro ⟨h1, h2⟩
    have := (want_pay_pos_iff h1).mpr h2
    omega
  · simp [hs]
  · simp only [receiveSecond, hs]; split <;> simp
  · simp only [receivePayload, hs, hl]; split <;> simp

/-! ### The transmit transfer -/

/-- A transmit transfer writes the encoder's fields and the transmit stream, and nothing else. -/
theorem transmitTransfer_fields (s : State) :
    transmitTransfer s =
      { s with
        txCrc := (transmitTransfer s).txCrc
        txSent := (transmitTransfer s).txSent
        encIdx := (transmitTransfer s).encIdx
        encState := (transmitTransfer s).encState
        encDone := (transmitTransfer s).encDone
        txStream := (transmitTransfer s).txStream } := by
  cases h : s.encState <;> simp only [transmitTransfer, State.offer, h, foldSent, emit, completeEncode]
  conv => rhs; rw [← h]

theorem transmitTransfer_idle {s : State} (h : s.encState = .idle) : transmitTransfer s = s := by
  simp [transmitTransfer, State.offer, h]

/-- The stream after a transmit transfer: the byte on offer, if any, is added (R123). -/
theorem transmitTransfer_stream (s : State) :
    (transmitTransfer s).txStream = s.txStream ++ s.offer.toList := by
  cases h : s.encState <;> simp [transmitTransfer, State.offer, h, foldSent, emit, completeEncode]

end Sys2Proof.Machine
end

