-- ==== Sys2Proof/Laws/Wire.lean ====
section
/-! SUPPORT. A wire command code's instruction is the transfer that carries it. -/
namespace Sys2Proof.Machine

/-- The instruction a delivered command byte is, is the receive transfer of that byte. -/
theorem exec_of_receivedCode {s : State} {b : Byte} {i : Instr} (h : s.receivedCode b = some i) (t : State) :
    exec i t = .next (receiveTransfer b t) := by
  simp only [State.receivedCode, decode, decodeToHost] at h
  split at h
  · repeat' split at h
    all_goals simp only [Except.toOption, Option.some.injEq, reduceCtorEq] at h
    all_goals subst h; subst b; rfl
  · cases h

/-- The instruction the command byte on offer is, is the transmit transfer. -/
theorem exec_of_offeredCode {s : State} {i : Instr} (h : s.offeredCode = some i) :
    exec i s = .next (transmitTransfer s) := by
  simp only [State.offeredCode, decode, decodeToDevice] at h
  split at h
  · rename_i hc
    repeat' split at h
    all_goals simp only [Except.toOption, Option.some.injEq, reduceCtorEq] at h
    all_goals
      subst h
      simp [exec, execBl, execFrame, execDone, execDate, carryToDevice, State.offer, codeBl, codeFrame,
        codeDone, codeDate, *]
  · cases h

end Sys2Proof.Machine
end

