-- ==== Sys2Proof/Laws/Step.lean ====
section
/-! SUPPORT. The inversion of the step: everything a step that answers a next state can have done. -/
namespace Sys2Proof.Machine

/-- What a host operation did to the state `s` (the operation taken off the program): one case for each effect. -/
inductive HostEffect (s : State) : HostOp → State → Prop
  /-- A read, or a `poll` that is over. -/
  | read (op : HostOp) (w : Width) (a : Addr) (v : Word) (noFlush : op ≠ .flush) : HostEffect s op (logRead w a v s)
  /-- A `poll` that reads again. -/
  | pollAgain (op : HostOp) (a : Addr) (v : Word) (noFlush : op ≠ .flush) :
      HostEffect s op ((logRead .b32 a v s).afterOp (op :: s.hostProgram))
  /-- A write that is ignored, or a NOP. -/
  | ignored (op : HostOp) (noFlush : op ≠ .flush) : HostEffect s op s
  | flush : HostEffect s .flush (flushTransport s)
  | status (v : Word) : HostEffect s (.write .b32 0x004 v) (writeStatus v s)
  | txbuf (a : Addr) (v : Word) (idle : s.encState = .idle) (lo : Config.txbufBase ≤ a.toNat)
      (hi : a.toNat < Config.rxbufBase) : HostEffect s (.write .b8 a v) (s.writeBuffer a.toNat (byteOf v))
  | illegal (w : Word) : HostEffect s (.write .b32 0x000 w) (rejectIllegal s)
  | crcClr (w : Word) (d : decode (.word w) = .ok .crcClr) :
      HostEffect s (.write .b32 0x000 w) (setCrcAcc Config.crcInit s)
  | crcByte (w : Word) (b : Byte) (d : decode (.word w) = .ok (.crcByte b)) :
      HostEffect s (.write .b32 0x000 w) (setCrcAcc (s.fold s.crcAcc b) s)
  | encBusy (w : Word) : HostEffect s (.write .b32 0x000 w) (rejectBusy s)
  | encLength (w : Word) : HostEffect s (.write .b32 0x000 w) (rejectLength s)
  | encAccepted (w : Word) (b : Byte) (n : U16) (idle : s.encState = .idle) (fits : n.toNat ≤ Config.nMax) :
      HostEffect s (.write .b32 0x000 w) (acceptEnc b n s)
  | decAccepted (w : Word) (idle : s.decState = .idle) : HostEffect s (.write .b32 0x000 w) (acceptDec s)

/-- Which register an address reaches: its offset is that address. -/
theorem target_reg {w : Width} {a : Addr} {r : Reg} (h : target w a = .reg r) : w = .b32 ∧ a = r.offset := by
  cases w with
  | b16 => simp [target] at h
  | b8 => simp only [target] at h; (repeat' split at h) <;> cases h
  | b32 =>
    simp only [target] at h
    split at h
    · split at h
      · rename_i q hq
        cases h
        refine ⟨rfl, ?_⟩
        have := List.find?_some hq
        exact (eq_of_beq this).symm
      · cases h
    · cases h

theorem target_txbuf {w : Width} {a : Addr} {x : Nat} (h : target w a = .txbuf x) :
    w = .b8 ∧ x = a.toNat ∧ Config.txbufBase ≤ a.toNat ∧ a.toNat < Config.rxbufBase := by
  cases w with
  | b16 => simp [target] at h
  | b32 => simp only [target] at h; (repeat' split at h) <;> cases h
  | b8 =>
    simp only [target] at h
    repeat' split at h
    all_goals cases h
    exact ⟨rfl, rfl, by omega, by assumption⟩

/-- A command word's instruction is one of the five commands. -/
theorem decodeWord_command {w : Word} {i : Instr} (h : decode (.word w) = .ok i) :
    i = .nop ∨ i = .crcClr ∨ (∃ b, i = .crcByte b) ∨ (∃ b n, i = .enc b n) ∨ i = .dec := by
  simp only [decode, decodeWord, decodeBare] at h
  repeat' split at h
  all_goals cases h
  all_goals simp

theorem writeCommand_effect {w : Word} {s t : State} (h : writeCommand w s = .next t) :
    HostEffect s (.write .b32 0x000 w) t := by
  unfold writeCommand at h
  split at h
  · rename_i i hd
    rcases decodeWord_command hd with rfl | rfl | ⟨b, rfl⟩ | ⟨b, n, rfl⟩ | rfl
    · cases h; exact .ignored _ nofun
    · cases h; exact .crcClr w hd
    · cases h; exact .crcByte w b hd
    · simp only [exec, execEnc] at h
      split at h
      · cases h; exact .encBusy w
      · rename_i hb
        split at h
        · cases h; exact .encLength w
        · rename_i hl
          cases h
          exact .encAccepted w b n (by simpa [State.encBusy] using hb) (by simpa [lengthFits] using hl)
    · simp only [exec, execDec] at h
      split at h
      · cases h; exact .encBusy w
      · rename_i hb
        cases h
        exact .decAccepted w (by simpa [State.decBusy] using hb)
  · cases h; exact .illegal w

/-- Everything a host operation that answers a next state can have done. -/
theorem hostOp_effect {op : HostOp} {s t : State} (h : hostOp op s = .next t) : HostEffect s op t := by
  cases op with
  | read w a =>
    simp only [hostOp, hostRead] at h
    split at h
    · cases h; exact .read _ _ _ _ nofun
    · cases h
  | poll a mask val =>
    simp only [hostOp, hostPoll] at h
    split at h
    · cases h
    · split at h
      · cases h; exact .read _ _ _ _ nofun
      · cases h; exact .pollAgain _ _ _ nofun
  | flush => simp only [hostOp] at h; cases h; exact .flush
  | write w a v =>
    simp only [hostOp, hostWrite] at h
    split at h
    · rename_i r hr
      obtain ⟨rfl, rfl⟩ := target_reg hr
      cases r <;> simp only [writeReg] at h
      · exact writeCommand_effect h
      · cases h; exact .status v
      all_goals cases h; exact .ignored _ nofun
    · rename_i x hx
      obtain ⟨rfl, rfl, hlo, hhi⟩ := target_txbuf hx
      cases h
      unfold writeTxbuf
      split
      · exact .ignored _ nofun
      · rename_i hb
        exact .txbuf a v (by simpa [State.encBusy] using hb) hlo hhi
    · cases h; exact .ignored _ nofun
    · cases h; exact .ignored _ nofun
    · cases h

/-- What a step from `s` did, by the move at the head of the schedule; `r` is `s` with that move taken off. -/
inductive StepEffect (s r : State) : State → Prop
  | quiet (noMove : s.schedule = []) : StepEffect s r s
  | hostQuiet (move : ∃ ms, s.schedule = .host :: ms) (noOp : s.hostProgram = []) : StepEffect s r r
  | hostOp {op : HostOp} {ops : List HostOp} {t : State} (move : ∃ ms, s.schedule = .host :: ms)
      (prog : s.hostProgram = op :: ops) (effect : HostEffect (r.afterOp ops) op t) : StepEffect s r t
  | taken (move : ∃ ms, s.schedule = .txTake :: ms) : StepEffect s r (transmitTransfer r)
  | undelivered (move : ∃ ms, s.schedule = .rdValid :: ms) (none : s.rxHeld = [] ∨ s.want = 0) : StepEffect s r r
  | delivered {b : Byte} {held : List Byte} (move : ∃ ms, s.schedule = .rdValid :: ms) (byte : s.rxHeld = b :: held)
      (wanted : 0 < s.want) : StepEffect s r (receiveTransfer b (r.afterByte held))
  | timedOut (move : ∃ ms, s.schedule = .rdTimeout :: ms) : StepEffect s r (readTimeout r)
  | arrived (b : Byte) (move : ∃ ms, s.schedule = .linkByte b :: ms) : StepEffect s r (linkArrival b r)
  | reset (move : ∃ ms, s.schedule = .reset :: ms) : StepEffect s r (resetBlock r)
  | powerOn (move : ∃ ms, s.schedule = .powerOn :: ms) : StepEffect s r (powerOnBlock r)

/-- Everything a step that answers a next state can have done. -/
theorem step_effect {s t : State} (h : step s = .next t) :
    StepEffect s (s.afterMove s.schedule.tail) t := by
  unfold step at h
  split at h
  · rename_i hs
    cases h
    exact .quiet hs
  · rename_i m ms hs
    rw [show s.schedule.tail = ms by rw [hs]; rfl]
    cases m with
    | host =>
      simp only [perform, hostMove] at h
      split at h
      · rename_i hp; cases h; exact .hostQuiet ⟨ms, hs⟩ hp
      · rename_i op ops hp; exact .hostOp ⟨ms, hs⟩ hp (hostOp_effect h)
    | txTake =>
      simp only [perform, txTakeMove] at h
      split at h
      · rename_i i hi
        rw [exec_of_offeredCode hi] at h
        cases h
        exact .taken ⟨ms, hs⟩
      · cases h; exact .taken ⟨ms, hs⟩
    | rdValid =>
      simp only [perform, rdValidMove] at h
      split at h
      · rename_i hb; cases h; exact .undelivered ⟨ms, hs⟩ (.inl hb)
      · rename_i b held hb
        split at h
        · rename_i hw; cases h; exact .undelivered ⟨ms, hs⟩ (.inr hw)
        · rename_i hw
          have hw' : 0 < s.want := Nat.pos_of_ne_zero hw
          split at h
          · rename_i i hi
            rw [exec_of_receivedCode hi] at h
            cases h
            exact .delivered ⟨ms, hs⟩ hb hw'
          · cases h; exact .delivered ⟨ms, hs⟩ hb hw'
    | rdTimeout => simp only [perform] at h; cases h; exact .timedOut ⟨ms, hs⟩
    | linkByte b => simp only [perform] at h; cases h; exact .arrived b ⟨ms, hs⟩
    | reset => simp only [perform] at h; cases h; exact .reset ⟨ms, hs⟩
    | powerOn => simp only [perform] at h; cases h; exact .powerOn ⟨ms, hs⟩

end Sys2Proof.Machine
end

