-- ==== Sys2Proof/Laws/Units.lean ====
section
/-! SUPPORT. The step seen by one unit: what any step, of any agent, can have done to the encoder, and to the decoder. -/
namespace Sys2Proof.Machine

/-- The encoder's part of `r` is that of `s`: its fields, the stream, and, while it runs, the bytes it sends.  ENC_DONE may
have been cleared. -/
structure EncSame (r s : State) : Prop where
  poly : r.poly = s.poly
  encState : r.encState = s.encState
  encN : r.encN = s.encN
  encIdx : r.encIdx = s.encIdx
  txLen : r.txLen = s.txLen
  txCmd : r.txCmd = s.txCmd
  txCrc : r.txCrc = s.txCrc
  txSent : r.txSent = s.txSent
  txStream : r.txStream = s.txStream
  encDone : s.encDone = false → r.encDone = false
  txbuf : s.encState ≠ .idle → ∀ k, k < 65536 → r.txbuf k = s.txbuf k

/-- The decoder's part of `r` is that of `s`: its fields and RXBUF.  DEC_DONE may have been cleared. -/
structure DecSame (r s : State) : Prop where
  poly : r.poly = s.poly
  decState : r.decState = s.decState
  decHave : r.decHave = s.decHave
  decLhi : r.decLhi = s.decLhi
  rxResult : r.rxResult = s.rxResult
  rxLen : r.rxLen = s.rxLen
  rxDlen : r.rxDlen = s.rxDlen
  rxCmd : r.rxCmd = s.rxCmd
  rxCrc : r.rxCrc = s.rxCrc
  rxRcvd : r.rxRcvd = s.rxRcvd
  decDone : s.decDone = false → r.decDone = false
  rxbuf : ∀ k, k < 65536 → r.rxbuf k = s.rxbuf k

/-- The buffer bytes of two states agree when their memories and power-on counts do. -/
theorem txbuf_congr {r s : State} (hm : r.mem = s.mem) (he : r.bufferEpoch = s.bufferEpoch) (k : Nat) :
    r.txbuf k = s.txbuf k := bufferByte_congr hm he _

theorem rxbuf_congr {r s : State} (hm : r.mem = s.mem) (he : r.bufferEpoch = s.bufferEpoch) (k : Nat) :
    r.rxbuf k = s.rxbuf k := bufferByte_congr hm he _

/-- A receive transfer changes no byte of TXBUF. -/
theorem receiveTransfer_txbuf (b : Byte) (s : State) {k : Nat} (hk : k < 65536) :
    (receiveTransfer b s).txbuf k = s.txbuf k := by
  have he : (receiveTransfer b s).bufferEpoch = s.bufferEpoch := by rw [receiveTransfer_fields]
  have hm := receiveTransfer_mem b s
  split at hm
  · unfold State.txbuf
    rw [bufferByte_of_write hm he, if_neg]
    simp only [Config.txbufBase, Config.rxbufBase]
    omega
  · exact txbuf_congr hm he k

/-- A host write to TXBUF changes no byte of RXBUF. -/
theorem writeBuffer_rxbuf (s : State) {a : Nat} (b : Byte) (hi : a < Config.rxbufBase) (k : Nat) :
    (s.writeBuffer a b).rxbuf k = s.rxbuf k := by
  unfold State.rxbuf
  exact bufferByte_writeBuffer_other _ _ (by omega)

theorem EncSame.of_readTimeout {r s : State} (h : EncSame r s) : EncSame (readTimeout r) s := by
  obtain ⟨_, _, _, _, _, _, _, _, _, _, _⟩ := h
  rcases readTimeout_finish r with e | ⟨x, e⟩ <;> rw [e] <;> constructor <;>
    simp_all [State.txbuf, State.bufferByte]

/-- What a step did to the encoder. -/
inductive EncEffect (s t : State) : Prop
  /-- Nothing: another agent moved. -/
  | same (h : EncSame t s)
  /-- The host's ENC was accepted. -/
  | accepted (idle : s.encState = .idle) (b : Byte) (n : U16) (fits : n.toNat ≤ Config.nMax) (q : State)
      (eq : t = acceptEnc b n q)
  /-- Reset. -/
  | reset (move : (∃ ms, s.schedule = .reset :: ms) ∨ ∃ ms, s.schedule = .powerOn :: ms)
      (idle : t.encState = .idle) (done : t.encDone = false)
  /-- A transmit transfer. -/
  | taken (move : ∃ ms, s.schedule = .txTake :: ms) (r : State) (same : EncSame r s) (eq : t = transmitTransfer r)

/-- What a step did to the decoder. -/
inductive DecEffect (s t : State) : Prop
  /-- Nothing: another agent moved. -/
  | same (h : DecSame t s)
  /-- The host's DEC was accepted. -/
  | accepted (idle : s.decState = .idle) (q : State) (eq : t = acceptDec q)
  /-- Reset. -/
  | reset (move : (∃ ms, s.schedule = .reset :: ms) ∨ ∃ ms, s.schedule = .powerOn :: ms)
      (poly : t.poly = s.poly) (decState : t.decState = .idle) (rxResult : t.rxResult = .none) (rxLen : t.rxLen = 0)
      (rxDlen : t.rxDlen = 0) (rxCmd : t.rxCmd = 0) (rxCrc : t.rxCrc = 0) (rxRcvd : t.rxRcvd = 0)
  /-- A receive transfer. -/
  | delivered (move : ∃ ms, s.schedule = .rdValid :: ms) (r : State) (b : Byte) (same : DecSame r s)
      (eq : t = receiveTransfer b r)
  /-- A timeout of the outstanding read, by the transport or by a flush. -/
  | timedOut (r : State) (same : DecSame r s) (eq : t = readTimeout r)

theorem step_encEffect {s t : State} (h : step s = .next t) : EncEffect s t := by
  have h2 := step_effect h
  generalize hr : s.afterMove s.schedule.tail = r at h2
  have e1 : EncSame r s := by subst hr; constructor <;> simp [State.txbuf]
  clear hr h
  cases h2 with
  | quiet => exact .same (by constructor <;> simp)
  | hostQuiet => exact .same e1
  | @hostOp op ops tt m p e =>
    have e3 : EncSame (r.afterOp ops) s := by
      obtain ⟨_, _, _, _, _, _, _, _, _, _, _⟩ := e1
      constructor <;> simp_all [State.txbuf]
    generalize r.afterOp ops = q at *
    cases e with
    | flush =>
      refine .same (EncSame.of_readTimeout ?_)
      obtain ⟨_, _, _, _, _, _, _, _, _, _, _⟩ := e3
      constructor <;> simp_all [State.txbuf]
    | encAccepted w b n i f => exact .accepted (e3.encState ▸ i) b n f q rfl
    | txbuf a v i lo hi =>
      have hi' : s.encState = .idle := e3.encState ▸ i
      obtain ⟨_, _, _, _, _, _, _, _, _, _, _⟩ := e3
      exact .same (by constructor <;> simp_all)
    | _ =>
      obtain ⟨_, _, _, _, _, _, _, _, _, _, _⟩ := e3
      exact .same (by constructor <;> simp_all [State.txbuf, State.bufferByte])
  | taken m => exact .taken m r e1 rfl
  | undelivered => exact .same e1
  | @delivered b held m hb w =>
    have hk : ∀ k, k < 65536 → (receiveTransfer b (r.afterByte held)).txbuf k = r.txbuf k :=
      fun k hk => receiveTransfer_txbuf b _ hk
    rw [receiveTransfer_fields] at hk ⊢
    obtain ⟨_, _, _, _, _, _, _, _, _, _, _⟩ := e1
    exact .same (by constructor <;> simp_all)
  | timedOut => exact .same e1.of_readTimeout
  | arrived =>
    obtain ⟨_, _, _, _, _, _, _, _, _, _, _⟩ := e1
    exact .same (by constructor <;> simp_all [State.txbuf, State.bufferByte])
  | reset m => exact .reset (.inl m) rfl rfl
  | powerOn m => exact .reset (.inr m) rfl rfl

theorem step_decEffect {s t : State} (h : step s = .next t) : DecEffect s t := by
  have h2 := step_effect h
  generalize hr : s.afterMove s.schedule.tail = r at h2
  have e1 : DecSame r s := by subst hr; constructor <;> simp [State.rxbuf]
  clear hr h
  cases h2 with
  | quiet => exact .same (by constructor <;> simp)
  | hostQuiet => exact .same e1
  | @hostOp op ops tt m p e =>
    have e3 : DecSame (r.afterOp ops) s := by
      obtain ⟨_, _, _, _, _, _, _, _, _, _, _, _⟩ := e1
      constructor <;> simp_all [State.rxbuf]
    generalize r.afterOp ops = q at *
    cases e with
    | flush =>
      refine .timedOut (q.afterByte []) ?_ rfl
      obtain ⟨_, _, _, _, _, _, _, _, _, _, _, _⟩ := e3
      constructor <;> simp_all [State.rxbuf]
    | decAccepted w i => exact .accepted (e3.decState ▸ i) q rfl
    | txbuf a v i lo hi =>
      have hk : ∀ k, (q.writeBuffer a.toNat (byteOf v)).rxbuf k = q.rxbuf k := writeBuffer_rxbuf q _ hi
      obtain ⟨_, _, _, _, _, _, _, _, _, _, _, _⟩ := e3
      exact .same (by constructor <;> simp_all)
    | _ =>
      obtain ⟨_, _, _, _, _, _, _, _, _, _, _, _⟩ := e3
      exact .same (by constructor <;> simp_all [State.rxbuf, State.bufferByte])
  | taken =>
    rw [transmitTransfer_fields]
    obtain ⟨_, _, _, _, _, _, _, _, _, _, _, _⟩ := e1
    exact .same (by constructor <;> simp_all [State.rxbuf, State.bufferByte])
  | undelivered => exact .same e1
  | @delivered b held m hb w =>
    refine .delivered m (r.afterByte held) b ?_ rfl
    obtain ⟨_, _, _, _, _, _, _, _, _, _, _, _⟩ := e1
    constructor <;> simp_all [State.rxbuf]
  | timedOut => exact .timedOut r e1 rfl
  | arrived =>
    obtain ⟨_, _, _, _, _, _, _, _, _, _, _, _⟩ := e1
    exact .same (by constructor <;> simp_all [State.rxbuf, State.bufferByte])
  | reset m => exact .reset (.inl m) e1.poly rfl rfl rfl rfl rfl rfl rfl
  | powerOn m => exact .reset (.inr m) e1.poly rfl rfl rfl rfl rfl rfl rfl

end Sys2Proof.Machine
end

