-- ==== Sys2Proof/Laws/Invariants.lean ====
section
/-! SUPPORT. How the two transfers and the acceptances stand to the predicates of Safety.lean, one unit at a time. -/
namespace Sys2Proof.Machine

/-! ### Byte ranges and the CRC of a longer string -/

/-- `TXBUF[0 .. n)` of two states that agree on TXBUF. -/
theorem txBytes_congr {r s : State} (h : ∀ k, k < 65536 → r.txbuf k = s.txbuf k) {n : Nat} (hn : n ≤ 65536) :
    r.txBytes n = s.txBytes n :=
  List.map_congr_left fun k hk => h k (by have := List.mem_range.mp hk; omega)

/-- `RXBUF[i .. i + n)` of two states that agree on RXBUF. -/
theorem rxBytes_congr {r s : State} (h : ∀ k, k < 65536 → r.rxbuf k = s.rxbuf k) {i n : Nat} (hn : i + n ≤ 65536) :
    r.rxBytes i n = s.rxBytes i n :=
  List.map_congr_left fun k hk => h _ (by have := List.mem_range.mp hk; omega)

/-- One byte more. -/
theorem txBytes_succ (s : State) (n : Nat) : s.txBytes (n + 1) = s.txBytes n ++ [s.txbuf n] := by
  simp [State.txBytes, List.range_succ]

/-- One byte more. -/
theorem rxBytes_succ (s : State) (i n : Nat) : s.rxBytes i (n + 1) = s.rxBytes i n ++ [s.rxbuf (i + n)] := by
  simp [State.rxBytes, List.range_succ]

theorem length_txBytes (s : State) (n : Nat) : (s.txBytes n).length = n := by simp [State.txBytes]

/-- R104, one byte at a time. -/
theorem crc16_snoc (poly : U16) (m : List Byte) (b : Byte) : crc16 poly (m ++ [b]) = crcStep poly (crc16 poly m) b := by
  simp [crc16, crcFrom]

theorem toNat_pos_of_ne_zero {x : U16} (h : x ≠ 0) : 0 < x.toNat :=
  Nat.pos_of_ne_zero fun g => h (BitVec.eq_of_toNat_eq (by simpa using g))

/-! ### The encoder -/

theorem EncSame.sequenced {r s : State} (h : EncSame r s) (hs : EncSequenced s) : EncSequenced r := by
  unfold EncSequenced EncCounters at *
  rw [h.encState, h.txLen, h.encN, h.encIdx, h.txSent]
  exact ⟨fun g => ⟨(hs.1 g).1, h.encDone (hs.1 g).2⟩, hs.2⟩

theorem EncSame.txCrcCovers {r s : State} (h : EncSame r s) (hs : TxCrcCovers s) : TxCrcCovers r := by
  have hi := s.encIdx.isLt
  unfold TxCrcCovers at *
  rw [h.encState, h.txCrc, h.poly, h.txCmd, h.encIdx]
  cases he : s.encState <;> simp only [he] at hs ⊢
  all_goals first
    | exact hs
    | rw [txBytes_congr (h.txbuf (by simp [he])) (by omega)]; exact hs

theorem acceptEnc_sequenced (b : Byte) {n : U16} (q : State) (h : n.toNat ≤ Config.nMax) :
    EncSequenced (acceptEnc b n q) := by
  unfold EncSequenced EncCounters
  simp only [Config.nMax] at h
  simp [payloadLength]
  omega

@[simp] theorem transmitTransfer_txbuf (s : State) (k : Nat) : (transmitTransfer s).txbuf k = s.txbuf k := by
  rw [transmitTransfer_fields]; rfl

@[simp] theorem transmitTransfer_txBytes (s : State) (n : Nat) : (transmitTransfer s).txBytes n = s.txBytes n := by
  rw [transmitTransfer_fields]; rfl

/-- TX_SENT never passes the length of the packet while the encoder runs. -/
theorem EncSequenced.txSent_lt {s : State} (h : EncSequenced s) (hne : s.encState ≠ .idle) :
    s.txSent.toNat < s.encN.toNat + 5 := by
  have h2 := h.2
  unfold EncCounters at h2
  cases he : s.encState <;> simp only [he] at h2 <;> first | omega | exact absurd he hne

theorem transmitTransfer_txSent {s : State} (hne : s.encState ≠ .idle) :
    (transmitTransfer s).txSent = s.txSent + 1 := by
  cases he : s.encState <;> simp [transmitTransfer, State.offer, he, emit, foldSent, completeEncode]
  exact absurd he hne

theorem transmitTransfer_sequenced {s : State} (h : EncSequenced s) : EncSequenced (transmitTransfer s) := by
  obtain ⟨h1, h2⟩ := h
  have hn := s.encN.isLt
  have hl := s.txLen.isLt
  unfold EncSequenced EncCounters at *
  cases he : s.encState
  all_goals simp only [he] at h1 h2
  case idle => rw [transmitTransfer_idle he]; simp [he]
  all_goals
    simp only [ne_eq, reduceCtorEq, not_false_eq_true, forall_const] at h1
    simp only [transmitTransfer, State.offer, he, foldSent, emit, completeEncode, State.nextEncState]
  · simp [h1]; omega
  · simp [h1]; omega
  · split
    · rename_i hz
      simp only [ne_eq, reduceCtorEq, not_false_eq_true, forall_const]
      exact ⟨h1, by simp [hz]; omega, BitVec.eq_of_toNat_eq (by simp [h2, hz])⟩
    · rename_i hz
      have := toNat_pos_of_ne_zero hz
      simp [h1]
      omega
  · have e : (s.encIdx + 1).toNat = s.encIdx.toNat + 1 := by simp; omega
    split
    · rename_i hz
      have hc : s.encIdx.toNat + 1 = s.encN.toNat := by rw [← e, hz]
      simp only [ne_eq, reduceCtorEq, not_false_eq_true, forall_const]
      exact ⟨h1, by simp; omega, hz⟩
    · rename_i hz
      have hc : s.encIdx.toNat + 1 ≠ s.encN.toNat := fun g => hz (BitVec.eq_of_toNat_eq (by rw [e, g]))
      simp [h1]
      omega
  · simp [h1, h2]; omega
  · simp [h1]

/-- TX_CRC goes on covering what was sent (R124). -/
theorem transmitTransfer_txCrcCovers {s : State} (hs : EncSequenced s) (h : TxCrcCovers s) :
    TxCrcCovers (transmitTransfer s) := by
  have hs2 := hs.2
  have hn := s.encN.isLt
  unfold TxCrcCovers at *
  simp only [transmitTransfer_txBytes]
  cases he : s.encState <;> simp only [he, EncCounters] at h hs2
  case idle => rw [transmitTransfer_idle he]; simp [he]
  case crcLo => simp [transmitTransfer, State.offer, he, emit, foldSent, completeEncode, State.nextEncState]
  case cmd =>
    simp only [transmitTransfer, State.offer, he, emit, foldSent, completeEncode, State.nextEncState, State.fold]
    have key : crcStep s.poly s.txCrc s.txCmd = crc16 s.poly (s.txCmd :: s.txBytes s.encIdx.toNat) := by
      simp [hs2, h, State.txBytes, crc16, crcFrom, Config.crcInit]
    split
    all_goals (rename_i hh; split at hh <;> cases hh <;> exact key)
  case data =>
    simp only [transmitTransfer, State.offer, he, emit, foldSent, completeEncode, State.nextEncState, State.fold]
    have key : crcStep s.poly s.txCrc (s.txbuf s.encIdx.toNat) =
        crc16 s.poly (s.txCmd :: s.txBytes (s.encIdx + 1).toNat) := by
      have e : (s.encIdx + 1).toNat = s.encIdx.toNat + 1 := by simp; omega
      rw [e, txBytes_succ, ← List.cons_append, crc16_snoc, h]
    split
    all_goals (rename_i hh; split at hh <;> cases hh <;> exact key)
  all_goals
    simp only [transmitTransfer, State.offer, he, emit, foldSent, completeEncode, State.nextEncState]
    exact h

/-! ### The packet as a list of offers -/

theorem writeUnit_snoc (l : List Byte) (x : Byte) :
    writeUnit (l ++ [x]) = l.map (fun b => (⟨b, false⟩ : TxByte)) ++ [⟨x, true⟩] := by
  induction l with
  | nil => rfl
  | cons a l ih =>
    cases l with
    | nil => rfl
    | cons c l => simp only [List.cons_append, writeUnit] at *; rw [ih]; rfl

/-- The packet's bytes with their marks, written out. -/
theorem markedPacket_eq (poly : U16) (c : Byte) (d : List Byte) :
    markedPacket poly c d =
      ⟨hi8 (BitVec.ofNat 16 (3 + d.length)), false⟩ :: ⟨lo8 (BitVec.ofNat 16 (3 + d.length)), true⟩ :: ⟨c, false⟩ ::
        (d.map (fun b => (⟨b, false⟩ : TxByte)) ++
          [⟨hi8 (crc16 poly (c :: d)), false⟩, ⟨lo8 (crc16 poly (c :: d)), true⟩]) := by
  have h : encodePayload poly c d = (c :: d ++ [hi8 (crc16 poly (c :: d))]) ++ [lo8 (crc16 poly (c :: d))] := by
    simp [encodePayload]
  rw [markedPacket, h, writeUnit_snoc]
  simp [writeUnit, lengthBytes]

/-- The byte on offer is the packet's byte number TX_SENT (R122, R127). -/
theorem offer_eq_packet_byte {s : State} (hs : EncSequenced s) (hc : TxCrcCovers s) (hne : s.encState ≠ .idle) :
    (markedPacket s.poly s.txCmd (s.txBytes s.encN.toNat))[s.txSent.toNat]? = s.offer := by
  obtain ⟨h1, h2⟩ := hs
  have h1 := (h1 hne).1
  have hl := length_txBytes s s.encN.toNat
  have hL : BitVec.ofNat 16 (3 + s.encN.toNat) = s.txLen := by rw [← h1]; simp
  rw [markedPacket_eq, hl, hL]
  unfold EncCounters at h2
  unfold TxCrcCovers at hc
  cases he : s.encState <;> simp only [he] at h2 hc
  · exact absurd he hne
  · simp [h2, State.offer, he]
  · simp [h2, State.offer, he]
  · simp [h2, State.offer, he]
  · rw [h2.1, show 3 + s.encIdx.toNat = s.encIdx.toNat + 1 + 1 + 1 by omega]
    simp only [State.offer, he, List.getElem?_cons_succ]
    rw [List.getElem?_append_left (by simp [hl]; exact h2.2)]
    simp [State.txBytes, h2.2]
  · rw [h2.1, show 3 + s.encN.toNat = s.encN.toNat + 1 + 1 + 1 by omega]
    simp only [State.offer, he, List.getElem?_cons_succ]
    rw [List.getElem?_append_right (by simp [hl])]
    simp [hl, hc, h2.2]
  · rw [h2.1, show 4 + s.encN.toNat = s.encN.toNat + 1 + 1 + 1 + 1 by omega]
    simp only [State.offer, he, List.getElem?_cons_succ]
    rw [List.getElem?_append_right (by simp [hl])]
    simp [hl, hc, h2.2]

/-! ### The decoder -/

theorem DecSame.sequenced {r s : State} (h : DecSame r s) (hs : DecSequenced s) : DecSequenced r := by
  unfold DecSequenced at *
  rw [h.decState, h.rxLen, h.rxDlen, h.rxRcvd, h.rxResult]
  obtain ⟨h1, h2, h3, h4, h5⟩ := hs
  exact ⟨h1, h2, fun g => ⟨(h3 g).1, h.decDone (h3 g).2⟩, h4, h5⟩

theorem DecSame.rxCrcCovers {r s : State} (h : DecSame r s) (hs : RxCrcCovers s) : RxCrcCovers r := by
  unfold RxCrcCovers at *
  have := s.rxRcvd.isLt
  rw [h.rxCrc, h.poly, h.rxRcvd, h.rxCmd, rxBytes_congr h.rxbuf (by omega), h.rxbuf 0 (by omega)]
  exact hs

theorem DecSame.outcomeMeans {r s : State} (h : DecSame r s) (hs : OutcomeMeans s) : OutcomeMeans r := by
  unfold OutcomeMeans at *
  rw [h.rxCrc, h.rxRcvd, h.rxLen, h.rxResult, h.decState]
  exact hs

theorem receiveTransfer_sequenced (b : Byte) {s : State} (h : DecSequenced s) :
    DecSequenced (receiveTransfer b s) := by
  have h0 := h
  obtain ⟨h1, h2, h3, h4, h5⟩ := h
  rcases receiveTransfer_cases b s with ⟨_, e⟩ | ⟨g, _, e⟩ | ⟨g, _, e⟩ | ⟨g, gl, e⟩ <;> rw [e]
  · exact h0
  · simp_all [DecSequenced]
  · have := h4 g
    simp only [receiveSecond]
    split
    · rename_i hz; simp [DecSequenced, this, hz]
    · rename_i hz
      have := toNat_pos_of_ne_zero hz
      simp_all [DecSequenced]
  · have hr := s.rxLen.isLt
    have hk : (s.rxRcvd + 1).toNat = s.rxRcvd.toNat + 1 := by simp; omega
    simp only [receivePayload]
    split
    · simp only [DecSequenced, finish_decState, finish_rxDlen, storePayload_rxDlen, finish_rxLen, storePayload_rxLen,
        finish_rxRcvd, storePayload_rxRcvd, hk]
      exact ⟨h1, by omega, by simp, by simp, by simp⟩
    · simp only [DecSequenced, storePayload_decState, storePayload_rxDlen, storePayload_rxLen, storePayload_rxRcvd, hk, g]
      exact ⟨h1, by omega, fun _ => h3 (by simp [g]), by simp, fun _ => by omega⟩

/-- RXBUF after a payload byte (R146). -/
theorem receiveTransfer_rxbuf (b : Byte) {s : State} (h : s.decState = .pay) (hl : s.rxRcvd.toNat < s.rxLen.toNat)
    (k : Nat) : (receiveTransfer b s).rxbuf k = if k = s.rxRcvd.toNat then b else s.rxbuf k := by
  have hm := receiveTransfer_mem b s
  rw [if_pos ⟨h, hl⟩] at hm
  have he : (receiveTransfer b s).bufferEpoch = s.bufferEpoch := by rw [receiveTransfer_fields]
  rw [State.rxbuf, bufferByte_of_write hm he]
  simp [State.rxbuf]

/-- RX_CRC goes on covering what was received (R146). -/
theorem receiveTransfer_rxCrcCovers (b : Byte) {s : State} (h : RxCrcCovers s) :
    RxCrcCovers (receiveTransfer b s) := by
  rcases receiveTransfer_cases b s with ⟨_, e⟩ | ⟨g, _, e⟩ | ⟨g, _, e⟩ | ⟨g, gl, e⟩
  · rw [e]; exact h
  · rw [e]; exact h
  · rw [e]; simp only [receiveSecond]; split <;> exact h
  · have hr := s.rxLen.isLt
    have hk : (s.rxRcvd + 1).toNat = s.rxRcvd.toNat + 1 := by simp; omega
    have hrx := receiveTransfer_rxbuf b g gl
    have nz : ¬ (s.rxRcvd + 1 = 0) := by intro hh; rw [hh] at hk; simp at hk
    have ff : (receiveTransfer b s).poly = s.poly ∧ (receiveTransfer b s).rxCrc = crcStep s.poly s.rxCrc b ∧
        (receiveTransfer b s).rxRcvd = s.rxRcvd + 1 ∧
        (receiveTransfer b s).rxCmd = (if s.rxRcvd = 0 then b else s.rxCmd) := by
      rw [e]; simp only [receivePayload]; split <;> simp
    unfold RxCrcCovers
    rw [ff.1, ff.2.1, ff.2.2.1, ff.2.2.2, hk, if_neg nz, rxBytes_succ, crc16_snoc]
    refine ⟨?_, ?_⟩
    · rw [h.1, Nat.zero_add, hrx, if_pos rfl]
      congr 2
      refine List.map_congr_left fun k hk => ?_
      have := List.mem_range.mp hk
      rw [hrx, if_neg (by omega)]
    · rw [hrx]
      by_cases hz : s.rxRcvd = 0
      · simp [hz]
      · have := toNat_pos_of_ne_zero hz
        rw [h.2, if_neg hz, if_neg hz, if_neg (by omega)]

/-- A receive transfer leaves RX_RESULT true to its meaning (R30, R150). -/
theorem receiveTransfer_outcomeMeans (b : Byte) {s : State} (hd : DecSequenced s) (h : OutcomeMeans s) :
    OutcomeMeans (receiveTransfer b s) := by
  obtain ⟨h1, h2, h3, h4, h5⟩ := hd
  rcases receiveTransfer_cases b s with ⟨_, e⟩ | ⟨g, _, e⟩ | ⟨g, _, e⟩ | ⟨g, gl, e⟩ <;> rw [e]
  · exact h
  · exact h
  · have h3' := h3 (by simp [g])
    simp only [receiveSecond]
    split <;> simp_all [OutcomeMeans]
  · have h3' := h3 (by simp [g])
    have hr := s.rxLen.isLt
    have hk : (s.rxRcvd + 1).toNat = s.rxRcvd.toNat + 1 := by simp; omega
    simp only [receivePayload]
    split
    · rename_i hh
      have e1 : s.rxRcvd + 1 = s.rxLen := BitVec.eq_of_toNat_eq (by rw [hk]; exact hh)
      have hl : s.rxLen ≠ 0 := by intro hz; rw [hz] at gl; simp at gl
      unfold OutcomeMeans
      by_cases hc : crcStep s.poly s.rxCrc b = 0#16
      · simp [hc]; exact ⟨hl, e1⟩
      · simp [hc]; exact ⟨hl, e1⟩
    · unfold OutcomeMeans; simp [h3', g]

end Sys2Proof.Machine
end

