-- ==== Sys2Proof/Laws/PerInstr.lean ====
section
/-! SUPPORT. Statements made of every instruction, one lemma a constructor. -/
namespace Sys2Proof.Laws.TableRow
open Sys2Proof

/-- The unit an instruction encodes to selects its own row of the opcode table and no other (R73, R85). -/
def Statement (i : Instr) : Prop := selectedRows (encode i) = [i.mnemonic]

theorem nop : Statement .nop := by unfold Statement; decide

theorem crcClr : Statement .crcClr := by unfold Statement; decide

/-- The operand byte is outside CRC_BYTE's mask. -/
theorem crcByte (b : Byte) : Statement (.crcByte b) := by
  revert b; unfold Statement; decide

/-- An ENC word is the byte `0x30` above its operands. -/
theorem encWord_eq (b : Byte) (n : U16) : commandWord 0x3 b n = (0x30 : Byte) ++ (b ++ n) := by
  rw [commandWord, BitVec.append_assoc]; rfl

/-- Under a mask that covers the whole top byte, an ENC word is told by that byte alone. -/
theorem encWord_top (b : Byte) (n : U16) (mask : BitVec 24) :
    (commandWord 0x3 b n &&& ((0xFF : Byte) ++ mask)).extractLsb' 24 8 = 0x30 := by
  rw [encWord_eq, BitVec.and_append]
  exact BitVec.extractLsb'_append_eq_left ..

/-- The operands are outside ENC's mask, and the OP field tells ENC from every other row. -/
theorem enc (b : Byte) (n : U16) : Statement (.enc b n) := by
  have other (m : String) (p : Word) (mask : BitVec 24) (hp : p.extractLsb' 24 8 ≠ 0x30) :
      (⟨m, p, (0xFF : Byte) ++ mask⟩ : OpRow 32).selects (commandWord 0x3 b n) = false := by
    simp only [OpRow.selects, beq_eq_false_iff_ne]
    intro h
    exact hp (h ▸ encWord_top b n mask)
  have own : (⟨"ENC", 0x30000000, 0xFF000000⟩ : OpRow 32).selects (commandWord 0x3 b n) = true := by
    simp only [OpRow.selects, beq_iff_eq]
    rw [encWord_eq, show (0xFF000000 : Word) = (0xFF : Byte) ++ 0#24 from rfl, BitVec.and_append,
      show (b ++ n : BitVec 24) &&& 0#24 = 0#24 from BitVec.and_zero]
    rfl
  have h0 := other "NOP" 0x00000000 0xFFFFFF (by decide)
  have h1 := other "CRC_CLR" 0x10000000 0xFFFFFF (by decide)
  have h2 := other "CRC_BYTE" 0x20000000 0x00FFFF (by decide)
  have h4 := other "DEC" 0x40000000 0xFFFFFF (by decide)
  have e0 : (0xFF : Byte) ++ (0xFFFFFF : BitVec 24) = (0xFFFFFFFF : Word) := rfl
  have e2 : (0xFF : Byte) ++ (0x00FFFF : BitVec 24) = (0xFF00FFFF : Word) := rfl
  rw [e0] at h0 h1 h4
  rw [e2] at h2
  simp only [Statement, encode, selectedRows, commandRows, List.filter, h0, h1, h2, h4, own, List.map, Instr.mnemonic]

theorem dec : Statement .dec := by unfold Statement; decide

theorem ver : Statement .ver := by unfold Statement; decide

theorem bl : Statement .bl := by unfold Statement; decide

theorem next : Statement .next := by unfold Statement; decide

theorem frame : Statement .frame := by unfold Statement; decide

theorem retry : Statement .retry := by unfold Statement; decide

theorem done (d : Dir) : Statement (.done d) := by unfold Statement; cases d <;> decide

theorem msg : Statement .msg := by unfold Statement; decide

theorem date : Statement .date := by unfold Statement; decide

end Sys2Proof.Laws.TableRow
end

