-- ==== Sys2Proof/Laws/Run.lean ====
section
/-! SUPPORT. Runs under a given schedule, one move at a time. -/
namespace Sys2Proof.Machine

@[simp] theorem runMoves_nil (s : State) : runMoves [] s = .next (s.afterMove []) := rfl

/-- The first move of a run. -/
theorem runMoves_cons {m : Move} {ms : List Move} {s u : State} (h : perform m (s.afterMove ms) = .next u)
    (hs : u.schedule = ms) : runMoves (m :: ms) s = runMoves ms u := by
  have e : u = u.afterMove ms := by cases u; subst hs; rfl
  have h1 : Sys2Proof.core.step ({ s with schedule := m :: ms } : State) = .next u := h
  have h2 (M : Host.Core) (k : Nat) (x y : M.State) (hx : M.step x = .next y) : M.run (k + 1) x = M.run k y := by
    rw [Host.Core.run, hx]
  rw [runMoves, List.length_cons]
  refine (h2 Sys2Proof.core _ _ _ h1).trans ?_
  show Host.Core.run Sys2Proof.core ms.length u = Host.Core.run Sys2Proof.core ms.length (u.afterMove ms)
  rw [← e]

/-- Only the schedule a run is given counts, not the one in the state. -/
@[simp] theorem runMoves_afterMove (ms ns : List Move) (s : State) : runMoves ms (s.afterMove ns) = runMoves ms s := rfl

/-- A transmit move is a transmit transfer, whatever the command byte on offer is (R86). -/
theorem txTakeMove_eq (s : State) : txTakeMove s = .next (transmitTransfer s) := by
  unfold txTakeMove
  split
  · rename_i i h; exact exec_of_offeredCode h
  · rfl

/-- A receive move with a byte held and wanted is its receive transfer, whatever the byte is (R86). -/
theorem rdValidMove_eq {s : State} {b : Byte} {held : List Byte} (h : s.rxHeld = b :: held) (hw : 0 < s.want) :
    rdValidMove s = .next (receiveTransfer b (s.afterByte held)) := by
  unfold rdValidMove
  simp only [h]
  rw [if_neg (by omega)]
  split
  · rename_i i hi; exact exec_of_receivedCode hi _
  · rfl

/-- A receive move with nothing held, or nothing wanted, does nothing (R208, R210). -/
theorem rdValidMove_idle {s : State} (h : s.rxHeld = [] ∨ s.want = 0) : rdValidMove s = .next s := by
  unfold rdValidMove
  rcases h with h | h
  · simp [h]
  · split
    · rfl
    · simp [h]

end Sys2Proof.Machine
end

