-- ==== Sys2Proof/Tests/Slice0.lean ====
section
/-! SUPPORT. The model's own tests, every expected value taken from the spec (95_test_vectors.md and the examples of the
rules), and a witness for the hypotheses of each obligation. -/
namespace Sys2Proof.Tests
open Sys2Proof Sys2Proof.Machine

/-! ### Helpers -/

/-- The state a step answers, if it answers one. -/
def stateOf (o : Host.Outcome State Fault Refusal) : Option State :=
  match o with
  | .next t => some t
  | .fault _ => none
  | .refused _ => none

/-- The fault a step answers, if it answers one. -/
def faultOf (o : Host.Outcome State Fault Refusal) : Option Fault :=
  match o with
  | .next _ => none
  | .fault f => some f
  | .refused _ => none

/-- The state after one host operation. -/
def afterOp (op : HostOp) (s : State) : Option State := stateOf (hostOp op s)

/-- The state after one CMD write. -/
def afterWord (w : Word) (s : State) : Option State := afterOp (.write .b32 0x00000 w) s

/-- The value one read of a register or a buffer byte returns. -/
def valueAt (width : Width) (a : Addr) (s : State) : Option Word :=
  match afterOp (.read width a) s with
  | some t => (t.hostReads.getLast?).map (·.value)
  | none => none

/-- The encoder in a state, sending a one-byte BL packet whose data byte is `0x55`. -/
def sending (e : EncState) : State :=
  { State.reset with
    encState := e, encN := 1, txCmd := 0x02, txLen := 4, txCrc := 0xABCD, mem := [(0x10000, 0x55)] }

/-- The decoder waiting for a prefix byte. -/
def waiting (got : BitVec 1) (hi : Byte) (held : List Byte) : State :=
  { State.reset with decState := .len, decHave := got, decLhi := hi, rxHeld := held }

/-- The decoder receiving a payload of `n` bytes, `k` of them received. -/
def receiving (n k : U16) (held : List Byte) : State :=
  { State.reset with decState := .pay, rxLen := n, rxDlen := dataLength n, rxRcvd := k, rxHeld := held }

/-- One move from a state. -/
def afterMove (m : Move) (s : State) : Option State := stateOf (step { s with schedule := [m] })

/-! ### WellFormed refuses each ill-formed line (R77, R78) -/

theorem smoke_byte_operand : AsmLine.wf (.crcByte 0xFF) = true ∧ AsmLine.wf (.crcByte 0x100) = false ∧
    AsmLine.wf (.enc 0x100 0) = false := by decide

theorem smoke_length_operand : AsmLine.wf (.enc 0xFF 0xFFFF) = true ∧ AsmLine.wf (.enc 0x02 0x10000) = false := by decide

theorem smoke_addresses : AsmLine.wf (.wr 0x40000 0) = false ∧ AsmLine.wf (.rd 0x40000) = false ∧
    AsmLine.wf (.wrb 0x40000 0) = false ∧ AsmLine.wf (.rdb 0x40000) = false ∧ AsmLine.wf (.poll 0x40000 0 0) = false ∧
    AsmLine.wf (.rdb 0x3FFFF) = true := by decide

theorem smoke_values : AsmLine.wf (.wr 0x004 0x100000000) = false ∧ AsmLine.wf (.wrb 0x10000 0x100) = false ∧
    AsmLine.wf (.poll 0x004 0x100000000 0) = false ∧ AsmLine.wf (.poll 0x004 0 0x100000000) = false := by decide

/-- R78: `wrbuf` is accepted when each of its `wrb` is, past TXBUF too, up to the last host address. -/
theorem smoke_wrbuf : AsmLine.wf (.wrbuf 65535 [0xDE, 0xAD]) = true ∧ AsmLine.wf (.wrbuf 0x2FFFF [0xDE]) = true ∧
    AsmLine.wf (.wrbuf 0x2FFFF [0xDE, 0xAD]) = false ∧ AsmLine.wf (.wrbuf 0 [0xDE, 0x100]) = false := by decide

theorem smoke_crcStr : AsmLine.wf (.crcStr ['1', '2']) = true ∧ AsmLine.wf (.crcStr ['é']) = false := by decide

theorem smoke_refused_line_refuses_the_program : assemble [.nop, .enc 0x100 0] = none := by decide

/-- The packet format (R80, R81): too short, a wrong prefix, a wrong CRC. -/
theorem smoke_packets : wellFormedPacket 0x1021 [0x00, 0x03, 0x02, 0x20, 0x42] = true ∧
    wellFormedPacket 0x1021 [0x00, 0x02, 0x02, 0x20] = false ∧
    wellFormedPacket 0x1021 [0x00, 0x04, 0x02, 0x20, 0x42] = false ∧
    wellFormedPacket 0x1021 [0x00, 0x03, 0x02, 0x20, 0x43] = false := by decide

/-! ### Decoding: each constructor from a word written out from R70 to R73 and R85 -/

theorem test_decode_nop : decodeTableWord 32 0x00000000 = some .nop := by decide
theorem test_decode_crcClr : decodeTableWord 32 0x10000000 = some .crcClr := by decide
theorem test_decode_crcByte : decodeTableWord 32 0x20310000 = some (.crcByte 0x31) := by decide
theorem test_decode_enc : decodeTableWord 32 0x30040800 = some (.enc 0x04 2048) := by decide
theorem test_decode_dec : decodeTableWord 32 0x40000000 = some .dec := by decide
theorem test_decode_ver : decodeTableWord 8 0x01 = some .ver := by decide
theorem test_decode_bl : decodeTableWord 8 0x02 = some .bl := by decide
theorem test_decode_next : decodeTableWord 8 0x03 = some .next := by decide
theorem test_decode_frame : decodeTableWord 8 0x04 = some .frame := by decide
theorem test_decode_retry : decodeTableWord 8 0x05 = some .retry := by decide
theorem test_decode_done : decode (.wire .toHost 0x06) = .ok (.done .toHost) ∧
    decode (.wire .toDevice 0x06) = .ok (.done .toDevice) ∧ decodeTableWord 8 0x06 = some (.done .toHost) := ⟨rfl, rfl, rfl⟩
theorem test_decode_msg : decodeTableWord 8 0x07 = some .msg := by decide
theorem test_decode_date : decodeTableWord 8 0x08 = some .date := by decide

/-- W2, W4, W6, W7, W8, W12, W13: each kind of illegal word by its name. -/
theorem test_decode_illegal : decode (.word 0x00000001) = .error .strayOperand ∧
    decode (.word 0x10FF0000) = .error .strayOperand ∧ decode (.word 0x20AB0001) = .error .strayN ∧
    decode (.word 0x21000000) = .error .nonzeroZ ∧ decode (.word 0x3F020000) = .error .nonzeroZ ∧
    decode (.word 0x40000100) = .error .strayOperand ∧ decode (.word 0x50000000) = .error .reservedOp ∧
    decode (.word 0xF0000000) = .error .reservedOp := ⟨rfl, rfl, rfl, rfl, rfl, rfl, rfl, rfl⟩

/-- R86: `0x00` and `0x09` are no command of either direction, nor is a code in the direction R85 does not give it. -/
theorem test_decode_undefined_codes : decodeTableWord 8 0x00 = none ∧ decodeTableWord 8 0x09 = none ∧
    decode (.wire .toDevice 0x01) = .error .undefinedCode ∧ decode (.wire .toHost 0x02) = .error .undefinedCode ∧
    decodeTableWord 16 0x01 = none := ⟨by decide, by decide, rfl, rfl, by decide⟩

/-! ### The CRC function (95_test_vectors.md §2.1, R102) -/

/-- R102: entries of rows 00, 08, 38, 50 and 78. -/
theorem test_crc_table_low : crcTable 0x1021 0x00 = 0x0000 ∧ crcTable 0x1021 0x01 = 0x1021 ∧ crcTable 0x1021 0x0F = 0xF1EF ∧
    crcTable 0x1021 0x3D = 0xE7FE ∧ crcTable 0x1021 0x55 = 0x0A50 ∧ crcTable 0x1021 0x7F = 0x8F78 := by decide

/-- R102: entries of rows 80, A8, C0 and F8 (`T[AB]` is W5's, `T[FF]` V5's). -/
theorem test_crc_table_high : crcTable 0x1021 0x80 = 0x9188 ∧ crcTable 0x1021 0x87 = 0xE16F ∧ crcTable 0x1021 0xAB = 0x0481 ∧
    crcTable 0x1021 0xC6 = 0xB98A ∧ crcTable 0x1021 0xF8 = 0x6E17 ∧ crcTable 0x1021 0xFF = 0x1EF0 := by decide

/-- V6 to V10, and R108's example. -/
theorem test_crc_step : crcStep 0x1021 0x1234 0x56 = 0x3C40 ∧ crcStep 0x1021 0xFFFF 0xFF = 0xFF00 ∧
    crcStep 0x1021 0xABCD 0xAB = 0xCD00 ∧ crcStep 0x1021 0x8000 0x00 = 0x9188 ∧ crcStep 0x1021 0x00FF 0x00 = 0xFF00 ∧
    crcStep 0x1021 0x0000 0x31 = 0x2672 := by decide

/-- The running values of V1. -/
theorem test_crc_running : crcStep 0x1021 0x0000 0x31 = 0x2672 ∧ crcStep 0x1021 0x2672 0x32 = 0x20B5 ∧
    crcStep 0x1021 0x20B5 0x33 = 0x9752 ∧ crcStep 0x1021 0x9752 0x34 = 0xD789 ∧
    crcStep 0x1021 0xD789 0x35 = 0x546C ∧ crcStep 0x1021 0x546C 0x36 = 0x20E4 ∧
    crcStep 0x1021 0x20E4 0x37 = 0x86D6 ∧ crcStep 0x1021 0x86D6 0x38 = 0x9015 ∧
    crcStep 0x1021 0x9015 0x39 = 0x31C3 := by decide

/-- V1, the check value of R7. -/
theorem test_crc_check_value : crc16 0x1021 [0x31, 0x32, 0x33, 0x34, 0x35, 0x36, 0x37, 0x38, 0x39] = 0x31C3 := by
  simp only [crc16, crcFrom, List.foldl, test_crc_running]

/-- V2 to V5, V11, V12. -/
theorem test_crc16 : crc16 0x1021 [] = 0x0000 ∧ crc16 0x1021 [0x00, 0x00] = 0x0000 ∧ crc16 0x1021 [0x01] = 0x1021 ∧
    crc16 0x1021 [0xFF] = 0x1EF0 ∧ crc16 0x1021 [0x01, 0x06, 0x53, 0xF7] = 0x0000 ∧
    crc16 0x1021 [0x00, 0x03, 0x02, 0x20, 0x42] = 0x9BDC := by decide

/-! ### The command words: one CMD write each (95_test_vectors.md §2.2) -/

/-- W1, and R106's example. -/
theorem test_nop : (afterWord 0x00000000 { State.reset with crcAcc := 0x1234 }).map (fun t => (t.crcAcc, t.status)) =
    some (0x1234, 0) := by decide

/-- W3, R107's example. -/
theorem test_crcClr : (afterWord 0x10000000 { State.reset with crcAcc := 0x31C3 }).map (·.crcAcc) = some 0x0000 := by decide

/-- W5. -/
theorem test_crcByte : (afterWord 0x20AB0000 State.reset).map (fun t => (t.crcAcc, t.status)) = some (0x0481, 0) := by
  decide

/-- W10: the largest length. -/
theorem test_enc_accepted : (afterWord 0x3002FFFC State.reset).map (fun t => (t.txLen, t.txCmd, t.status)) =
    some (0xFFFF, 0x02, 0x00000001) := by decide

/-- W9 and W15: too long, and busy first. -/
theorem test_enc_rejected : (afterWord 0x3002FFFD State.reset).map (fun t => (t.txLen, t.status)) =
      some (0, 0x00000040) ∧
    (afterWord 0x3000FFFF (sending .data)).map (fun t => (t.txLen, t.status)) = some (4, 0x00000021) := by decide

/-- W11, W14. -/
theorem test_dec : (afterWord 0x40000000 State.reset).map (fun t => (t.rdRequests, t.status)) = some ([2], 0x00000002) ∧
    (afterWord 0x40000000 (waiting 1 0x00 [])).map (fun t => (t.decHave, t.status)) = some (1, 0x00000022) := by decide

/-- W2: an illegal word. -/
theorem test_illegal_word : (afterWord 0x00000001 State.reset).map (·.status) = some 0x00000010 := by decide

/-! ### The wire codes: one byte each, on the ports (R143 to R146, R122 to R125, R170 to R177) -/

/-- The first payload byte: RX_CMD, RX_RCVD, RX_CRC (`T` of the code, row 00 of R102) and `RXBUF[0]`. -/
def received (b : Byte) : Option (Byte × U16 × U16 × Byte) :=
  (afterMove .rdValid (receiving 3 0 [b])).map fun t => (t.rxCmd, t.rxRcvd, t.rxCrc, t.rxbuf 0)

theorem test_ver : received 0x01 = some (0x01, 1, 0x1021, 0x01) := by decide
theorem test_next : received 0x03 = some (0x03, 1, 0x3063, 0x03) := by decide
theorem test_retry : received 0x05 = some (0x05, 1, 0x50A5, 0x05) := by decide
theorem test_done_received : received 0x06 = some (0x06, 1, 0x60C6, 0x06) := by decide
theorem test_msg : received 0x07 = some (0x07, 1, 0x70E7, 0x07) := by decide

/-- The command byte taken: the stream, TX_CRC (`T` of the code) and the next state for a packet with no data (R129). -/
def sent (b : Byte) : Option (List TxByte × U16 × EncState) :=
  (afterMove .txTake { State.reset with encState := .cmd, txCmd := b, txLen := 3, txSent := 2 }).map fun t =>
    (t.txStream, t.txCrc, t.encState)

theorem test_bl : sent 0x02 = some ([⟨0x02, false⟩], 0x2042, .crcHi) := by decide
theorem test_frame : sent 0x04 = some ([⟨0x04, false⟩], 0x4084, .crcHi) := by decide
theorem test_done_sent : sent 0x06 = some ([⟨0x06, false⟩], 0x60C6, .crcHi) := by decide
theorem test_date : sent 0x08 = some ([⟨0x08, false⟩], 0x8108, .crcHi) := by decide

/-- R178: an undefined code is carried the same way, in both directions. -/
theorem test_undefined_code : received 0xFF = some (0xFF, 1, 0x1EF0, 0xFF) ∧
    sent 0xFF = some ([⟨0xFF, false⟩], 0x1EF0, .crcHi) := by decide

/-- A placed instruction is the one the very next step runs: CRC_BYTE `AB` (W5), VER and BL. -/
theorem test_withFetchWord :
    (stateOf (step (State.reset.withFetchWord 32 0x20AB0000))).map (·.crcAcc) = some 0x0481 ∧
      (stateOf (step (State.reset.withFetchWord 8 0x01))).map (fun t => (t.rxCmd, t.rxCrc)) = some (0x01, 0x1021) ∧
      (stateOf (step (State.reset.withFetchWord 8 0x02))).map (fun t => (t.txStream, t.txCrc)) =
        some ([⟨0x02, false⟩], 0x2042) := by decide

/-! ### The encoder's and the decoder's byte steps -/

/-- The bytes and marks of R122 outside CMD, with the counters of R124. -/
theorem test_encoder_steps :
    (afterMove .txTake (sending .lenLo)).map (fun t => (t.txStream, t.txCrc, t.encState)) =
        some ([⟨0x04, true⟩], 0xABCD, .cmd) ∧
      (afterMove .txTake { sending .data with txCrc := 0 }).map (fun t => (t.txStream, t.txCrc, t.encIdx, t.encState)) =
        some ([⟨0x55, false⟩], 0x0A50, 1, .crcHi) ∧
      (afterMove .txTake (sending .crcLo)).map (fun t => (t.txStream, t.status)) = some ([⟨0xCD, true⟩], 0x00000004) := by
  decide

/-- RX8 and the second prefix byte of RX1 (R144). -/
theorem test_decoder_prefix :
    (afterMove .rdValid (waiting 1 0x00 [0x00])).map (fun t => (t.rxResult, t.status)) = some (.empty, 0x00000008) ∧
      (afterMove .rdValid (waiting 1 0x00 [0x04])).map (fun t => (t.rxLen, t.rxDlen, t.rdRequests)) =
        some (4, 1, [4]) := by decide

/-- RX4, RX5, RX7, RX17: a timeout with a request outstanding, and with none. -/
theorem test_decoder_timeouts :
    (afterMove .rdTimeout (waiting 1 0x00 [0x04])).map (fun t => (t.rxResult, t.rxLen, t.rxHeld)) =
        some (.tmoLen, 0, [0x04]) ∧
      (afterMove .rdTimeout (receiving 4 0 [])).map (fun t => (t.rxResult, t.rxLen, t.rxDlen)) = some (.tmoPay, 4, 1) ∧
      (afterMove .rdTimeout State.reset).map (·.status) = some 0 := by decide

/-- X1 to X3: reset in the middle of an encode and of a decode. -/
theorem test_reset :
    (afterMove .reset { sending .data with txSent := 4, txStream := [⟨0x00, false⟩], crcAcc := 0x31C3 }).map
        (fun t => (t.encState, t.txSent, t.txStream, t.crcAcc)) = some (.idle, 0, [⟨0x00, false⟩], 0) ∧
      (afterMove .reset { receiving 4 2 [] with mem := [(0x20000, 0x01)], errLen := true }).map
        (fun t => (t.decState, t.rxResult, t.rxbuf 0, t.status)) = some (.idle, .none, 0x01, 0) := by decide

/-! ### The packet functions (95_test_vectors.md §2.3 and §2.4, the examples of R170 to R178) -/

/-- E1, E3, E4, E7, E8, E9. -/
theorem test_encode_vectors :
    encodePacket 0x1021 0x02 [] = [0x00, 0x03, 0x02, 0x20, 0x42] ∧
      encodePacket 0x1021 0x00 [] = [0x00, 0x03, 0x00, 0x00, 0x00] ∧
      encodePacket 0x1021 0x04 [0xDE, 0xAD, 0xBE, 0xEF] = [0x00, 0x07, 0x04, 0xDE, 0xAD, 0xBE, 0xEF, 0x4D, 0x51] ∧
      encodePacket 0x1021 0x07 [0x68, 0x69] = [0x00, 0x05, 0x07, 0x68, 0x69, 0xFA, 0x9C] ∧
      encodePacket 0x1021 0xFF [] = [0x00, 0x03, 0xFF, 0x1E, 0xF0] ∧
      encodePacket 0x1021 0x01 [0x00, 0x00, 0x00, 0x0A] =
        [0x00, 0x07, 0x01, 0x00, 0x00, 0x00, 0x0A, 0x0B, 0x1B] := by decide

/-- The `|` marks of E1. -/
theorem test_write_units : markedPacket 0x1021 0x02 [] =
    [⟨0x00, false⟩, ⟨0x03, true⟩, ⟨0x02, false⟩, ⟨0x20, false⟩, ⟨0x42, true⟩] := by decide

/-- RX1, RX2, RX3, RX5, RX6, RX8, RX12 to RX15. -/
theorem test_decode_vectors :
    decodeStream 0x1021 [0x00, 0x04, 0x01, 0x06, 0x53, 0xF7] = .ok 0x01 [0x06] ∧
      decodeStream 0x1021 [0x00, 0x04, 0x01, 0x07, 0x53, 0xF7] = .crcErr 0x3730 ∧
      decodeStream 0x1021 [0x00, 0x04, 0x01, 0x06, 0xF7, 0x53] = .crcErr 0x24D4 ∧
      decodeStream 0x1021 [0x00] = .tmoLen ∧ decodeStream 0x1021 [0x00, 0x04, 0x01, 0x06] = .tmoPay ∧
      decodeStream 0x1021 [0x00, 0x00] = .empty ∧ decodeStream 0x1021 [0x00, 0x01, 0x00] = .ok 0x00 [] ∧
      decodeStream 0x1021 [0x00, 0x01, 0x01] = .crcErr 0x1021 ∧
      decodeStream 0x1021 [0x00, 0x02, 0x02, 0x20] = .crcErr 0x4200 ∧
      decodeStream 0x1021 [0x00, 0x02, 0x00, 0x00] = .ok 0x00 [] := by decide

/-- RX16: the stream after the broken packet is read as a prefix, and every byte of it is consumed. -/
theorem test_desynchronisation :
    decodeStream 0x1021 [0x53, 0xF7, 0x00, 0x03, 0x03, 0x30, 0x63] = .tmoPay ∧
      decodeConsumes [0x53, 0xF7, 0x00, 0x03, 0x03, 0x30, 0x63] = 7 ∧
      decodeRequests [0x53, 0xF7, 0x00, 0x03, 0x03, 0x30, 0x63] = [2, 21495] := by decide

/-! ### Host accesses (95_test_vectors.md §2.5) -/

/-- HA1, HA2, HA7, HA9. -/
theorem test_host_reads : valueAt .b32 0x00008 { State.reset with crcAcc := 0x31C3 } = some 0x000031C3 ∧
    valueAt .b32 0x0003C State.reset = some 0 ∧ valueAt .b8 0x30000 State.reset = some 0 ∧
    valueAt .b32 0x00000 State.reset = some 0 := by decide

/-- HA3, HA6. -/
theorem test_host_writes_ignored : (afterOp (.write .b32 0x00008 0x1234) State.reset).map (·.crcAcc) = some 0 ∧
    (afterOp (.write .b8 0x20000 0xAA) State.reset).map (·.mem) = some [] := by decide

/-- HA4, HA5. -/
theorem test_txbuf_write : (afterOp (.write .b8 0x10005 0xAA) State.reset).map (·.txbuf 5) = some 0xAA ∧
    (afterOp (.write .b8 0x10000 0xAA) (sending .data)).map (·.txbuf 0) = some 0x55 := by decide

/-- HA8. -/
theorem test_bus_access_fault : faultOf (hostOp (.read .b16 0x10000) State.reset) = some (.busAccessFault 0x10000 .b16) ∧
    faultOf (hostOp (.read .b32 0x00006) State.reset) = some (.busAccessFault 0x00006 .b32) ∧
    faultOf (hostOp (.write .b8 0x00004 0) State.reset) = some (.busAccessFault 0x00004 .b8) ∧
    faultOf (hostOp (.write .b32 0x10000 0) State.reset) = some (.busAccessFault 0x10000 .b32) := by decide

/-- W16. -/
theorem test_status_clear : (afterOp (.write .b32 0x00004 0x7C)
      { sending .data with encDone := true, decDone := true, errIllegal := true, errBusy := true, errLen := true }).map
    (·.status) = some 0x00000001 := by decide

/-- Writing a byte twice keeps one entry, and the list stays sorted. -/
theorem test_memory_form : ((Memory.write [(0x10002, 0x01)] 0x10001 0x02).write 0x10002 0x03) =
    [(0x10001, 0x02), (0x10002, 0x03)] := by decide

/-! ### Assembling (R77, R78) -/

/-- P1's first lines, P2's `wrbuf`, and `clr`. -/
theorem test_assemble : assemble [.crcClr, .crcByte 0x31] =
      some [.write .b32 0x00000 0x10000000, .write .b32 0x00000 0x20310000] ∧
    assemble [.crcStr ['1', '2']] = some [.write .b32 0x00000 0x20310000, .write .b32 0x00000 0x20320000] ∧
    assemble [.wrbuf 0 [0xDE, 0xAD], .enc 0x04 4, .clr] =
      some [.write .b8 0x10000 0xDE, .write .b8 0x10001 0xAD, .write .b32 0x00000 0x30040004,
        .write .b32 0x00004 0x0000007C] ∧
    assemble [.poll 0x004 0x5 0x4, .rd 0x00C] = some [.poll 0x00004 0x5 0x4, .read .b32 0x0000C] := by decide

/-! ### Witnesses: for each obligation with hypotheses, inputs that meet them, at the ends of each clause's range -/

/-- A host about to perform one operation. -/
def hostNext (op : HostOp) : State := { State.reset with schedule := [.host], hostProgram := [op] }

theorem witness_EncodeOfDecodeIsTheUnit : decode (.word 0x3002FFFC) = .ok (.enc 0x02 0xFFFC) ∧
    decode (.wire .toDevice 0x06) = .ok (.done .toDevice) := ⟨rfl, rfl⟩

theorem witness_AssemblerWritesTheEncodedWord : AsmLine.wf (.enc 0xFF 0xFFFF) = true ∧ AsmLine.wf (.crcByte 0xFF) = true ∧
    (0xFF < 0x100 ∨ 0xFFFF < 0) ∧ (0xFF < 0 ∨ 0xFFFF < 0x10000) := by decide

/-- The last value of each operand, and a `wrbuf` that runs on past TXBUF. -/
theorem witness_PseudoInstructionsExpandToHostAccesses : 0x3FFFF < 2 ^ 18 ∧ 0xFFFFFFFF < 2 ^ 32 ∧ 0xFF < 2 ^ 8 ∧
    (∀ c ∈ ['1', '~'], c.toNat < 128) ∧
    assemble [.wrbuf 65535 [0xDE, 0xAD]] = some [.write .b8 0x1FFFF 0xDE, .write .b8 0x20000 0xAD] :=
  ⟨by omega, by omega, by omega, by simp, by decide⟩

theorem witness_CrcTableIsEightRoundsAndLinear : step State.reset = .next State.reset := rfl

theorem witness_CrcDetectsOneByteErrorForOddPoly : Config.defaultPoly.getLsbD 0 = true ∧ (0x00 : Byte) ≠ 0x01 := by decide

theorem witness_CrcDetectsOneByteErrorForNonzeroPoly : (0x8000 : U16) ≠ 0 ∧ (0x00 : Byte) ≠ 0x03 := by decide

theorem witness_EncAcceptedWhenIdleAndFits : State.reset.encState = .idle ∧ (0 : U16).toNat ≤ 65532 ∧
    (0xFFFC : U16).toNat ≤ 65532 := by decide

theorem witness_RejectedCommandsSetOneErrorBit :
    (decode (.word 0x50000000) = .error .reservedOp ∧ decode (.word 0x01000000) = .error .nonzeroZ ∧
      decode (.word 0x40000001) = .error .strayOperand ∧ decode (.word 0x20008000) = .error .strayN) ∧
    (decode (.word 0x3000FFFF) = .ok (.enc 0x00 0xFFFF) ∧ decode (.word 0x30FFFFFD) = .ok (.enc 0xFF 0xFFFD) ∧
      decode (.word 0x40000000) = .ok .dec) ∧
    ((sending .lenHi).encState ≠ .idle ∧ (sending .crcLo).encState ≠ .idle ∧ (waiting 0 0 []).decState ≠ .idle ∧
      State.reset.encState = .idle ∧ 65532 < (0xFFFD : U16).toNat ∧ 65532 < (0xFFFF : U16).toNat) :=
  ⟨⟨rfl, rfl, rfl, rfl⟩, ⟨rfl, rfl, rfl⟩, by decide⟩

theorem witness_DecAcceptedWhenIdleElseRejected : State.reset.decState = .idle ∧ (waiting 0 0 []).decState ≠ .idle ∧
    (receiving 3 2 []).decState ≠ .idle := by decide

theorem witness_DeviceToHostCodesAreReceived : ∀ n : U16, n = 1 ∨ n = 3 ∨ n = 0xFFFF →
    (receiving n 0 []).decState = .pay ∧ (receiving n 0 []).rxRcvd = 0 ∧ (receiving n 0 []).rxLen ≠ 0 ∧
      (Instr.done .toHost, (0x06 : Byte)) ∈ [(Instr.ver, (0x01 : Byte)), (.next, 0x03), (.retry, 0x05), (.done .toHost, 0x06),
        (.msg, 0x07)] := by
  rintro n (rfl | rfl | rfl) <;> decide

theorem witness_HostToDeviceCodesAreSent : (sending .cmd).encState = .cmd ∧ (sending .cmd).txCmd = 0x02 ∧
    (Instr.bl, (0x02 : Byte)) ∈ [(Instr.bl, (0x02 : Byte)), (.frame, 0x04), (.done .toDevice, 0x06), (.date, 0x08)] := by decide

theorem witness_SendWordStartsItsPacket : State.reset.encState = .idle ∧ (0xFFFC : U16).toNat ≤ 65532 := by decide

theorem witness_CrcUnitFrame : exec (.crcByte 0x31) State.reset =
    .next { State.reset with crcAcc := crcStep 0x1021 0 0x31 } ∧ ∃ b, Instr.crcByte 0x31 = .crcByte b := ⟨rfl, 0x31, rfl⟩

theorem witness_EncFrame : exec (.enc 0x02 0) State.reset = .next (acceptEnc 0x02 0 State.reset) ∧
    exec (.enc 0x02 0) (sending .cmd) = .next (rejectBusy (sending .cmd)) ∧
    exec (.enc 0x02 0xFFFD) State.reset = .next (rejectLength State.reset) := ⟨rfl, rfl, rfl⟩

theorem witness_DecFrame : exec .dec State.reset = .next (acceptDec State.reset) ∧
    exec .dec (receiving 3 0 []) = .next (rejectBusy (receiving 3 0 [])) := ⟨rfl, rfl⟩

theorem witness_ReceivedCodeFrame : exec .ver (receiving 3 0 []) = .next (receiveTransfer 0x01 (receiving 3 0 [])) ∧
    exec .ver State.reset = .next State.reset ∧ State.reset.want = 0 ∧ (waiting 0 0 []).decState ≠ .pay :=
  ⟨rfl, rfl, rfl, by decide⟩

theorem witness_SentCodeFrame : exec .bl (sending .cmd) = .next (transmitTransfer (sending .cmd)) ∧
    exec .bl State.reset = .next State.reset := ⟨rfl, rfl⟩

/-- The three places a step finds an instruction: a CMD write, the first payload byte, the byte on offer in CMD. -/
theorem witness_StepRunsTheDecodedInstruction :
    ((hostNext (.write .b32 0x00000 0x40000000)).schedule = [.host] ∧ decode (.word 0x40000000) = .ok .dec) ∧
      ((receiving 1 0 [0x07]).rxHeld = [0x07] ∧ (receiving 1 0 [0x07]).rxLen ≠ 0 ∧
        decode (.wire .toHost 0x07) = .ok .msg) ∧
      ((sending .cmd).encState = .cmd ∧ decode (.wire .toDevice (sending .cmd).txCmd) = .ok .bl) :=
  ⟨⟨rfl, rfl⟩, ⟨rfl, by decide, rfl⟩, rfl, rfl⟩

theorem witness_TransmitTransferInEachState : ∀ e : EncState,
    ({ sending e with schedule := [.txTake] } : State).schedule = [.txTake] ∧ (sending e).encState = e := fun _ => ⟨rfl, rfl⟩

theorem witness_PrefixBytesGiveTheLength :
    ((waiting 0 0 [0x00]).rxHeld = [0x00] ∧ (waiting 0 0 [0x00]).decState = .len ∧ (waiting 0 0 [0x00]).decHave = 0) ∧
      ((waiting 1 0x00 [0x00]).decHave = 1 ∧ (waiting 1 0x00 [0x00]).decLhi ++ (0x00 : Byte) = (0 : U16)) ∧
      ((waiting 1 0x00 [0x01]).decLhi ++ (0x01 : Byte) ≠ (0 : U16) ∧
        (waiting 1 0xFF [0xFF]).decLhi ++ (0xFF : Byte) ≠ (0 : U16)) := by decide

/-- The first, a middle and the last byte of a payload. -/
theorem witness_PayloadByteIsStoredAndFolded : ∀ k : U16, k = 0 ∨ k = 1 ∨ k = 0xFFFE →
    (receiving 0xFFFF k [0x02]).rxHeld = [0x02] ∧ (receiving 0xFFFF k [0x02]).decState = .pay ∧
      (receiving 0xFFFF k [0x02]).rxRcvd.toNat < (receiving 0xFFFF k [0x02]).rxLen.toNat := by
  rintro k (rfl | rfl | rfl) <;> decide

theorem witness_TimeoutEndsTheOutstandingRead : (waiting 1 0 []).decState = .len ∧ (receiving 1 0 []).decState = .pay ∧
    (receiving 1 0 []).rxRcvd.toNat < (receiving 1 0 []).rxLen.toNat ∧ State.reset.want = 0 := by decide

theorem witness_EveryCommandByteIsCarriedAlike : (receiving 3 0 [0xFF]).rxHeld = [0xFF] ∧
    0 < (receiving 3 0 [0xFF]).want ∧ 0 < (waiting 1 0 []).want := by decide

theorem witness_TransportKeepsOrFlushesItsBytes : State.reset.decState = .idle ∧ State.reset.want = 0 ∧
    (waiting 0 0 [0x00]).decState = .len ∧ (waiting 0 0 []).want = 2 ∧ (waiting 1 0 []).want = 1 ∧ (receiving 4 3 []).want = 1 ∧
    (receiving 4 3 []).decState = .pay ∧ (receiving 4 3 []).rxRcvd.toNat < (receiving 4 3 []).rxLen.toNat := by decide

/-- Both sides of each bound: admitted, and not. -/
theorem witness_BusAccessFaultExactlyWhenNotAdmitted :
    ((0x0FFFC : Addr).toNat < 0x10000 ∧ (0x0FFFC : Addr).toNat % 4 = 0) ∧ 0x10000 ≤ (0x10000 : Addr).toNat ∧
      0x10000 ≤ (0x3FFFF : Addr).toNat ∧ ¬ (0x0FFFE : Addr).toNat % 4 = 0 ∧ ¬ (0x10000 : Addr).toNat < 0x10000 ∧
      ¬ 0x10000 ≤ (0x0FFFF : Addr).toNat := by decide

/-- The first and the last offset of the list, and RX_RESULT's. -/
theorem witness_RegisterReadsReturnTheirFields : ∀ p : Addr × Word,
    p = (0x000, 0) ∨ p = (0x034, 2) ∨ p = (0x020, 0) →
    p ∈ (let s := receiving 4 2 []
      [((0x000 : Addr), (0 : Word)), (0x008, s.crcAcc.setWidth 32), (0x00C, s.txLen.setWidth 32),
      (0x010, s.txCmd.setWidth 32), (0x014, s.txCrc.setWidth 32), (0x018, s.txSent.setWidth 32),
      (0x024, s.rxLen.setWidth 32), (0x028, s.rxCmd.setWidth 32), (0x02C, s.rxDlen.setWidth 32),
      (0x030, s.rxCrc.setWidth 32), (0x034, s.rxRcvd.setWidth 32),
      (0x020, match s.rxResult with | .none => 0 | .ok => 1 | .crcErr => 2 | .empty => 3 | .tmoLen => 4 | .tmoPay => 5)]) := by
  rintro p (rfl | rfl | rfl) <;> decide

theorem witness_UnmappedReadsZeroAndIgnoresWrites : 0x30000 ≤ (0x30000 : Addr).toNat ∧ 0x30000 ≤ (0x3FFFF : Addr).toNat ∧
    ((0x01C : Addr).toNat % 4 = 0 ∧ (0x01C : Addr).toNat = 0x01C) ∧
    ((0x038 : Addr).toNat % 4 = 0 ∧ 0x034 < (0x038 : Addr).toNat) ∧
    ((0x0FFFC : Addr).toNat < 0x10000 ∧ (0x0FFFC : Addr).toNat % 4 = 0) := by decide

theorem witness_ReadOnlyTargetsIgnoreWrites :
    (0x00008 : Addr).toNat % 4 = 0 ∧ 0x004 < (0x00008 : Addr).toNat ∧ (0x0FFFC : Addr).toNat < 0x10000 ∧
      0x20000 ≤ (0x20000 : Addr).toNat ∧ (0x2FFFF : Addr).toNat < 0x30000 := by decide

theorem witness_TxbufWriteStoredUnlessEncBusy : 0x10000 ≤ (0x10000 : Addr).toNat ∧ (0x1FFFF : Addr).toNat < 0x20000 ∧
    (sending .data).encState ≠ .idle ∧ State.reset.encState = .idle ∧
    valueAt .b8 0x10000 (sending .data) = some 0x55 := by decide

theorem witness_HostReadsHaveNoSideEffect : hostOp (.read .b32 0x00004) State.reset =
      .next (logRead .b32 0x00004 0 State.reset) ∧
    hostOp (.read .b8 0x3FFFF) State.reset = .next (logRead .b8 0x3FFFF 0 State.reset) := ⟨rfl, rfl⟩

/-- P2's `poll 0x004, 0x5, 0x4`: over when ENC_DONE alone is set, and not at reset. -/
theorem witness_PollRepeatsUntilTheMaskedValue :
    (readValue .b32 0x004 { State.reset with encDone := true } = some 0x4 ∧ (0x4 : Word) &&& 0x5 = 0x4) ∧
      (readValue .b32 0x004 State.reset = some 0x0 ∧ (0x0 : Word) &&& 0x5 ≠ 0x4) := by decide

theorem witness_ResetInputRestoresTheResetState :
    ({ sending .data with schedule := [.reset] } : State).schedule = [.reset] ∧
      ({ sending .data with schedule := [.powerOn] } : State).schedule = [.powerOn] := ⟨rfl, rfl⟩

/-- Both units in the middle of a packet: BL on its way out, its command byte next, and a NEXT on its way in. -/
def midway (m : Move) : State :=
  { State.reset with
    encState := .cmd, txCmd := 0x02, txLen := 3, txSent := 2, txStream := [⟨0x00, false⟩, ⟨0x03, true⟩]
    decState := .pay, rxLen := 3, rxHeld := [0x03, 0x30, 0x63], schedule := [m] }

theorem midway_sequenced (m : Move) : Sequenced (midway m) where
  memory := rfl
  encoder := ⟨fun _ => ⟨rfl, rfl⟩, rfl, rfl⟩
  decoder := ⟨rfl, by simp [midway, State.reset], fun _ => ⟨rfl, rfl⟩, by simp [midway], by simp [midway, State.reset]⟩

theorem midway_residues (m : Move) : Residues (midway m) where
  transmit := rfl
  receive := ⟨rfl, rfl⟩
  outcome := by simp [OutcomeMeans, midway, State.reset]

theorem midway_stream (m : Move) : StreamCarriesPacket (midway m) := fun _ => ⟨[], by
  show [⟨0x00, false⟩, ⟨0x03, true⟩] = [] ++ List.take 2 (markedPacket 0x1021 0x02 [])
  decide⟩

theorem witness_StepKeepsTheUnitsSequenced : Sequenced (midway .rdValid) ∧
    (stateOf (step (midway .rdValid))).isSome = true ∧ Sequenced (midway .txTake) ∧
    (stateOf (step (midway .txTake))).isSome = true :=
  ⟨midway_sequenced _, by decide, midway_sequenced _, by decide⟩

theorem witness_StepKeepsTheResidues : Sequenced (midway .rdValid) ∧ Residues (midway .rdValid) ∧
    (stateOf (step (midway .rdValid))).isSome = true := ⟨midway_sequenced _, midway_residues _, by decide⟩

theorem witness_StepKeepsTheStreamOnItsPacket : Sequenced (midway .txTake) ∧ Residues (midway .txTake) ∧
    StreamCarriesPacket (midway .txTake) ∧ (stateOf (step (midway .txTake))).isSome = true :=
  ⟨midway_sequenced _, midway_residues _, midway_stream _, by decide⟩

/-- BL's last byte on offer: TX_CRC is `T[02]` and the four bytes before it are on the stream (E1's trace). -/
def lastByte : State :=
  { State.reset with
    encState := .crcLo, txCmd := 0x02, txLen := 3, txSent := 4, txCrc := 0x2042
    txStream := [⟨0x00, false⟩, ⟨0x03, true⟩, ⟨0x02, false⟩, ⟨0x20, false⟩], schedule := [.txTake] }

theorem witness_CompletedEncodeHasSentItsPacket : Sequenced lastByte ∧ Residues lastByte ∧ StreamCarriesPacket lastByte ∧
    lastByte.encState ≠ .idle ∧ (stateOf (step lastByte)).map (·.encDone) = some true := by
  refine ⟨⟨rfl, ⟨fun _ => ⟨rfl, rfl⟩, rfl, rfl⟩, ⟨rfl, by decide, ?_, ?_, ?_⟩⟩, ⟨?_, ⟨rfl, rfl⟩, ?_⟩, fun _ => ⟨[], ?_⟩, ?_, ?_⟩
  · simp [lastByte, State.reset]
  · simp [lastByte, State.reset]
  · simp [lastByte, State.reset]
  · show (0x2042 : U16) = crc16 0x1021 [0x02]
    decide
  · simp [OutcomeMeans, lastByte, State.reset]
  · show lastByte.txStream = [] ++ List.take 4 (markedPacket 0x1021 0x02 [])
    decide
  · decide
  · decide

/-- Each way a sticky bit may be cleared, and a step that clears none. -/
theorem witness_StickyBitsClearedOnlyAsStated :
    (stateOf (step { midway .reset with errLen := true })).map (·.errLen) = some false ∧
      (stateOf (step { hostNext (.write .b32 0x00004 0x7C) with errLen := true })).map (·.errLen) = some false ∧
      (stateOf (step { hostNext (.write .b32 0x00000 0x40000000) with decDone := true })).map
        (fun t => (t.decDone, t.decState)) = some (false, .len) ∧
      (stateOf (step { midway .txTake with errLen := true })).map (·.errLen) = some true := by decide

theorem witness_FinishedDecodeIsFinal : State.reset.decState = .idle ∧
    (stateOf (step (hostNext (.write .b8 0x10000 0xAA)))).map (·.decState) = some .idle := by decide

theorem witness_TxbufHeldWhileEncBusy : (midway .rdValid).encState ≠ .idle ∧
    (stateOf (step (midway .rdValid))).isSome = true ∧ (stateOf (step (midway .reset))).isSome = true := by decide

theorem witness_CrcAccWrittenOnlyByItsCommands :
    (stateOf (step (hostNext (.write .b32 0x00000 0x20310000)))).map (·.crcAcc) = some 0x2672 ∧
      (hostNext (.write .b32 0x00000 0x20310000)).crcAcc = 0x0000 := by decide

theorem witness_PortMovesStayInTheirUnit : (stateOf (step (midway .txTake))).isSome = true ∧
    (stateOf (step (midway .rdValid))).isSome = true ∧ (stateOf (step (midway .rdTimeout))).isSome = true := by decide

theorem witness_TransmitStreamOnlyGrows : (stateOf (step (midway .txTake))).map (·.txStream) =
    some [⟨0x00, false⟩, ⟨0x03, true⟩, ⟨0x02, false⟩] := by decide

/-- A run that ends everything: the decoder's request times out, BL's last byte is taken, and the host performs the one
operation it has; from then on the host has none left. -/
def endingMoves : Nat → Move
  | 0 => .rdTimeout
  | 1 => .txTake
  | _ => .host

/-- The states of that run. -/
def endingStates : Nat → State
  | 0 => { lastByte with decState := .len, hostProgram := [.flush], schedule := [] }
  | 1 => { lastByte with rxResult := .tmoLen, decDone := true, hostProgram := [.flush], schedule := [] }
  | 2 => { lastByte with
      rxResult := .tmoLen, decDone := true, hostProgram := [.flush], schedule := [], encState := .idle, encDone := true
      txSent := 5, txStream := lastByte.txStream ++ [⟨0x42, true⟩] }
  | _ => { lastByte with
      rxResult := .tmoLen, decDone := true, hostProgram := [], schedule := [], encState := .idle, encDone := true
      txSent := 5, txStream := lastByte.txStream ++ [⟨0x42, true⟩] }

theorem ending_run : IsRun endingStates endingMoves
  | 0 | 1 | 2 | _ + 3 => rfl

theorem ending_duty : EndsEveryRequest endingStates endingMoves
  | 0, h => ⟨0, le_refl 0, h, trivial⟩
  | 1, h | 2, h | _ + 3, h => absurd h (Nat.lt_irrefl 0)

theorem ending_fair : FairRun endingStates endingMoves where
  run := ending_run
  endsEveryRequest := ending_duty
  weaklyFair m _ n h := by
    have h3 := h (n + 3) (by omega)
    cases m with
    | host => exact ⟨n + 2, by omega, rfl⟩
    | _ => simp [Enabled, endingStates, lastByte, State.reset, State.want] at h3

theorem witness_FairRunsComplete : FairRun endingStates endingMoves ∧ Sequenced (endingStates 0) ∧
    FairTo endingStates endingMoves .txTake ∧ (endingStates 0).hostProgram ≠ [] ∧ (endingStates 0).decState ≠ .idle ∧
    (endingStates 0).encState ≠ .idle := by
  refine ⟨ending_fair, ⟨rfl, ⟨fun _ => ⟨rfl, rfl⟩, rfl, rfl⟩, rfl, by decide, fun _ => ⟨rfl, rfl⟩, fun _ => ⟨rfl, rfl⟩, ?_⟩, ?_, by decide,
    by decide, by decide⟩
  · intro h; cases h
  · intro n h
    exact absurd (h (n + 3) (by omega)) (fun g => g rfl)

/-- No data, and the most that fits. -/
theorem witness_EncodeSendsThePacket : State.reset.encState = .idle ∧ (0xFFFC : U16).toNat ≤ 65532 ∧
    exec (.enc 0x02 0) State.reset = .next (acceptEnc 0x02 0 State.reset) ∧
    exec (.enc 0x02 0xFFFC) State.reset = .next (acceptEnc 0x02 0xFFFC State.reset) := ⟨rfl, by decide, rfl, rfl⟩

/-- A good packet, a broken one, and none. -/
theorem witness_DecoderComputesDecode : ∀ stream : List Byte,
    ({ State.reset with rxHeld := stream } : State).decState = .idle ∧
      ({ State.reset with rxHeld := stream } : State).rxHeld = stream ∧
      exec .dec { State.reset with rxHeld := stream } = .next (acceptDec { State.reset with rxHeld := stream }) :=
  fun _ => ⟨rfl, rfl, rfl⟩

theorem witness_DecodeOfEncodeRoundTrip : ([0x06] : List Byte).length ≤ 65532 ∧
    ({ State.reset with rxHeld := encodePacket Config.defaultPoly 0x01 [0x06] } : State).rxHeld =
      encodePacket State.reset.poly 0x01 [0x06] ∧
    exec .dec { State.reset with rxHeld := encodePacket Config.defaultPoly 0x01 [0x06] } =
      .next (acceptDec { State.reset with rxHeld := encodePacket Config.defaultPoly 0x01 [0x06] }) :=
  ⟨by decide, rfl, rfl⟩

end Sys2Proof.Tests
end

section
/-! PROOF. What a step of one agent leaves of the other units (00_scope.md R2; O55), and what no step touches: `POLY` and
the bytes the transport has taken (R6, R123; O56). -/
namespace Sys2Proof.Machine

/-! ### `POLY` and the transmit stream through the transfers and the host's operations -/

@[simp] theorem transmitTransfer_poly (s : State) : (transmitTransfer s).poly = s.poly := by
  rw [transmitTransfer_fields]

@[simp] theorem receiveTransfer_poly (b : Byte) (s : State) : (receiveTransfer b s).poly = s.poly := by
  rw [receiveTransfer_fields]

@[simp] theorem receiveTransfer_txStream (b : Byte) (s : State) : (receiveTransfer b s).txStream = s.txStream := by
  rw [receiveTransfer_fields]

@[simp] theorem readTimeout_poly (s : State) : (readTimeout s).poly = s.poly := by
  rcases readTimeout_finish s with h | ⟨_, h⟩ <;> simp [h]

@[simp] theorem readTimeout_txStream (s : State) : (readTimeout s).txStream = s.txStream := by
  rcases readTimeout_finish s with h | ⟨_, h⟩ <;> simp [h]

/-- No host operation, whatever it did, writes `POLY` (R101). -/
theorem HostEffect.poly_eq {s t : State} {op : HostOp} (h : HostEffect s op t) : t.poly = s.poly := by
  cases h with
  | flush => simp [flushTransport]
  | _ => simp

/-- No host operation touches the transmit stream: it grows by transfers only (R123). -/
theorem HostEffect.txStream_eq {s t : State} {op : HostOp} (h : HostEffect s op t) : t.txStream = s.txStream := by
  cases h with
  | flush => simp [flushTransport]
  | _ => simp

theorem StepEffect.poly_eq {s t : State} {moves : List Move} (h : StepEffect s (s.afterMove moves) t) :
    t.poly = s.poly := by
  cases h with
  | hostOp _ _ effect => simpa using effect.poly_eq
  | _ => simp

/-- The stream after a step: only a transmit transfer adds to it, and what it adds is the byte on offer (R122, R123). -/
theorem StepEffect.txStream_eq {s t : State} {moves : List Move} (h : StepEffect s (s.afterMove moves) t) :
    t.txStream = s.txStream ∨ t.txStream = s.txStream ++ (s.afterMove moves).offer.toList := by
  cases h with
  | taken => exact .inr (transmitTransfer_stream _)
  | hostOp _ _ effect => exact .inl (by simpa using effect.txStream_eq)
  | _ => exact .inl (by simp)

/-! ### What a receive move or a timeout may write -/

/-- `t` is `r` but for the decoder's fields, its requests, what the transport holds, and memory, whose bytes of TXBUF are
those of `r` (R156). -/
def DecoderSideOnly (r t : State) : Prop :=
  t = { r with
    rxResult := t.rxResult, rxLen := t.rxLen, rxCmd := t.rxCmd, rxDlen := t.rxDlen, rxCrc := t.rxCrc
    rxRcvd := t.rxRcvd, decHave := t.decHave, decLhi := t.decLhi, decDone := t.decDone, decState := t.decState
    rdRequests := t.rdRequests, mem := t.mem, rxHeld := t.rxHeld } ∧
  ∀ k, k < 65536 → t.txbuf k = r.txbuf k

theorem DecoderSideOnly.refl (s : State) : DecoderSideOnly s s := ⟨rfl, fun _ _ => rfl⟩

theorem finish_decoderSideOnly (x : RxResult) (s : State) : DecoderSideOnly s (finish x s) :=
  ⟨rfl, fun _ _ => rfl⟩

/-- A timeout does nothing, or finishes the decode. -/
theorem readTimeout_decoderSideOnly (s : State) : DecoderSideOnly s (readTimeout s) := by
  rcases readTimeout_finish s with h | ⟨x, h⟩ <;> rw [h]
  · exact .refl s
  · exact finish_decoderSideOnly x s

/-- A receive transfer of a byte the transport held: the one byte it stores is in RXBUF. -/
theorem receiveTransfer_decoderSideOnly (b : Byte) (held : List Byte) (s : State) :
    DecoderSideOnly s (receiveTransfer b (s.afterByte held)) := by
  have hheld : (receiveTransfer b (s.afterByte held)).rxHeld = held := by rw [receiveTransfer_fields]; rfl
  refine ⟨?_, fun k hk => receiveTransfer_txbuf b _ hk⟩
  rw [hheld]
  exact receiveTransfer_fields b _

theorem rdValidMove_decoderSideOnly {s t : State} (h : rdValidMove s = .next t) : DecoderSideOnly s t := by
  cases hheld : s.rxHeld with
  | nil =>
    rw [rdValidMove_idle (.inl hheld)] at h
    cases h
    exact .refl s
  | cons b held =>
    by_cases hw : s.want = 0
    · rw [rdValidMove_idle (.inr hw)] at h
      cases h
      exact .refl s
    · rw [rdValidMove_eq hheld (Nat.pos_of_ne_zero hw)] at h
      cases h
      exact receiveTransfer_decoderSideOnly b held s

/-- A step performs the move at the head of the schedule. -/
theorem step_of_schedule {s : State} {m : Move} {moves : List Move} (h : s.schedule = m :: moves) :
    step s = perform m (s.afterMove moves) := by
  simp [step, h]

/-- A transmit step is the transmit transfer, so it writes what that writes (R131). -/
theorem txTake_step_fields {s t : State} {moves : List Move} (hs : s.schedule = .txTake :: moves)
    (h : step s = .next t) :
    t = { s with
      schedule := moves, txCrc := t.txCrc, txSent := t.txSent, encIdx := t.encIdx
      encState := t.encState, encDone := t.encDone, txStream := t.txStream } := by
  rw [step_of_schedule hs, perform, txTakeMove_eq] at h
  cases h
  exact transmitTransfer_fields (s.afterMove moves)

/-- A receive step or a timeout, once its move is taken off the schedule, stays on the decoder's side. -/
theorem receive_step_decoderSideOnly {s t : State} {moves : List Move}
    (hs : s.schedule = .rdValid :: moves ∨ s.schedule = .rdTimeout :: moves) (h : step s = .next t) :
    DecoderSideOnly (s.afterMove moves) t := by
  rcases hs with hs | hs <;> rw [step_of_schedule hs, perform] at h
  · exact rdValidMove_decoderSideOnly h
  · cases h
    exact readTimeout_decoderSideOnly _

end Sys2Proof.Machine

namespace Sys2Proof.Proofs
open Sys2Proof Sys2Proof.Machine

/-- Settles O55: a transmit step is the transmit transfer, a receive step or a timeout the decoder's own, and each of these
writes its unit's fields alone. -/
theorem portMovesStayInTheirUnit : Obligations.PortMovesStayInTheirUnit :=
  fun _ _ _ h => ⟨fun hs => txTake_step_fields hs h, fun hs => receive_step_decoderSideOnly hs h⟩

/-- Settles O56, from the step's inversion: no effect writes `POLY`, and the stream gains the byte on offer or nothing. -/
theorem transmitStreamOnlyGrows : Obligations.TransmitStreamOnlyGrows := by
  intro s t h
  have effect := step_effect h
  refine ⟨effect.poly_eq, ?_⟩
  rcases effect.txStream_eq with e | e
  · exact ⟨[], by simpa using e, by simp⟩
  · exact ⟨_, e, Option.length_toList_le⟩

end Sys2Proof.Proofs
end

section
/-! PROOF. The invariants of Safety.lean (10_state.md R28 to R41): they hold at reset and every step keeps them, one unit at a
time from what the step did to that unit (O46 to O48). -/
namespace Sys2Proof.Machine

/-! ### Memory: every write of a step is inside the buffer windows -/

@[simp] theorem transmitTransfer_mem (s : State) : (transmitTransfer s).mem = s.mem := by
  rw [transmitTransfer_fields]

@[simp] theorem readTimeout_mem (s : State) : (readTimeout s).mem = s.mem := by
  rcases readTimeout_finish s with h | ⟨_, h⟩ <;> simp [h]

/-- The payload byte's address is in RXBUF, since RX_RCVD has 16 bits (R52, R146). -/
theorem receiveTransfer_mem_wf (b : Byte) {s : State} (h : s.mem.wf = true) : (receiveTransfer b s).mem.wf = true := by
  have hr := s.rxRcvd.isLt
  rw [receiveTransfer_mem]
  split
  · exact write_wf _ b h (by simp only [Config.txbufBase, Config.rxbufBase]; omega)
      (by simp only [Config.rxbufBase, Config.bufferEnd]; omega)
  · exact h

theorem HostEffect.mem_wf {s t : State} {op : HostOp} (e : HostEffect s op t) (h : s.mem.wf = true) :
    t.mem.wf = true := by
  cases e with
  | txbuf a v _ lo hi =>
    exact write_wf _ _ h lo (by simp only [Config.rxbufBase, Config.bufferEnd] at *; omega)
  | flush => simpa [flushTransport] using h
  | _ => exact h

theorem StepEffect.mem_wf {s t : State} {moves : List Move} (e : StepEffect s (s.afterMove moves) t)
    (h : s.mem.wf = true) : t.mem.wf = true := by
  cases e with
  | hostOp _ _ effect => exact effect.mem_wf h
  | taken => simpa using h
  | delivered => exact receiveTransfer_mem_wf _ h
  | timedOut => simpa using h
  | powerOn => exact nil_wf
  | _ => exact h

/-! ### The encoder -/

theorem encSequenced_of_idle {s : State} (h : s.encState = .idle) : EncSequenced s := by
  simp [EncSequenced, EncCounters, h]

theorem txCrcCovers_of_idle {s : State} (h : s.encState = .idle) : TxCrcCovers s := by
  simp [TxCrcCovers, h]

/-- No command byte has been sent, and TX_CRC is its seed (R121). -/
theorem acceptEnc_txCrcCovers (b : Byte) (n : U16) (s : State) : TxCrcCovers (acceptEnc b n s) := by
  simp [TxCrcCovers, acceptEnc]

theorem EncEffect.sequenced {s t : State} (e : EncEffect s t) (h : EncSequenced s) : EncSequenced t := by
  cases e with
  | same hsame => exact hsame.sequenced h
  | accepted _ b n fits q eq => exact eq ▸ acceptEnc_sequenced b q fits
  | reset _ idle _ => exact encSequenced_of_idle idle
  | taken _ r hsame eq => exact eq ▸ transmitTransfer_sequenced (hsame.sequenced h)

theorem EncEffect.txCrcCovers {s t : State} (e : EncEffect s t) (hs : EncSequenced s) (h : TxCrcCovers s) :
    TxCrcCovers t := by
  cases e with
  | same hsame => exact hsame.txCrcCovers h
  | accepted _ b n _ q eq => exact eq ▸ acceptEnc_txCrcCovers b n q
  | reset _ idle _ => exact txCrcCovers_of_idle idle
  | taken _ r hsame eq => exact eq ▸ transmitTransfer_txCrcCovers (hsame.sequenced hs) (hsame.txCrcCovers h)

/-! ### The decoder -/

/-- The acceptance values of a DEC, which are also the reset values (R43, R141), are in sequence. -/
theorem decSequenced_of_cleared {s : State} (hlen : s.rxLen = 0) (hdlen : s.rxDlen = 0) (hrcvd : s.rxRcvd = 0)
    (hpay : s.decState ≠ .pay) (hopen : s.decState ≠ .idle → s.rxResult = .none ∧ s.decDone = false) :
    DecSequenced s :=
  ⟨by simp [hlen, hdlen, dataLength], by simp [hlen, hrcvd], hopen, fun _ => ⟨hlen, hrcvd⟩, fun h => absurd h hpay⟩

/-- With nothing received, RX_CRC is the CRC of nothing and RX_CMD has no byte to be. -/
theorem rxCrcCovers_of_cleared {s : State} (hrcvd : s.rxRcvd = 0) (hcrc : s.rxCrc = 0) (hcmd : s.rxCmd = 0) :
    RxCrcCovers s := by
  simp [RxCrcCovers, hrcvd, hcrc, hcmd, State.rxBytes, crc16, crcFrom]

theorem outcomeMeans_of_none {s : State} (hresult : s.rxResult = .none) (hlen : s.rxLen = 0) : OutcomeMeans s := by
  simp [OutcomeMeans, hresult, hlen]

/-- `finish` keeps the counters, and nothing is asked of an idle decoder's outcome here (R150). -/
theorem finish_sequenced (x : RxResult) {s : State} (h : DecSequenced s) : DecSequenced (finish x s) := by
  obtain ⟨hdlen, hle, _, _, _⟩ := h
  exact ⟨hdlen, hle, by simp, by simp, by simp⟩

theorem readTimeout_sequenced {s : State} (h : DecSequenced s) : DecSequenced (readTimeout s) := by
  rcases readTimeout_finish s with e | ⟨x, e⟩ <;> rw [e]
  · exact h
  · exact finish_sequenced x h

theorem readTimeout_rxCrcCovers {s : State} (h : RxCrcCovers s) : RxCrcCovers (readTimeout s) := by
  rcases readTimeout_finish s with e | ⟨_, e⟩ <;> rw [e] <;> exact h

/-- A timeout in LEN has no length, and one in PAY cuts the payload short (R30, R147, R148). -/
theorem readTimeout_outcomeMeans {s : State} (hs : DecSequenced s) (h : OutcomeMeans s) :
    OutcomeMeans (readTimeout s) := by
  obtain ⟨_, _, _, hlen, _⟩ := hs
  rcases readTimeout_cases s with ⟨_, e⟩ | ⟨g, e⟩ | ⟨_, short, e⟩ <;> rw [e]
  · exact h
  · exact (hlen g).1
  · exact short

theorem DecEffect.sequenced {s t : State} (e : DecEffect s t) (h : DecSequenced s) : DecSequenced t := by
  cases e with
  | same hsame => exact hsame.sequenced h
  | accepted _ q eq => exact eq ▸ decSequenced_of_cleared rfl rfl rfl nofun fun _ => ⟨rfl, rfl⟩
  | reset _ _ idle _ hlen hdlen _ _ hrcvd =>
    exact decSequenced_of_cleared hlen hdlen hrcvd (by simp [idle]) fun g => absurd idle g
  | delivered _ r b hsame eq => exact eq ▸ receiveTransfer_sequenced b (hsame.sequenced h)
  | timedOut r hsame eq => exact eq ▸ readTimeout_sequenced (hsame.sequenced h)

theorem DecEffect.rxCrcCovers {s t : State} (e : DecEffect s t) (h : RxCrcCovers s) : RxCrcCovers t := by
  cases e with
  | same hsame => exact hsame.rxCrcCovers h
  | accepted _ q eq => exact eq ▸ rxCrcCovers_of_cleared rfl rfl rfl
  | reset _ _ _ _ _ _ hcmd hcrc hrcvd => exact rxCrcCovers_of_cleared hrcvd hcrc hcmd
  | delivered _ r b hsame eq => exact eq ▸ receiveTransfer_rxCrcCovers b (hsame.rxCrcCovers h)
  | timedOut r hsame eq => exact eq ▸ readTimeout_rxCrcCovers (hsame.rxCrcCovers h)

theorem DecEffect.outcomeMeans {s t : State} (e : DecEffect s t) (hs : DecSequenced s) (h : OutcomeMeans s) :
    OutcomeMeans t := by
  cases e with
  | same hsame => exact hsame.outcomeMeans h
  | accepted _ q eq => exact eq ▸ outcomeMeans_of_none rfl rfl
  | reset _ _ _ hresult hlen _ _ _ _ => exact outcomeMeans_of_none hresult hlen
  | delivered _ r b hsame eq =>
    exact eq ▸ receiveTransfer_outcomeMeans b (hsame.sequenced hs) (hsame.outcomeMeans h)
  | timedOut r hsame eq => exact eq ▸ readTimeout_outcomeMeans (hsame.sequenced hs) (hsame.outcomeMeans h)

/-! ### The whole state -/

theorem reset_sequenced : Sequenced State.reset where
  memory := nil_wf
  encoder := encSequenced_of_idle rfl
  decoder := decSequenced_of_cleared rfl rfl rfl nofun fun h => absurd rfl h

theorem reset_residues : Residues State.reset where
  transmit := txCrcCovers_of_idle rfl
  receive := rxCrcCovers_of_cleared rfl rfl rfl
  outcome := outcomeMeans_of_none rfl rfl

theorem step_sequenced {s t : State} (h : Sequenced s) (hstep : step s = .next t) : Sequenced t where
  memory := (step_effect hstep).mem_wf h.memory
  encoder := (step_encEffect hstep).sequenced h.encoder
  decoder := (step_decEffect hstep).sequenced h.decoder

theorem step_residues {s t : State} (hs : Sequenced s) (h : Residues s) (hstep : step s = .next t) : Residues t where
  transmit := (step_encEffect hstep).txCrcCovers hs.encoder h.transmit
  receive := (step_decEffect hstep).rxCrcCovers h.receive
  outcome := (step_decEffect hstep).outcomeMeans hs.decoder h.outcome

end Sys2Proof.Machine

namespace Sys2Proof.Proofs
open Sys2Proof Sys2Proof.Machine

/-- Settles O47: memory by the step's inversion, the encoder and the decoder each by what the step did to that unit. -/
theorem stepKeepsTheUnitsSequenced : Obligations.StepKeepsTheUnitsSequenced :=
  fun _ _ => step_sequenced

/-- Settles O48: TX_CRC by what the step did to the encoder, RX_CRC and RX_RESULT by what it did to the decoder. -/
theorem stepKeepsTheResidues : Obligations.StepKeepsTheResidues :=
  fun _ _ => step_residues

/-- Settles O46: at reset both units are idle, so the stream owes no packet. -/
theorem resetMeetsTheInvariants : Obligations.ResetMeetsTheInvariants :=
  ⟨reset_sequenced, reset_residues, fun busy => absurd rfl busy⟩

end Sys2Proof.Proofs
end

section
/-! PROOF. Host accesses to registers (10_state.md R23 to R35): what a 32-bit read of each returns (O36, O37), what a write
to STATUS does (O38), and what the registers hold at reset (R43; O44); the three places where a step finds the instruction
it runs, a CMD write, a received and an offered command byte (R23, R85; O28). -/
namespace Sys2Proof.Machine

/-! ### A register's offset reaches it -/

@[simp] theorem target_offset (r : Reg) : target .b32 r.offset = .reg r := by
  cases r <;> decide

theorem hostOp_read_reg (r : Reg) (s : State) :
    hostOp (.read .b32 r.offset) s = .next (logRead .b32 r.offset (readReg r s) s) := by
  simp [hostOp, hostRead, readValue]

theorem hostOp_write_reg (r : Reg) (v : Word) (s : State) : hostOp (.write .b32 r.offset v) s = writeReg r v s := by
  simp [hostOp, hostWrite]

/-- A CMD write of a word that decodes is the instruction (R23). -/
theorem hostOp_write_cmd {w : Word} {i : Instr} (h : decode (.word w) = .ok i) (s : State) :
    hostOp (.write .b32 0x000 w) s = exec i s := by
  refine (hostOp_write_reg .cmd w s).trans ?_
  simp [writeReg, writeCommand, h]

/-! ### The bits of STATUS (R24) -/

/-- Bit `k` of STATUS: the seven flags from bit 0 up, and 0 above them. -/
theorem status_getLsbD (s : State) : (k : Nat) →
    s.status.getLsbD k =
      ([s.encBusy, s.decBusy, s.encDone, s.decDone, s.errIllegal, s.errBusy, s.errLen][k]?).getD false
  | 0 | 1 | 2 | 3 | 4 | 5 | 6 | _ + 7 => by
    simp only [State.status, BitVec.getLsbD_append, BitVec.getLsbD_ofBool]
    simp

theorem encBusy_eq_decide (s : State) : s.encBusy = decide (s.encState ≠ .idle) := by
  cases h : s.encState <;> simp [State.encBusy, h]

theorem decBusy_eq_decide (s : State) : s.decBusy = decide (s.decState ≠ .idle) := by
  cases h : s.decState <;> simp [State.decBusy, h]

/-! ### Where a step finds its instruction -/

theorem receivedCode_of_decode {s : State} {b : Byte} {i : Instr} (hpay : s.decState = .pay) (h0 : s.rxRcvd = 0)
    (h : decode (.wire .toHost b) = .ok i) : s.receivedCode b = some i := by
  simp [State.receivedCode, hpay, h0, h, Except.toOption]

theorem offeredCode_of_decode {s : State} {i : Instr} (hcmd : s.encState = .cmd)
    (h : decode (.wire .toDevice s.txCmd) = .ok i) : s.offeredCode = some i := by
  simp [State.offeredCode, hcmd, h, Except.toOption]

/-- A byte of payload is wanted as soon as the length is known and not 0 (R41, R145). -/
theorem want_pos_of_payload_start {s : State} (hpay : s.decState = .pay) (h0 : s.rxRcvd = 0) (hlen : s.rxLen ≠ 0) :
    0 < s.want :=
  (want_pay_pos_iff hpay).mpr (by simpa [h0] using toNat_pos_of_ne_zero hlen)

/-- A receive move at payload byte 0 runs the code the byte decodes to. -/
theorem rdValidMove_of_code {s : State} {b : Byte} {held : List Byte} {i : Instr} (hheld : s.rxHeld = b :: held)
    (hw : 0 < s.want) (h : s.receivedCode b = some i) : rdValidMove s = exec i (s.afterByte held) := by
  rw [rdValidMove_eq hheld hw, exec_of_receivedCode h]

theorem txTakeMove_of_code {s : State} {i : Instr} (h : s.offeredCode = some i) : txTakeMove s = exec i s := by
  rw [txTakeMove_eq, exec_of_offeredCode h]

end Sys2Proof.Machine

namespace Sys2Proof.Proofs
open Sys2Proof Sys2Proof.Machine

/-- Settles O36: each offset is a register's, and the value listed with it is what that register reads as. -/
theorem registerReadsReturnTheirFields : Obligations.RegisterReadsReturnTheirFields := by
  intro s a v h
  simp only [List.mem_cons, List.not_mem_nil, or_false, Prod.mk.injEq] at h
  rcases h with ⟨rfl, rfl⟩ | ⟨rfl, rfl⟩ | ⟨rfl, rfl⟩ | ⟨rfl, rfl⟩ | ⟨rfl, rfl⟩ | ⟨rfl, rfl⟩ | ⟨rfl, rfl⟩ |
    ⟨rfl, rfl⟩ | ⟨rfl, rfl⟩ | ⟨rfl, rfl⟩ | ⟨rfl, rfl⟩ | ⟨rfl, rfl⟩
  · exact hostOp_read_reg .cmd s
  · exact hostOp_read_reg .crcAcc s
  · exact hostOp_read_reg .txLen s
  · exact hostOp_read_reg .txCmd s
  · exact hostOp_read_reg .txCrc s
  · exact hostOp_read_reg .txSent s
  · exact hostOp_read_reg .rxLen s
  · exact hostOp_read_reg .rxCmd s
  · exact hostOp_read_reg .rxDlen s
  · exact hostOp_read_reg .rxCrc s
  · exact hostOp_read_reg .rxRcvd s
  · refine (hostOp_read_reg .rxResult s).trans ?_
    cases h : s.rxResult <;> simp [readReg, h, logRead, Reg.offset, RxResult.code]

/-- Settles O37: the value read is STATUS, whose bits are listed once. -/
theorem statusReadsItsBits : Obligations.StatusReadsItsBits := by
  refine fun s => ⟨s.status, hostOp_read_reg .status s, ?_⟩
  simp only [status_getLsbD, encBusy_eq_decide, decBusy_eq_decide]
  refine ⟨rfl, rfl, rfl, rfl, rfl, rfl, rfl, fun k hk => ?_⟩
  simp [hk]

/-- Settles O38: `f && !b` is `f` unless `b` clears it. -/
theorem statusWriteClearsTheOnesWritten : Obligations.StatusWriteClearsTheOnesWritten := by
  intro v s
  have clears (f b : Bool) : (f && !b) = if b = true then false else f := by cases b <;> simp
  refine (hostOp_write_reg .status v s).trans ?_
  simp only [writeReg, writeStatus, clears]

/-- Settles O28: the move at the head of the schedule finds the instruction at its place. -/
theorem stepRunsTheDecodedInstruction : Obligations.StepRunsTheDecodedInstruction := by
  refine fun i s moves => ⟨fun w ops hs hprog hd => ?_, fun b held hs hheld hpay h0 hlen hd => ?_, fun hs hcmd hd => ?_⟩
    <;> rw [step_of_schedule hs, perform]
  · simp only [hostMove, afterMove_hostProgram, hprog]
    exact hostOp_write_cmd hd _
  · exact rdValidMove_of_code (s := s.afterMove moves) hheld (want_pos_of_payload_start (s := s) hpay h0 hlen)
      (receivedCode_of_decode hpay h0 hd)
  · exact txTakeMove_of_code (offeredCode_of_decode hcmd hd)

/-- Settles O44: the registers by their reset values; no buffer byte has been written, so each reads as its draw. -/
theorem resetValuesAreTheSpecs : Obligations.ResetValuesAreTheSpecs :=
  ⟨rfl, rfl, rfl, rfl, rfl, rfl, rfl, rfl, rfl, rfl, rfl, rfl, rfl, rfl, rfl, rfl, rfl, rfl, rfl, fun _ => rfl⟩

end Sys2Proof.Proofs
end

section
/-! PROOF. The transport's side of the receive port (10_state.md R41, 60_exceptions.md R208 to R212; O34), and what no step
does but the ones named: clearing a sticky bit (R24; O51) and writing CRC_ACC (R25; O54). -/
namespace Sys2Proof.Machine

/-! ### A timeout and a flush, by the decoder's state -/

theorem readTimeout_unwanted {s : State} (h : s.want = 0) : readTimeout s = s := by
  simp [readTimeout, h]

theorem readTimeout_len {s : State} (h : s.decState = .len) : readTimeout s = finish .tmoLen s := by
  simp [readTimeout, (want_len_pos h).ne', h]

theorem readTimeout_pay {s : State} (h : s.decState = .pay) (hl : s.rxRcvd.toNat < s.rxLen.toNat) :
    readTimeout s = finish .tmoPay s := by
  simp [readTimeout, ((want_pay_pos_iff h).mpr hl).ne', h]

/-! ### CRC_ACC -/

@[simp] theorem transmitTransfer_crcAcc (s : State) : (transmitTransfer s).crcAcc = s.crcAcc := by
  rw [transmitTransfer_fields]

@[simp] theorem receiveTransfer_crcAcc (b : Byte) (s : State) : (receiveTransfer b s).crcAcc = s.crcAcc := by
  rw [receiveTransfer_fields]

@[simp] theorem readTimeout_crcAcc (s : State) : (readTimeout s).crcAcc = s.crcAcc := by
  rcases readTimeout_finish s with h | ⟨_, h⟩ <;> simp [h]

/-- The operation is a CMD write of one of the two commands that write CRC_ACC (R107, R108). -/
def IsCrcAccWrite (op : HostOp) : Prop :=
  ∃ w i, op = .write .b32 0x00000 w ∧ decode (.word w) = .ok i ∧ (i = .crcClr ∨ ∃ b, i = .crcByte b)

theorem HostEffect.crcAcc_eq {s t : State} {op : HostOp} (e : HostEffect s op t) (hop : ¬ IsCrcAccWrite op) :
    t.crcAcc = s.crcAcc := by
  cases e with
  | crcClr w hd => exact absurd ⟨w, _, rfl, hd, .inl rfl⟩ hop
  | crcByte w b hd => exact absurd ⟨w, _, rfl, hd, .inr ⟨b, rfl⟩⟩ hop
  | flush => simp [flushTransport]
  | _ => rfl

/-! ### The sticky bits -/

/-- From `s` to `t` no error bit is cleared, and a done bit only by its own unit's acceptance (R24). -/
structure StickyKept (s t : State) : Prop where
  errIllegal : s.errIllegal = true → t.errIllegal = true
  errBusy : s.errBusy = true → t.errBusy = true
  errLen : s.errLen = true → t.errLen = true
  encDone : s.encDone = true → t.encDone = true ∨ (s.encState = .idle ∧ t.encState = .lenHi)
  decDone : s.decDone = true → t.decDone = true ∨ (s.decState = .idle ∧ t.decState = .len)

theorem StickyKept.refl (s : State) : StickyKept s s := ⟨id, id, id, .inl, .inl⟩

theorem StickyKept.of_afterMove {s t : State} {moves : List Move} (h : StickyKept (s.afterMove moves) t) :
    StickyKept s t := ⟨h.errIllegal, h.errBusy, h.errLen, h.encDone, h.decDone⟩

theorem StickyKept.of_afterOp {s t : State} {ops : List HostOp} (h : StickyKept (s.afterOp ops) t) :
    StickyKept s t := ⟨h.errIllegal, h.errBusy, h.errLen, h.encDone, h.decDone⟩

theorem StickyKept.of_afterByte {s t : State} {held : List Byte} (h : StickyKept (s.afterByte held) t) :
    StickyKept s t := ⟨h.errIllegal, h.errBusy, h.errLen, h.encDone, h.decDone⟩

theorem transmitTransfer_stickyKept (s : State) : StickyKept s (transmitTransfer s) := by
  have hdone : s.encDone = true → (transmitTransfer s).encDone = true := by
    cases h : s.encState <;> simp [transmitTransfer, State.offer, h, foldSent, emit, completeEncode]
  rw [transmitTransfer_fields] at hdone ⊢
  exact ⟨id, id, id, fun h => .inl (hdone h), .inl⟩

theorem finish_stickyKept (x : RxResult) (s : State) : StickyKept s (finish x s) :=
  ⟨id, id, id, .inl, fun _ => .inl rfl⟩

theorem receiveTransfer_stickyKept (b : Byte) (s : State) : StickyKept s (receiveTransfer b s) := by
  have hdone : s.decDone = true → (receiveTransfer b s).decDone = true := by
    rcases receiveTransfer_cases b s with ⟨_, h⟩ | ⟨_, _, h⟩ | ⟨_, _, h⟩ | ⟨_, _, h⟩ <;> rw [h]
    · exact id
    · exact id
    · simp only [receiveSecond]; split <;> simp
    · simp only [receivePayload]; split <;> simp
  rw [receiveTransfer_fields] at hdone ⊢
  exact ⟨id, id, id, .inl, fun h => .inl (hdone h)⟩

theorem readTimeout_stickyKept (s : State) : StickyKept s (readTimeout s) := by
  rcases readTimeout_finish s with h | ⟨x, h⟩ <;> rw [h]
  · exact .refl s
  · exact finish_stickyKept x s

theorem HostEffect.stickyKept {s t : State} {op : HostOp} (e : HostEffect s op t)
    (hop : ∀ v, op ≠ .write .b32 0x004 v) : StickyKept s t := by
  cases e with
  | status v => exact absurd rfl (hop v)
  | flush => exact (readTimeout_stickyKept _).of_afterByte
  | illegal => exact ⟨fun _ => rfl, id, id, .inl, .inl⟩
  | encBusy => exact ⟨id, fun _ => rfl, id, .inl, .inl⟩
  | encLength => exact ⟨id, id, fun _ => rfl, .inl, .inl⟩
  | encAccepted _ _ _ idle => exact ⟨id, id, id, fun _ => .inr ⟨idle, rfl⟩, .inl⟩
  | decAccepted _ idle => exact ⟨id, id, id, .inl, fun _ => .inr ⟨idle, rfl⟩⟩
  | _ => exact ⟨id, id, id, .inl, .inl⟩

/-! ### The step, once the moves that may write are set apart -/

/-- A move that is the reset input or a power-on (R220). -/
def ResetNext (s : State) : Prop := (∃ ms, s.schedule = .reset :: ms) ∨ ∃ ms, s.schedule = .powerOn :: ms

/-- The host performs `op` next. -/
def HostNext (s : State) (op : HostOp) : Prop := ∃ ms ops, s.schedule = .host :: ms ∧ s.hostProgram = op :: ops

theorem StepEffect.crcAcc_eq {s t : State} {moves : List Move} (e : StepEffect s (s.afterMove moves) t)
    (hreset : ¬ ResetNext s) (hop : ∀ op, HostNext s op → ¬ IsCrcAccWrite op) : t.crcAcc = s.crcAcc := by
  cases e with
  | hostOp move prog effect =>
    obtain ⟨ms, hs⟩ := move
    exact effect.crcAcc_eq (hop _ ⟨ms, _, hs, prog⟩)
  | reset move => exact absurd (.inl move) hreset
  | powerOn move => exact absurd (.inr move) hreset
  | _ => simp

theorem StepEffect.stickyKept {s t : State} {moves : List Move} (e : StepEffect s (s.afterMove moves) t)
    (hreset : ¬ ResetNext s) (hop : ∀ v, ¬ HostNext s (.write .b32 0x004 v)) : StickyKept s t := by
  cases e with
  | hostOp move prog effect =>
    obtain ⟨ms, hs⟩ := move
    exact (effect.stickyKept fun v hv => hop v ⟨ms, _, hs, hv ▸ prog⟩).of_afterOp.of_afterMove
  | taken => exact (transmitTransfer_stickyKept _).of_afterMove
  | delivered => exact (receiveTransfer_stickyKept _ _).of_afterByte.of_afterMove
  | timedOut => exact (readTimeout_stickyKept _).of_afterMove
  | reset move => exact absurd (.inl move) hreset
  | powerOn move => exact absurd (.inr move) hreset
  | _ => exact ⟨id, id, id, .inl, .inl⟩

end Sys2Proof.Machine

namespace Sys2Proof.Proofs
open Sys2Proof Sys2Proof.Machine

/-- Settles O34: `want` by its definition, delivery and arrival by the move, a flush as a timeout with nothing held. -/
theorem transportKeepsOrFlushesItsBytes : Obligations.TransportKeepsOrFlushesItsBytes := by
  intro s moves b
  have flush : hostOp .flush s = .next (readTimeout (s.afterByte [])) := rfl
  refine ⟨want_idle, fun h => by simp [State.want, h], fun h => by simp [State.want, h], fun hs hw => ?_, fun hs => ?_,
    fun hw => ?_, fun h => ?_, fun h hl => ?_⟩
  · rw [step_of_schedule hs]
    exact rdValidMove_idle (.inr hw)
  · rw [step_of_schedule hs]
    rfl
  · rw [flush, readTimeout_unwanted (s := s.afterByte []) hw]
    rfl
  · rw [flush, readTimeout_len (s := s.afterByte []) h]
    rfl
  · rw [flush, readTimeout_pay (s := s.afterByte []) h hl]
    rfl

/-- Settles O51: apart from a reset and a STATUS write, every effect of a step keeps the sticky bits. -/
theorem stickyBitsClearedOnlyAsStated : Obligations.StickyBitsClearedOnlyAsStated := by
  intro s t h
  by_cases hreset : ResetNext s
  · exact hreset.imp_right .inl
  by_cases hop : ∃ v, HostNext s (.write .b32 0x004 v)
  · obtain ⟨v, ms, ops, hnext⟩ := hop
    exact .inr (.inr (.inl ⟨ms, v, ops, hnext⟩))
  · obtain ⟨hillegal, hbusy, hlen, henc, hdec⟩ := (step_effect h).stickyKept hreset (not_exists.mp hop)
    exact .inr (.inr (.inr ⟨hillegal, hbusy, hlen, henc, hdec⟩))

/-- Settles O54: apart from a reset and a CMD write of the two commands, every effect of a step keeps CRC_ACC. -/
theorem crcAccWrittenOnlyByItsCommands : Obligations.CrcAccWrittenOnlyByItsCommands := by
  intro s t h hne
  by_contra hc
  refine hne ((step_effect h).crcAcc_eq (fun hreset => hc (hreset.imp_right .inl)) ?_)
  rintro op ⟨ms, ops, hs, hprog⟩ ⟨w, i, rfl, hd, hi⟩
  exact hc (.inr (.inr ⟨ms, w, ops, i, hs, hprog, hd, hi⟩))

end Sys2Proof.Proofs
end

section
/-! PROOF. The transmit stream keeps to the packet being sent (20_memory.md R61, 41_encoder.md R123, R127; O49); what a
busy encoder and an idle decoder hold through a step (20_memory.md R51, R61, R62; O53, O52). -/
namespace Sys2Proof.Machine

/-! ### The stream and the packet -/

@[simp] theorem transmitTransfer_encN (s : State) : (transmitTransfer s).encN = s.encN := by
  rw [transmitTransfer_fields]

@[simp] theorem transmitTransfer_txCmd (s : State) : (transmitTransfer s).txCmd = s.txCmd := by
  rw [transmitTransfer_fields]

@[simp] theorem transmitTransfer_txLen (s : State) : (transmitTransfer s).txLen = s.txLen := by
  rw [transmitTransfer_fields]

/-- TX_SENT has 17 bits, so it counts a packet's bytes without wrapping (R29, R110). -/
theorem EncSequenced.txSent_succ_toNat {s : State} (h : EncSequenced s) (hne : s.encState ≠ .idle) :
    (s.txSent + 1).toNat = s.txSent.toNat + 1 := by
  have hlt := h.txSent_lt hne
  have hn := s.encN.isLt
  simp
  omega

theorem EncSame.streamCarriesPacket {r s : State} (h : EncSame r s) (hs : StreamCarriesPacket s) :
    StreamCarriesPacket r := by
  intro hne
  rw [h.encState] at hne
  have hbytes : r.txBytes s.encN.toNat = s.txBytes s.encN.toNat := txBytes_congr (h.txbuf hne) s.encN.isLt.le
  rw [h.txStream, h.poly, h.txCmd, h.encN, h.txSent, hbytes]
  exact hs hne

/-- Nothing of the accepted packet has been sent (R121). -/
theorem acceptEnc_streamCarriesPacket (b : Byte) (n : U16) (s : State) : StreamCarriesPacket (acceptEnc b n s) :=
  fun _ => ⟨s.txStream, by simp [acceptEnc]⟩

theorem streamCarriesPacket_of_idle {s : State} (h : s.encState = .idle) : StreamCarriesPacket s :=
  fun hne => absurd h hne

/-- The byte on offer is the packet's next one, so a transfer carries the stream one byte further into the packet. -/
theorem transmitTransfer_streamCarriesPacket {s : State} (hs : EncSequenced s) (hc : TxCrcCovers s)
    (h : StreamCarriesPacket s) : StreamCarriesPacket (transmitTransfer s) := by
  by_cases hidle : s.encState = .idle
  · rwa [transmitTransfer_idle hidle]
  · intro _
    obtain ⟨before, hstream⟩ := h hidle
    refine ⟨before, ?_⟩
    rw [transmitTransfer_stream, hstream, transmitTransfer_poly, transmitTransfer_txCmd, transmitTransfer_encN,
      transmitTransfer_txBytes, transmitTransfer_txSent hidle, hs.txSent_succ_toNat hidle, List.take_add_one,
      offer_eq_packet_byte hs hc hidle, List.append_assoc]

theorem EncEffect.streamCarriesPacket {s t : State} (e : EncEffect s t) (hs : EncSequenced s) (hc : TxCrcCovers s)
    (h : StreamCarriesPacket s) : StreamCarriesPacket t := by
  cases e with
  | same hsame => exact hsame.streamCarriesPacket h
  | accepted _ b n _ q eq => exact eq ▸ acceptEnc_streamCarriesPacket b n q
  | reset _ idle _ => exact streamCarriesPacket_of_idle idle
  | taken _ r hsame eq =>
    exact eq ▸ transmitTransfer_streamCarriesPacket (hsame.sequenced hs) (hsame.txCrcCovers hc)
      (hsame.streamCarriesPacket h)

/-! ### A busy encoder's packet -/

/-- `t` has the packet `s` is sending: its TXBUF, command, data length and length (R61). -/
structure PacketHeld (s t : State) : Prop where
  txbuf : ∀ k, k < 65536 → t.txbuf k = s.txbuf k
  txCmd : t.txCmd = s.txCmd
  encN : t.encN = s.encN
  txLen : t.txLen = s.txLen

theorem EncSame.packetHeld {r s : State} (h : EncSame r s) (busy : s.encState ≠ .idle) : PacketHeld s r :=
  ⟨h.txbuf busy, h.txCmd, h.encN, h.txLen⟩

theorem PacketHeld.transmitTransfer {s r : State} (h : PacketHeld s r) : PacketHeld s (transmitTransfer r) where
  txbuf k hk := by rw [transmitTransfer_txbuf, h.txbuf k hk]
  txCmd := by rw [transmitTransfer_txCmd, h.txCmd]
  encN := by rw [transmitTransfer_encN, h.encN]
  txLen := by rw [transmitTransfer_txLen, h.txLen]

/-- A busy encoder accepts no ENC, so what a step did to it held the packet, or was a reset. -/
theorem EncEffect.packetHeld {s t : State} (e : EncEffect s t) (busy : s.encState ≠ .idle) :
    ResetNext s ∨ PacketHeld s t := by
  cases e with
  | same hsame => exact .inr (hsame.packetHeld busy)
  | accepted idle => exact absurd idle busy
  | reset move => exact .inl move
  | taken _ r hsame eq => exact .inr (eq ▸ (hsame.packetHeld busy).transmitTransfer)

/-- The reset input keeps every buffer byte while the block stays powered (R220). -/
theorem reset_step_bufferByte {s t : State} {moves : List Move} (hs : s.schedule = .reset :: moves)
    (h : step s = .next t) (a : Nat) : t.bufferByte a = s.bufferByte a := by
  rw [step_of_schedule hs] at h
  cases h
  exact bufferByte_congr rfl rfl a

/-! ### An idle decoder -/

/-- An idle decoder wants no byte and has no request to end, so a step that leaves it idle is a reset or leaves it as it
is (R62, R150). -/
theorem DecEffect.same_of_idle {s t : State} (e : DecEffect s t) (hs : s.decState = .idle) (ht : t.decState = .idle) :
    ResetNext s ∨ DecSame t s := by
  have unwanted {r : State} (hsame : DecSame r s) : r.want = 0 := want_idle (hsame.decState.trans hs)
  cases e with
  | same hsame => exact .inr hsame
  | accepted _ q eq => subst eq; exact absurd ht (by simp [acceptDec])
  | reset move => exact .inl move
  | delivered _ r b hsame eq => exact .inr (by rwa [eq, receiveTransfer_unwanted (unwanted hsame)])
  | timedOut r hsame eq => exact .inr (by rwa [eq, readTimeout_unwanted (unwanted hsame)])

end Sys2Proof.Machine

namespace Sys2Proof.Proofs
open Sys2Proof Sys2Proof.Machine

/-- Settles O49: by what the step did to the encoder; a transfer adds the byte on offer, which is the packet's next. -/
theorem stepKeepsTheStreamOnItsPacket : Obligations.StepKeepsTheStreamOnItsPacket :=
  fun _ _ hs hr h hstep => (step_encEffect hstep).streamCarriesPacket hs.encoder hr.transmit h

/-- Settles O52: by what the step did to the decoder, which takes no byte and no timeout while idle. -/
theorem finishedDecodeIsFinal : Obligations.FinishedDecodeIsFinal := by
  intro s t hs hstep ht
  rcases (step_decEffect hstep).same_of_idle hs ht with hreset | hsame
  · exact hreset.imp_right .inl
  · exact .inr (.inr ⟨hsame.rxResult, hsame.rxLen, hsame.rxCmd, hsame.rxDlen, hsame.rxCrc, hsame.rxRcvd, hsame.rxbuf⟩)

/-- Settles O53: by what the step did to the encoder; a reset while powered keeps the buffers. -/
theorem txbufHeldWhileEncBusy : Obligations.TxbufHeldWhileEncBusy := by
  intro s t busy hstep
  rcases (step_encEffect hstep).packetHeld busy with (⟨ms, hs⟩ | hpower) | held
  · exact .inr ⟨fun _ _ => reset_step_bufferByte hs hstep _, .inl ⟨ms, hs⟩⟩
  · exact .inl hpower
  · exact .inr ⟨held.txbuf, .inr ⟨held.txCmd, held.encN, held.txLen⟩⟩

end Sys2Proof.Proofs
end

section
/-! PROOF. Host accesses to the memory map (20_memory.md R50 to R58): which are legal (R54, R195; O35), the unmapped
addresses (R55; O39), the read-only registers and RXBUF (R52; O40), TXBUF (R51; O41), and reads without side effect (R58;
O42). -/
namespace Sys2Proof.Machine

/-! ### What an address reaches, range by range -/

/-- No register is past RX_RCVD, nor in the gap between TX_SENT and RX_RESULT (10_state.md §2). -/
theorem offset_ne_of_unmapped {a : Addr} (h : 0x034 < a.toNat ∨ a.toNat = 0x01C) (r : Reg) : r.offset ≠ a := by
  have hmapped : r.offset.toNat ≤ 0x034 ∧ r.offset.toNat ≠ 0x01C := by cases r <;> decide
  rintro rfl
  omega

theorem target_b32_window {a : Addr} (hlo : a.toNat < Config.txbufBase) (h4 : a.toNat % 4 = 0) :
    (∃ r : Reg, a = r.offset ∧ target .b32 a = .reg r) ∨ target .b32 a = .unmapped := by
  cases hr : Reg.at? a with
  | none => exact .inr (by simp [target, hlo, h4, hr])
  | some r =>
    have hreg : target .b32 a = .reg r := by simp [target, hlo, h4, hr]
    exact .inl ⟨r, (target_reg hreg).2, hreg⟩

theorem target_b32_unmapped {a : Addr} (hlo : a.toNat < Config.txbufBase) (h4 : a.toNat % 4 = 0)
    (hgap : 0x034 < a.toNat ∨ a.toNat = 0x01C) : target .b32 a = .unmapped := by
  rcases target_b32_window hlo h4 with ⟨r, hr, _⟩ | h
  · exact absurd hr.symm (offset_ne_of_unmapped hgap r)
  · exact h

theorem target_b32_illegal {a : Addr} (h : ¬ (a.toNat < Config.txbufBase ∧ a.toNat % 4 = 0)) :
    target .b32 a = .illegal := if_neg h

theorem target_b8_illegal {a : Addr} (h : a.toNat < Config.txbufBase) : target .b8 a = .illegal := if_pos h

theorem target_b8_txbuf {a : Addr} (hlo : Config.txbufBase ≤ a.toNat) (hhi : a.toNat < Config.rxbufBase) :
    target .b8 a = .txbuf a.toNat := by
  simp [target, hlo.not_gt, hhi]

theorem target_b8_rxbuf {a : Addr} (hlo : Config.rxbufBase ≤ a.toNat) (hhi : a.toNat < Config.bufferEnd) :
    target .b8 a = .rxbuf a.toNat := by
  have htx : ¬ a.toNat < Config.txbufBase := by simp only [Config.txbufBase, Config.rxbufBase] at *; omega
  simp [target, htx, hlo.not_gt, hhi]

theorem target_b8_unmapped {a : Addr} (h : Config.bufferEnd ≤ a.toNat) : target .b8 a = .unmapped := by
  have htx : ¬ a.toNat < Config.txbufBase := by simp only [Config.txbufBase, Config.bufferEnd] at *; omega
  have hrx : ¬ a.toNat < Config.rxbufBase := by simp only [Config.rxbufBase, Config.bufferEnd] at *; omega
  simp [target, htx, hrx, h.not_gt]

/-- R54, R55: 32 bits, 4-aligned, in the register window, or 8 bits at or above the buffer windows. -/
def LegalAccess (w : Width) (a : Addr) : Prop :=
  (w = .b32 ∧ a.toNat < 0x10000 ∧ a.toNat % 4 = 0) ∨ (w = .b8 ∧ 0x10000 ≤ a.toNat)

theorem target_of_not_legal {w : Width} {a : Addr} (h : ¬ LegalAccess w a) : target w a = .illegal := by
  cases w with
  | b8 => exact target_b8_illegal (Nat.lt_of_not_le fun hle => h (.inr ⟨rfl, hle⟩))
  | b16 => rfl
  | b32 => exact target_b32_illegal fun hw => h (.inl ⟨rfl, hw⟩)

theorem target_of_legal {w : Width} {a : Addr} (h : LegalAccess w a) : target w a ≠ .illegal := by
  rcases h with ⟨rfl, hlo, h4⟩ | ⟨rfl, hlo⟩
  · rcases target_b32_window hlo h4 with ⟨r, _, e⟩ | e <;> simp [e]
  · rcases Nat.lt_or_ge a.toNat Config.rxbufBase with hrx | hrx
    · simp [target_b8_txbuf hlo hrx]
    rcases Nat.lt_or_ge a.toNat Config.bufferEnd with hend | hend
    · simp [target_b8_rxbuf hrx hend]
    · simp [target_b8_unmapped hend]

/-! ### Reads, by what they reach -/

theorem readValue_illegal {w : Width} {a : Addr} (h : target w a = .illegal) (s : State) : readValue w a s = none := by
  simp [readValue, h]

theorem exists_readValue {w : Width} {a : Addr} (h : target w a ≠ .illegal) (s : State) :
    ∃ v, readValue w a s = some v := by
  cases ht : target w a with
  | illegal => exact absurd ht h
  | _ => simp [readValue, ht]

theorem hostOp_read_some {w : Width} {a : Addr} {v : Word} {s : State} (h : readValue w a s = some v) :
    hostOp (.read w a) s = .next (logRead w a v s) := by
  simp [hostOp, hostRead, h]

theorem hostOp_read_none {w : Width} {a : Addr} {s : State} (h : readValue w a s = none) :
    hostOp (.read w a) s = .fault (.busAccessFault a w) := by
  simp [hostOp, hostRead, h]

theorem hostOp_read_unmapped {w : Width} {a : Addr} (h : target w a = .unmapped) (s : State) :
    hostOp (.read w a) s = .next (logRead w a 0 s) :=
  hostOp_read_some (by simp [readValue, h])

theorem hostOp_read_txbuf {a : Addr} (hlo : Config.txbufBase ≤ a.toNat) (hhi : a.toNat < Config.rxbufBase) (s : State) :
    hostOp (.read .b8 a) s = .next (logRead .b8 a ((s.bufferByte a.toNat).setWidth 32) s) :=
  hostOp_read_some (by simp [readValue, target_b8_txbuf hlo hhi])

theorem hostOp_read_rxbuf {a : Addr} (hlo : Config.rxbufBase ≤ a.toNat) (hhi : a.toNat < Config.bufferEnd) (s : State) :
    hostOp (.read .b8 a) s = .next (logRead .b8 a ((s.bufferByte a.toNat).setWidth 32) s) :=
  hostOp_read_some (by simp [readValue, target_b8_rxbuf hlo hhi])

theorem hostOp_poll_none {a : Addr} {s : State} (h : readValue .b32 a s = none) (mask val : Word) :
    hostOp (.poll a mask val) s = .fault (.busAccessFault a .b32) := by
  simp [hostOp, hostPoll, h]

/-- A poll that reads a value answers a next state, whether the value ends the loop or not (R78). -/
theorem exists_hostOp_poll {a : Addr} {v : Word} {s : State} (h : readValue .b32 a s = some v) (mask val : Word) :
    ∃ t, hostOp (.poll a mask val) s = .next t := by
  simp only [hostOp, hostPoll, h]
  split <;> exact ⟨_, rfl⟩

/-! ### Writes, by what they reach -/

theorem hostOp_write_illegal {w : Width} {a : Addr} (h : target w a = .illegal) (v : Word) (s : State) :
    hostOp (.write w a v) s = .fault (.busAccessFault a w) := by
  simp [hostOp, hostWrite, h]

theorem hostOp_write_unmapped {w : Width} {a : Addr} (h : target w a = .unmapped) (v : Word) (s : State) :
    hostOp (.write w a v) s = .next s := by
  simp [hostOp, hostWrite, h]

theorem hostOp_write_rxbuf {a : Addr} (hlo : Config.rxbufBase ≤ a.toNat) (hhi : a.toNat < Config.bufferEnd) (v : Word)
    (s : State) : hostOp (.write .b8 a v) s = .next s := by
  simp [hostOp, hostWrite, target_b8_rxbuf hlo hhi]

theorem hostOp_write_txbuf {a : Addr} (hlo : Config.txbufBase ≤ a.toNat) (hhi : a.toNat < Config.rxbufBase) (v : Word)
    (s : State) : hostOp (.write .b8 a v) s = .next (writeTxbuf a.toNat (byteOf v) s) := by
  simp [hostOp, hostWrite, target_b8_txbuf hlo hhi]

theorem writeTxbuf_busy {s : State} (h : s.encState ≠ .idle) (a : Nat) (b : Byte) : writeTxbuf a b s = s := by
  simp [writeTxbuf, State.encBusy, h]

theorem writeTxbuf_idle {s : State} (h : s.encState = .idle) (a : Nat) (b : Byte) :
    writeTxbuf a b s = s.writeBuffer a b := by
  simp [writeTxbuf, State.encBusy, h]

/-- Only CMD and STATUS do anything when written (R58). -/
theorem writeReg_readOnly {r : Reg} (hcmd : r ≠ .cmd) (hstatus : r ≠ .status) (v : Word) (s : State) :
    writeReg r v s = .next s := by
  cases r with
  | cmd => exact absurd rfl hcmd
  | status => exact absurd rfl hstatus
  | _ => rfl

/-- A command is performed or rejected; it never stops the machine (R190). -/
theorem exists_writeCommand (v : Word) (s : State) : ∃ t, writeCommand v s = .next t := by
  unfold writeCommand
  split
  · rename_i i hd
    rcases decodeWord_command hd with rfl | rfl | ⟨b, rfl⟩ | ⟨b, n, rfl⟩ | rfl
    · exact ⟨_, rfl⟩
    · exact ⟨_, rfl⟩
    · exact ⟨_, rfl⟩
    · simp only [exec, execEnc]
      split
      · exact ⟨_, rfl⟩
      · split <;> exact ⟨_, rfl⟩
    · simp only [exec, execDec]
      split <;> exact ⟨_, rfl⟩
  · exact ⟨_, rfl⟩

theorem exists_writeReg (r : Reg) (v : Word) (s : State) : ∃ t, writeReg r v s = .next t := by
  cases r with
  | cmd => exact exists_writeCommand v s
  | _ => exact ⟨_, rfl⟩

theorem exists_hostOp_write {w : Width} {a : Addr} (h : target w a ≠ .illegal) (v : Word) (s : State) :
    ∃ t, hostOp (.write w a v) s = .next t := by
  simp only [hostOp, hostWrite]
  cases ht : target w a with
  | reg r => exact exists_writeReg r v s
  | illegal => exact absurd ht h
  | _ => exact ⟨_, rfl⟩

end Sys2Proof.Machine

namespace Sys2Proof.Proofs
open Sys2Proof Sys2Proof.Machine

/-- Settles O35: an access's target is illegal exactly when the access is, and only an illegal target faults. -/
theorem busAccessFaultExactlyWhenNotAdmitted : Obligations.BusAccessFaultExactlyWhenNotAdmitted := by
  refine fun w a v mask s => ⟨fun hnot => ?_, fun hlegal => ?_⟩
  · have hill := target_of_not_legal hnot
    have hnone := readValue_illegal hill s
    exact ⟨hostOp_read_none hnone, hostOp_write_illegal hill v s, by rintro rfl; exact hostOp_poll_none hnone mask v⟩
  · have htarget := target_of_legal hlegal
    obtain ⟨x, hx⟩ := exists_readValue htarget s
    exact ⟨⟨_, hostOp_read_some hx⟩, exists_hostOp_write htarget v s, by rintro rfl; exact exists_hostOp_poll hx mask v⟩

/-- Settles O39: such an address reaches no register and no buffer; above the buffers an access of 32 bits is illegal. -/
theorem unmappedReadsZeroAndIgnoresWrites : Obligations.UnmappedReadsZeroAndIgnoresWrites := by
  refine fun w a v s => ⟨fun h => ?_, ?_⟩
  · have hun : target w a = .unmapped := by
      rcases h with ⟨rfl, hlo⟩ | ⟨rfl, hhi, h4, hgap⟩
      · exact target_b8_unmapped hlo
      · exact target_b32_unmapped hhi h4 hgap
    exact ⟨hostOp_read_unmapped hun s, hostOp_write_unmapped hun v s⟩
  · rintro ⟨rfl, hlo⟩
    have hill : target .b32 a = .illegal := target_b32_illegal (by simp only [Config.txbufBase]; omega)
    exact ⟨hostOp_read_none (readValue_illegal hill s), hostOp_write_illegal hill v s⟩

/-- Settles O40: above STATUS a 32-bit write reaches a read-only register or nothing. -/
theorem readOnlyTargetsIgnoreWrites : Obligations.ReadOnlyTargetsIgnoreWrites := by
  refine fun a v s => ⟨fun hhi h4 habove => ?_, fun hlo hhi => ⟨hostOp_write_rxbuf hlo hhi v s, hostOp_read_rxbuf hlo hhi s⟩⟩
  rcases target_b32_window hhi h4 with ⟨r, rfl, _⟩ | hun
  · rw [hostOp_write_reg]
    refine writeReg_readOnly ?_ ?_ v s <;> (rintro rfl; exact absurd habove (by decide))
  · exact hostOp_write_unmapped hun v s

/-- Settles O41: the laws of a buffer write, and a read of the state it leaves. -/
theorem txbufWriteStoredUnlessEncBusy : Obligations.TxbufWriteStoredUnlessEncBusy := by
  refine fun a v s hlo hhi => ⟨hostOp_read_txbuf hlo hhi s, fun busy => ?_, fun idle => ?_⟩
  · rw [hostOp_write_txbuf hlo hhi, writeTxbuf_busy busy]
  · refine ⟨s.writeBuffer a.toNat (byteOf v), by rw [hostOp_write_txbuf hlo hhi, writeTxbuf_idle idle], rfl,
      bufferByte_writeBuffer_same .., fun x hx => bufferByte_writeBuffer_other s _ hx, ?_⟩
    rw [hostOp_read_txbuf hlo hhi, bufferByte_writeBuffer_same]
    rfl

/-- Settles O42: a read that answers a next state has only recorded its value. -/
theorem hostReadsHaveNoSideEffect : Obligations.HostReadsHaveNoSideEffect := by
  intro w a s t h
  cases hv : readValue w a s with
  | none => rw [hostOp_read_none hv] at h; cases h
  | some v => rw [hostOp_read_some hv] at h; cases h; exact ⟨v, rfl⟩

end Sys2Proof.Proofs
end

section
/-! PROOF. The command word and its fields (30_encoding.md R70 to R74): the decoder and the encoder undo each other (O1, O2),
the row of R73 a word selects is that of the instruction it decodes to (O3), the illegal words are R74's (O4), and words of
the test vectors (O5). -/
namespace Sys2Proof

/-! ### A word is its four fields -/

@[simp] theorem opField_commandWord (op : BitVec 4) (b : Byte) (n : U16) : opField (commandWord op b n) = op :=
  ((BitVec.extractLsb'_append_eq_of_le (by decide)).trans
    (BitVec.extractLsb'_append_eq_of_le (by decide))).trans BitVec.extractLsb'_append_eq_left

@[simp] theorem zField_commandWord (op : BitVec 4) (b : Byte) (n : U16) : zField (commandWord op b n) = 0 :=
  ((BitVec.extractLsb'_append_eq_of_le (by decide)).trans
    (BitVec.extractLsb'_append_eq_of_le (by decide))).trans BitVec.extractLsb'_append_eq_right

@[simp] theorem bField_commandWord (op : BitVec 4) (b : Byte) (n : U16) : bField (commandWord op b n) = b :=
  (BitVec.extractLsb'_append_eq_of_le (by decide)).trans BitVec.extractLsb'_append_eq_right

@[simp] theorem nField_commandWord (op : BitVec 4) (b : Byte) (n : U16) : nField (commandWord op b n) = n :=
  BitVec.extractLsb'_append_eq_right

theorem fields_append (w : Word) : opField w ++ zField w ++ bField w ++ nField w = w := by
  have hz : opField w ++ zField w = w.extractLsb' 24 8 :=
    BitVec.extractLsb'_append_extractLsb'_eq_extractLsb' rfl
  have hb : w.extractLsb' 24 8 ++ bField w = w.extractLsb' 16 16 :=
    BitVec.extractLsb'_append_extractLsb'_eq_extractLsb' rfl
  rw [hz, hb]
  exact BitVec.extractLsb'_append_extractLsb' (w := 16) (len := 16)

/-- A word with `Z = 0` is the command word of its other fields (R70). -/
theorem commandWord_of_fields {w : Word} {op : BitVec 4} {b : Byte} {n : U16} (hop : opField w = op) (hz : zField w = 0)
    (hb : bField w = b) (hn : nField w = n) : commandWord op b n = w := by
  subst hop hb hn
  rw [commandWord, ← hz, fields_append]

/-- Bits 23:0 are the fields `B` and `N` (R70). -/
theorem operandBits_eq_zero_iff (w : Word) : w.extractLsb' 0 24 = 0 ↔ bField w = 0 ∧ nField w = 0 := by
  have h : bField w ++ nField w = w.extractLsb' 0 24 := BitVec.extractLsb'_append_extractLsb'_eq_extractLsb' rfl
  constructor
  · intro h0
    rw [← h] at h0
    exact ⟨BitVec.extractLsb'_append_eq_left.symm.trans (congrArg (BitVec.extractLsb' 16 8) h0),
      BitVec.extractLsb'_append_eq_right.symm.trans (congrArg (BitVec.extractLsb' 0 16) h0)⟩
  · rintro ⟨hb, hn⟩
    rw [← h, hb, hn]
    rfl

/-- The OP codes of no command are `0x5` to `0xF` (R72, R74). -/
theorem five_le_of_reserved {op : BitVec 4} (h0 : op ≠ 0x0) (h1 : op ≠ 0x1) (h2 : op ≠ 0x2) (h3 : op ≠ 0x3)
    (h4 : op ≠ 0x4) : 5 ≤ op.toNat := by
  revert op
  decide

/-! ### Decoding and encoding undo each other -/

theorem decodeBare_ok_iff {i j : Instr} {w : Word} :
    decodeBare i w = .ok j ↔ i = j ∧ zField w = 0 ∧ bField w = 0 ∧ nField w = 0 := by
  unfold decodeBare
  split
  · simp_all
  · split <;> simp_all [imp_iff_not_or]

theorem decodeBare_error_iff {i : Instr} {w : Word} :
    (∃ r, decodeBare i w = .error r) ↔ zField w ≠ 0 ∨ w.extractLsb' 0 24 ≠ 0 := by
  rw [Ne, Ne, operandBits_eq_zero_iff]
  unfold decodeBare
  split
  · simp_all
  · split <;> simp_all [imp_iff_not_or]

/-- Decoding undoes encoding: a command word gives its fields back, and each code of R85 is listed (R71, R77, R85). -/
theorem decode_encode (i : Instr) : decode (encode i) = .ok i := by
  cases i with
  | crcByte b => simp [encode, decode, decodeWord]
  | enc b n => simp [encode, decode, decodeWord]
  | done d => cases d <;> rfl
  | _ => decide

theorem encode_of_decodeBare {op : BitVec 4} {i j : Instr} {w : Word} (hi : encode i = .word (commandWord op 0 0))
    (hop : opField w = op) (h : decodeBare i w = .ok j) : encode j = .word w := by
  obtain ⟨rfl, hz, hb, hn⟩ := decodeBare_ok_iff.mp h
  rw [hi, commandWord_of_fields hop hz hb hn]

/-- Encoding undoes decoding on the command words (R72). -/
theorem encode_of_decodeWord {w : Word} {i : Instr} (h : decodeWord w = .ok i) : encode i = .word w := by
  unfold decodeWord at h
  split_ifs at h with nop clr byte bz bn enc ez dec
  · exact encode_of_decodeBare rfl nop h
  · exact encode_of_decodeBare rfl clr h
  · cases h
    exact congrArg CodeUnit.word (commandWord_of_fields byte (not_not.mp bz) rfl (not_not.mp bn))
  · cases h
    exact congrArg CodeUnit.word (commandWord_of_fields enc (not_not.mp ez) rfl rfl)
  · exact encode_of_decodeBare rfl dec h

theorem encode_of_decodeToHost {b : Byte} {i : Instr} (h : decodeToHost b = .ok i) : encode i = .wire .toHost b := by
  unfold decodeToHost at h
  split_ifs at h <;> (cases h; subst b; rfl)

theorem encode_of_decodeToDevice {b : Byte} {i : Instr} (h : decodeToDevice b = .ok i) :
    encode i = .wire .toDevice b := by
  unfold decodeToDevice at h
  split_ifs at h <;> (cases h; subst b; rfl)

theorem encode_of_decode {u : CodeUnit} {i : Instr} (h : decode u = .ok i) : encode i = u := by
  match u with
  | .word _ => exact encode_of_decodeWord h
  | .wire .toHost _ => exact encode_of_decodeToHost h
  | .wire .toDevice _ => exact encode_of_decodeToDevice h

/-! ### The rows of R73 -/

/-- An instruction's unit selects its own row and no other. -/
theorem selectedRows_encode (i : Instr) : selectedRows (encode i) = [i.mnemonic] := by
  cases i with
  | nop => exact Laws.TableRow.nop
  | crcClr => exact Laws.TableRow.crcClr
  | crcByte b => exact Laws.TableRow.crcByte b
  | enc b n => exact Laws.TableRow.enc b n
  | dec => exact Laws.TableRow.dec
  | ver => exact Laws.TableRow.ver
  | bl => exact Laws.TableRow.bl
  | next => exact Laws.TableRow.next
  | frame => exact Laws.TableRow.frame
  | retry => exact Laws.TableRow.retry
  | done d => exact Laws.TableRow.done d
  | msg => exact Laws.TableRow.msg
  | date => exact Laws.TableRow.date

/-- A word that selects a row agrees with it on every bit range. -/
theorem extract_of_selects {r : OpRow 32} {w : Word} (h : r.selects w = true) (start len : Nat) :
    w.extractLsb' start len &&& r.mask.extractLsb' start len = r.pattern.extractLsb' start len := by
  rw [← BitVec.extractLsb'_and, eq_of_beq h]

/-- Only the words of the five commands select a row. -/
theorem exists_encode_of_selects {r : OpRow 32} (hr : r ∈ commandRows) {w : Word} (h : r.selects w = true) :
    ∃ i, encode i = .word w := by
  have field := extract_of_selects h
  have whole (hm : r.mask = 0xFFFFFFFF) : w = r.pattern := by
    have := eq_of_beq h
    rw [hm] at this
    exact (BitVec.and_allOnes).symm.trans this
  simp only [commandRows, List.mem_cons, List.not_mem_nil, or_false] at hr
  rcases hr with rfl | rfl | rfl | rfl | rfl
  · exact ⟨.nop, congrArg CodeUnit.word (whole rfl).symm⟩
  · exact ⟨.crcClr, congrArg CodeUnit.word (whole rfl).symm⟩
  · exact ⟨.crcByte (bField w), congrArg CodeUnit.word (commandWord_of_fields
      (BitVec.and_allOnes.symm.trans (field 28 4)) (BitVec.and_allOnes.symm.trans (field 24 4)) rfl
      (BitVec.and_allOnes.symm.trans (field 0 16)))⟩
  · exact ⟨.enc (bField w) (nField w), congrArg CodeUnit.word (commandWord_of_fields
      (BitVec.and_allOnes.symm.trans (field 28 4)) (BitVec.and_allOnes.symm.trans (field 24 4)) rfl rfl)⟩
  · exact ⟨.dec, congrArg CodeUnit.word (whole rfl).symm⟩

theorem selectedRows_of_error {w : Word} {e : Reject} (h : decode (.word w) = .error e) : selectedRows (.word w) = [] := by
  simp only [selectedRows, List.map_eq_nil_iff, List.filter_eq_nil_iff]
  intro r hr hsel
  obtain ⟨i, hi⟩ := exists_encode_of_selects hr hsel
  rw [← hi, decode_encode] at h
  cases h

end Sys2Proof

namespace Sys2Proof.Proofs
open Sys2Proof Sys2Proof.Machine

/-- Settles O1: a command word gives its fields back, and each wire code is listed. -/
theorem decodeOfEncodeIsTheInstruction : Obligations.DecodeOfEncodeIsTheInstruction := decode_encode

/-- Settles O2: what the decoder checks, with the fields it reads, is the whole unit. -/
theorem encodeOfDecodeIsTheUnit : Obligations.EncodeOfDecodeIsTheUnit := fun _ _ => encode_of_decode

/-- Settles O3: a word that decodes is its instruction's encoding, which selects that row; a word that selects a row is an
encoding, so it decodes. -/
theorem decodeReadsTheSelectedTableRow : Obligations.DecodeReadsTheSelectedTableRow := by
  intro w
  cases h : decode (.word w) with
  | ok i => rw [← encode_of_decode h, selectedRows_encode]
  | error e => exact selectedRows_of_error h

/-- Settles O4: by the OP field; each command rejects `Z` and the operand fields it does not have. -/
theorem illegalWordsAreTheFourKinds : Obligations.IllegalWordsAreTheFourKinds := by
  intro w
  change (∃ r, decodeWord w = .error r) ↔
    (5 ≤ (opField w).toNat ∨ zField w ≠ 0 ∨
      ((opField w = 0x0 ∨ opField w = 0x1 ∨ opField w = 0x4) ∧ w.extractLsb' 0 24 ≠ 0) ∨
      (opField w = 0x2 ∧ nField w ≠ 0))
  unfold decodeWord
  split_ifs with nop clr byte bz bn enc ez dec
  · simp [decodeBare_error_iff, nop]
  · simp [decodeBare_error_iff, clr]
  · exact ⟨fun _ => .inr (.inl bz), fun _ => ⟨_, rfl⟩⟩
  · exact ⟨fun _ => .inr (.inr (.inr ⟨byte, bn⟩)), fun _ => ⟨_, rfl⟩⟩
  · simp [byte, not_not.mp bz, not_not.mp bn]
  · exact ⟨fun _ => .inr (.inl ez), fun _ => ⟨_, rfl⟩⟩
  · simp [enc, not_not.mp ez]
  · simp [decodeBare_error_iff, dec]
  · exact ⟨fun _ => .inl (five_le_of_reserved nop clr byte enc dec), fun _ => ⟨_, rfl⟩⟩

/-- Settles O5: each word is decoded by its OP, `Z` and operand fields, each code by R85's list. -/
theorem specWordsDecodeToTheirInstructions : Obligations.SpecWordsDecodeToTheirInstructions := by
  unfold Obligations.SpecWordsDecodeToTheirInstructions
  decide

end Sys2Proof.Proofs
end

section
/-! PROOF. The assembler (30_encoding.md R77, R78): a command line is one CMD write of its instruction's encoding (O6), and
each host pseudo-instruction is the accesses it stands for (O7). -/
namespace Sys2Proof.Machine

/-! ### Assembling one line, and one line for each element of a list -/

theorem assemble_singleton (line : AsmLine) :
    assemble [line] = if line.wf then some (AsmLine.expand line) else none := by
  simp [assemble]

theorem assemble_of_wf {line : AsmLine} (h : line.wf = true) : assemble [line] = some (AsmLine.expand line) := by
  rw [assemble_singleton, if_pos h]

theorem assemble_of_not_wf {line : AsmLine} (h : line.wf = false) : assemble [line] = none := by
  simp [assemble_singleton, h]

/-- Lines that stand for one operation each, one for each element of a list. -/
theorem assemble_map {α : Type} {line : α → AsmLine} {op : α → HostOp} (h : ∀ x, AsmLine.expand (line x) = [op x])
    (xs : List α) :
    assemble (xs.map line) = if xs.all fun x => (line x).wf then some (xs.map op) else none := by
  rw [assemble, List.all_map, List.flatMap_map, List.map_eq_flatMap]
  simp only [h, Function.comp_def]

/-- The `wrb` lines of R78's expansion of `wrbuf`, numbered from the start index as the model numbers them. -/
theorem mapIdx_wrb_eq (i : Nat) (bytes : List Nat) :
    (bytes.mapIdx fun k b => AsmLine.wrb (0x10000 + (i + k)) b) =
      (bytes.zipIdx i).map fun p => .wrb (Config.txbufBase + p.2) p.1 := by
  rw [List.mapIdx_eq_zipIdx_map, List.zipIdx_eq_map_add (i := i), List.map_map]
  rfl

/-! ### Operands in range -/

theorem isU8_of_lt {v : Nat} (h : v < 2 ^ 8) : isU8 v = true := decide_eq_true h

theorem isU32_of_lt {v : Nat} (h : v < 2 ^ 32) : isU32 v = true := decide_eq_true h

theorem isAddr_of_lt {v : Nat} (h : v < 2 ^ 18) : isAddr v = true := decide_eq_true h

/-! ### The word a command line writes (R77) -/

theorem commandWord_toNat (op : BitVec 4) (b : Byte) (n : U16) :
    (commandWord op b n).toNat = op.toNat <<< 28 ||| b.toNat <<< 16 ||| n.toNat := by
  have h : (commandWord op b n).toNat = ((op.toNat <<< 4 ||| 0) <<< 8 ||| b.toNat) <<< 16 ||| n.toNat := rfl
  rw [h, Nat.or_zero, ← Nat.shiftLeft_add, Nat.shiftLeft_or_distrib, ← Nat.shiftLeft_add]

/-- `OP << 28 | B << 16 | N` is the command word of its operands when they are in range (R70, R77). -/
theorem asmWord_eq_commandWord {op b n : Nat} (hop : op < 2 ^ 4) (hb : b < 2 ^ 8) (hn : n < 2 ^ 16) :
    asmWord op b n = commandWord (BitVec.ofNat 4 op) (BitVec.ofNat 8 b) (BitVec.ofNat 16 n) := by
  have hop28 : op <<< 28 < 2 ^ 32 := by rw [Nat.shiftLeft_eq]; omega
  have hb16 : b <<< 16 < 2 ^ 32 := by rw [Nat.shiftLeft_eq]; omega
  apply BitVec.eq_of_toNat_eq
  rw [commandWord_toNat]
  simp (disch := omega) only [asmWord, BitVec.toNat_or, BitVec.toNat_shiftLeft, BitVec.toNat_ofNat, Nat.mod_eq_of_lt]

end Sys2Proof.Machine

namespace Sys2Proof.Proofs
open Sys2Proof Sys2Proof.Machine

/-- Settles O6: in range, a line writes the command word of its operands; out of range, it is refused. -/
theorem assemblerWritesTheEncodedWord : Obligations.AssemblerWritesTheEncodedWord := by
  refine ⟨fun b n h => ⟨_, rfl, (assemble_of_wf h).trans ?_⟩, fun b h => ⟨_, rfl, (assemble_of_wf h).trans ?_⟩,
    fun b n h => assemble_of_not_wf ?_, fun b h => assemble_of_not_wf ?_, rfl, rfl, rfl⟩
  · simp only [AsmLine.wf, isU8, isU16, Bool.and_eq_true, decide_eq_true_eq] at h
    rw [AsmLine.expand, asmWord_eq_commandWord (by decide) h.1 h.2]
    rfl
  · simp only [AsmLine.wf, isU8, decide_eq_true_eq] at h
    rw [AsmLine.expand, asmCrcByte, asmWord_eq_commandWord (by decide) h (by decide)]
    rfl
  · simp only [AsmLine.wf, isU8, isU16, Bool.and_eq_false_iff, decide_eq_false_iff_not]
    omega
  · simp only [AsmLine.wf, isU8, decide_eq_false_iff_not]
    omega

/-- Settles O7: the operands in range are accepted; `wrbuf` and `crc.str` are their lines, one for each element. -/
theorem pseudoInstructionsExpandToHostAccesses : Obligations.PseudoInstructionsExpandToHostAccesses := by
  refine ⟨fun off v ho hv => assemble_of_wf ?_, fun off ho => assemble_of_wf ?_, fun a v ha hv => assemble_of_wf ?_,
    fun a ha => assemble_of_wf ?_, fun off mask val ho hm hv => assemble_of_wf ?_, fun i bytes => ?_, rfl,
    fun chars hascii => ?_⟩
  · simp [AsmLine.wf, isAddr_of_lt ho, isU32_of_lt hv]
  · exact isAddr_of_lt ho
  · simp [AsmLine.wf, wrbWf, isAddr_of_lt ha, isU8_of_lt hv]
  · exact isAddr_of_lt ha
  · simp [AsmLine.wf, isAddr_of_lt ho, isU32_of_lt hm, isU32_of_lt hv]
  · rw [mapIdx_wrb_eq, assemble_map fun _ => rfl, assemble_singleton]
    rfl
  · have hstr : AsmLine.wf (.crcStr chars) = true := by simpa [AsmLine.wf] using hascii
    have hbytes : (chars.all fun c => AsmLine.wf (.crcByte c.toNat)) = true :=
      List.all_eq_true.mpr fun c hc => isU8_of_lt ((hascii c hc).trans (by decide))
    rw [assemble_of_wf hstr, assemble_map fun _ => rfl, if_pos hbytes]
    rfl

end Sys2Proof.Proofs
end

section
/-! PROOF. What carries a command (30_encoding.md R78, R85, R86): the wire command codes as the transfers of their bytes
(O20, O21, O33), the word that starts a code's packet (O22), and the `poll` loop (O43). -/
namespace Sys2Proof.Machine

/-- The first payload byte is the command, and the last when it is the whole payload (R146, R150). -/
theorem receiveTransfer_payload_start (b : Byte) {s : State} (hpay : s.decState = .pay) (h0 : s.rxRcvd = 0)
    (hlen : s.rxLen ≠ 0) :
    receiveTransfer b s =
      { s with
        mem := s.mem.write 0x20000 b
        rxCmd := b
        rxCrc := crcStep s.poly s.rxCrc b
        rxRcvd := 1
        rxResult := if s.rxLen = 1 then (if crcStep s.poly s.rxCrc b = 0 then .ok else .crcErr) else s.rxResult
        decState := if s.rxLen = 1 then .idle else .pay
        decDone := if s.rxLen = 1 then true else s.decDone } := by
  have hstart : storePayload b s =
      { s with mem := s.mem.write 0x20000 b, rxCmd := b, rxCrc := crcStep s.poly s.rxCrc b, rxRcvd := 1 } := by
    simp [storePayload, h0, State.fold, Config.rxbufBase]
  have hlast : s.rxRcvd.toNat + 1 = s.rxLen.toNat ↔ s.rxLen = 1 := by
    rw [h0, ← BitVec.toNat_inj]
    exact eq_comm
  have hmore : s.rxRcvd.toNat < s.rxLen.toNat := by simpa [h0] using toNat_pos_of_ne_zero hlen
  rw [receiveTransfer_payload hpay hmore, receivePayload, hstart]
  by_cases h1 : s.rxLen = 1
  · rw [if_pos (hlast.mpr h1)]
    simp only [h1, if_true]
    rfl
  · rw [if_neg (mt hlast.mp h1)]
    simp only [h1, if_false, hpay]

/-- The transmit transfer of the command byte (R122 to R125). -/
theorem transmitTransfer_cmd {s : State} (h : s.encState = .cmd) :
    transmitTransfer s =
      { s with
        txStream := s.txStream ++ [⟨s.txCmd, false⟩]
        txSent := s.txSent + 1
        txCrc := crcStep s.poly s.txCrc s.txCmd
        encState := if s.encN = 0 then .crcHi else .data } := by
  simp [transmitTransfer, State.offer, foldSent, emit, completeEncode, State.nextEncState, State.fold, h]

theorem execEnc_accepted {n : U16} {s : State} (b : Byte) (hidle : s.encState = .idle) (hfits : n.toNat ≤ Config.nMax) :
    execEnc b n s = .next (acceptEnc b n s) := by
  simp [execEnc, State.encBusy, hidle, lengthFits, hfits]

theorem hostOp_poll_over {a : Addr} {mask val v : Word} {s : State} (h : readValue .b32 a s = some v)
    (hval : v &&& mask = val) : hostOp (.poll a mask val) s = .next (logRead .b32 a v s) := by
  simp [hostOp, hostPoll, h, hval]

theorem hostOp_poll_again {a : Addr} {mask val v : Word} {s : State} (h : readValue .b32 a s = some v)
    (hval : v &&& mask ≠ val) :
    hostOp (.poll a mask val) s = .next ((logRead .b32 a v s).afterOp (.poll a mask val :: s.hostProgram)) := by
  simp [hostOp, hostPoll, h, hval]

end Sys2Proof.Machine

namespace Sys2Proof.Proofs
open Sys2Proof Sys2Proof.Machine

/-- Settles O20: each code decodes as received, so its instruction is the transfer of payload byte 0. -/
theorem deviceToHostCodesAreReceived : Obligations.DeviceToHostCodesAreReceived := by
  intro i code s hcode hpay h0 hlen
  have hdecode : decode (.wire .toHost code) = .ok i := by
    simp only [List.mem_cons, List.not_mem_nil, or_false, Prod.mk.injEq] at hcode
    rcases hcode with ⟨rfl, rfl⟩ | ⟨rfl, rfl⟩ | ⟨rfl, rfl⟩ | ⟨rfl, rfl⟩ | ⟨rfl, rfl⟩ <;> rfl
  rw [exec_of_receivedCode (receivedCode_of_decode hpay h0 hdecode), receiveTransfer_payload_start code hpay h0 hlen]

/-- Settles O21: each code decodes as sent, so its instruction is the transfer of the command byte. -/
theorem hostToDeviceCodesAreSent : Obligations.HostToDeviceCodesAreSent := by
  intro i code s hcode hcmd htx
  have hdecode : decode (.wire .toDevice code) = .ok i := by
    simp only [List.mem_cons, List.not_mem_nil, or_false, Prod.mk.injEq] at hcode
    rcases hcode with ⟨rfl, rfl⟩ | ⟨rfl, rfl⟩ | ⟨rfl, rfl⟩ | ⟨rfl, rfl⟩ <;> rfl
  subst htx
  rw [exec_of_offeredCode (offeredCode_of_decode hcmd hdecode), transmitTransfer_cmd hcmd]

/-- Settles O22: the word decodes to the ENC it encodes, which an idle encoder accepts. -/
theorem sendWordStartsItsPacket : Obligations.SendWordStartsItsPacket := by
  intro code n s hidle hfits
  have hwrite : hostOp (.write .b32 0x00000 (commandWord 0x3 code n)) s = .next (acceptEnc code n s) :=
    (hostOp_write_cmd (decode_encode (.enc code n)) s).trans (execEnc_accepted code hidle hfits)
  obtain ⟨hlen, -⟩ := (acceptEnc_sequenced code s hfits).1 nofun
  exact ⟨_, _, rfl, hwrite, rfl, rfl, rfl, hlen, rfl⟩

/-- Settles O33: both moves are the transfer, whether the byte decodes to a code or not. -/
theorem everyCommandByteIsCarriedAlike : Obligations.EveryCommandByteIsCarriedAlike :=
  fun s _ _ => ⟨txTakeMove_eq s, rdValidMove_eq⟩

/-- Settles O43: the loop ends or is put back by the value its one read returns. -/
theorem pollRepeatsUntilTheMaskedValue : Obligations.PollRepeatsUntilTheMaskedValue :=
  fun _ _ _ _ _ h => ⟨hostOp_poll_over h, hostOp_poll_again h⟩

end Sys2Proof.Proofs
end

section
/-! PROOF. The CRC-16 function (40_crc.md §1), for every `POLY`: its step in both forms (R103; O8), its fold (R104; O9), its
table (R101; O10) and the laws of R105 (O11, O12, O13). Everything rests on one fact: a fold step is eight rounds of the
shift register, from the running CRC with the byte folded into its high byte. -/
namespace Sys2Proof.Machine

/-! ### The two bytes of a running CRC (R9) -/

theorem hi8_append_lo8 (c : U16) : hi8 c ++ lo8 c = c :=
  BitVec.extractLsb'_append_extractLsb' (w := 8) (len := 8)

theorem append_xor_append (x y u v : Byte) : ((x ++ y : U16) ^^^ (u ++ v)) = (x ^^^ u) ++ (y ^^^ v) :=
  BitVec.xor_append

theorem lo8_append_zero (c : U16) : lo8 c ++ 0#8 = c <<< 8 := by
  rw [BitVec.shiftLeft_eq_concat_of_lt (by decide : 8 < 16)]
  rfl

theorem lo8_setWidth (x : Byte) : lo8 (x.setWidth 16) = x :=
  (BitVec.extractLsb'_setWidth_of_le (by decide)).trans BitVec.extractLsb'_eq_self

theorem hi8_shiftLeft (c : U16) : hi8 (c <<< 8) = lo8 c := by
  rw [← lo8_append_zero]
  exact BitVec.extractLsb'_append_eq_left

/-! ### Rounds of the shift register (R101) -/

/-- Two values that both fold `POLY` in cancel it. -/
theorem tableRound_xor (poly r q : U16) : tableRound poly (r ^^^ q) = tableRound poly r ^^^ tableRound poly q := by
  simp only [tableRound, BitVec.msb_xor, BitVec.shiftLeft_xor_distrib]
  cases r.msb <;> cases q.msb
  case false.false => rfl
  case false.true => exact BitVec.xor_assoc ..
  case true.false => exact (by ac_rfl : r <<< 1 ^^^ q <<< 1 ^^^ poly = (r <<< 1 ^^^ poly) ^^^ q <<< 1)
  case true.true =>
    have hcancel : r <<< 1 ^^^ q <<< 1 = (r <<< 1 ^^^ poly) ^^^ (q <<< 1 ^^^ poly) :=
      calc r <<< 1 ^^^ q <<< 1
          = (r <<< 1 ^^^ q <<< 1) ^^^ (poly ^^^ poly) := by rw [BitVec.xor_self, BitVec.xor_zero]
        _ = (r <<< 1 ^^^ poly) ^^^ (q <<< 1 ^^^ poly) := by ac_rfl
    exact hcancel

/-- No bit falls out of a value below `2 ^ 15`, so `POLY` is not folded in. -/
theorem tableRound_of_lt (poly : U16) {r : U16} (h : r.toNat < 2 ^ 15) : tableRound poly r = r <<< 1 := by
  rw [tableRound, if_neg]
  simpa [BitVec.msb_eq_decide] using h

theorem tableRounds_eq_iterate (poly : U16) (k : Nat) (r : U16) : tableRounds poly k r = (tableRound poly)^[k] r := by
  induction k generalizing r with
  | zero => rfl
  | succ k ih => exact ih (tableRound poly r)

theorem tableRounds_xor (poly : U16) (k : Nat) (r q : U16) :
    tableRounds poly k (r ^^^ q) = tableRounds poly k r ^^^ tableRounds poly k q := by
  induction k generalizing r q with
  | zero => rfl
  | succ k ih => rw [tableRounds, tableRound_xor, ih, tableRounds, tableRounds]

/-- Rounds in which no bit falls out only shift. -/
theorem tableRounds_of_lt (poly : U16) (k : Nat) {r : U16} (h : r.toNat * 2 ^ k < 2 ^ 16) :
    tableRounds poly k r = r <<< k := by
  induction k generalizing r with
  | zero => simp [tableRounds]
  | succ k ih =>
    have hdouble : r.toNat * 2 * 2 ^ k < 2 ^ 16 := by rwa [pow_succ', ← mul_assoc] at h
    have hlt : r.toNat * 2 < 2 ^ 16 := (Nat.le_mul_of_pos_right _ (Nat.two_pow_pos k)).trans_lt hdouble
    have hshift : (r <<< 1).toNat = r.toNat * 2 := by
      rw [BitVec.toNat_shiftLeft, Nat.shiftLeft_eq, pow_one, Nat.mod_eq_of_lt hlt]
    rw [tableRounds, tableRound_of_lt poly (by omega), ih (by rwa [hshift]), Nat.add_comm, BitVec.shiftLeft_add]

/-- Eight rounds bring a low byte up unchanged. -/
theorem tableRounds_zero_append (poly : U16) (x : Byte) : tableRounds poly 8 (0#8 ++ x) = x ++ 0#8 := by
  have hlow : (0#8 ++ x).toNat = x.toNat := by rw [BitVec.toNat_append]; simp
  have hx : lo8 (0#8 ++ x) = x := BitVec.extractLsb'_append_eq_right
  rw [tableRounds_of_lt poly 8 (by omega), ← lo8_append_zero, hx]

/-! ### The table (R101) -/

theorem crcTable_eq_rounds (poly : U16) (i : Byte) : crcTable poly i = tableRounds poly 8 (i ++ 0#8) := rfl

theorem crcTable_xor (poly : U16) (i j : Byte) : crcTable poly (i ^^^ j) = crcTable poly i ^^^ crcTable poly j := by
  simp only [crcTable_eq_rounds, ← tableRounds_xor, append_xor_append, BitVec.xor_self]

theorem crcTable_zero (poly : U16) : crcTable poly 0#8 = 0#16 := by
  have h := crcTable_xor poly 0#8 0#8
  rwa [BitVec.xor_self, BitVec.xor_self] at h

/-! ### The fold step (R103) -/

theorem crcStep_eq_shift (poly c : U16) (b : Byte) :
    crcStep poly c b = (c <<< 8) ^^^ crcTable poly (hi8 c ^^^ b) := by
  generalize ht : crcTable poly (hi8 c ^^^ b) = t
  calc crcStep poly c b
      = (lo8 c ^^^ hi8 t) ++ lo8 t := by rw [crcStep, ht]
    _ = (lo8 c ++ 0#8) ^^^ (hi8 t ++ lo8 t) := by simp only [append_xor_append, BitVec.zero_xor]
    _ = (c <<< 8) ^^^ t := by rw [lo8_append_zero, hi8_append_lo8]

/-- The step as the shift register makes it: the low byte moves up without meeting `POLY`, and the high byte, with `b`
folded in, is the table's index. -/
theorem crcStep_eq_rounds (poly c : U16) (b : Byte) :
    crcStep poly c b = tableRounds poly 8 (c ^^^ (b ++ 0#8)) := by
  have hsplit : c ^^^ (b ++ 0#8) = (0#8 ++ lo8 c) ^^^ ((hi8 c ^^^ b) ++ 0#8) := by
    conv_lhs => rw [← hi8_append_lo8 c]
    simp only [append_xor_append, BitVec.zero_xor]
  rw [crcStep_eq_shift, hsplit, tableRounds_xor, tableRounds_zero_append, lo8_append_zero, crcTable_eq_rounds]

/-! ### The fold (R104) -/

theorem crcFrom_cons (poly c : U16) (b : Byte) (s : List Byte) :
    crcFrom poly c (b :: s) = crcFrom poly (crcStep poly c b) s := rfl

theorem crc16_append (poly : U16) (s t : List Byte) : crc16 poly (s ++ t) = crcFrom poly (crc16 poly s) t :=
  List.foldl_append

/-! ### The zero residue (R105 law 1) -/

/-- Folding in the running CRC's own high byte looks up `T[0] = 0`. -/
theorem crcStep_hi8 (poly c : U16) : crcStep poly c (hi8 c) = c <<< 8 := by
  rw [crcStep_eq_shift, BitVec.xor_self, crcTable_zero, BitVec.xor_zero]

theorem crcFrom_own_bytes (poly c : U16) : crcFrom poly c [hi8 c, lo8 c] = 0 := by
  have hsecond : crcStep poly (c <<< 8) (lo8 c) = c <<< 8 <<< 8 := by rw [← hi8_shiftLeft, crcStep_hi8]
  calc crcFrom poly c [hi8 c, lo8 c]
      = crcStep poly (crcStep poly c (hi8 c)) (lo8 c) := rfl
    _ = c <<< 8 <<< 8 := by rw [crcStep_hi8, hsecond]
    _ = 0 := (BitVec.shiftLeft_add ..).symm.trans (BitVec.shiftLeft_eq_zero le_rfl)

/-! ### One wrong byte (R105 law 5) -/

/-- With the constant term 1, the bit that fell out at the top is seen again in bit 0. -/
theorem tableRound_getLsbD_zero {poly : U16} (hodd : poly.getLsbD 0 = true) (r : U16) :
    (tableRound poly r).getLsbD 0 = r.msb := by
  cases hr : r.msb <;> simp [tableRound, hr, hodd]

theorem tableRound_injective {poly : U16} (hodd : poly.getLsbD 0 = true) : Function.Injective (tableRound poly) := by
  intro r q h
  have hmsb : r.msb = q.msb := by
    rw [← tableRound_getLsbD_zero hodd r, h, tableRound_getLsbD_zero hodd]
  have hshift : r <<< 1 = q <<< 1 := by
    cases hq : q.msb <;> simpa [tableRound, hmsb, hq] using h
  rw [BitVec.msb_eq_decide, BitVec.msb_eq_decide, decide_eq_decide] at hmsb
  bv_omega

theorem tableRounds_injective {poly : U16} (hodd : poly.getLsbD 0 = true) (k : Nat) :
    Function.Injective (tableRounds poly k) := by
  rw [show tableRounds poly k = (tableRound poly)^[k] from funext (tableRounds_eq_iterate poly k)]
  exact (tableRound_injective hodd).iterate k

/-- One byte keeps two running CRCs apart. -/
theorem crcStep_injective_crc {poly : U16} (hodd : poly.getLsbD 0 = true) (b : Byte) :
    Function.Injective fun c => crcStep poly c b := by
  intro c d h
  simp only [crcStep_eq_rounds] at h
  exact (BitVec.xor_left_inj _).mp (tableRounds_injective hodd 8 h)

/-- Two bytes take one running CRC to two. -/
theorem crcStep_injective_byte {poly : U16} (hodd : poly.getLsbD 0 = true) (c : U16) :
    Function.Injective (crcStep poly c) := by
  intro x y h
  rw [crcStep_eq_rounds, crcStep_eq_rounds] at h
  exact (BitVec.append_left_inj 0#8).mp ((BitVec.xor_right_inj c).mp (tableRounds_injective hodd 8 h))

theorem crcFrom_injective {poly : U16} (hodd : poly.getLsbD 0 = true) (s : List Byte) :
    Function.Injective fun c => crcFrom poly c s := by
  induction s with
  | nil => exact Function.injective_id
  | cons b s ih => exact ih.comp (crcStep_injective_crc hodd b)

end Sys2Proof.Machine

namespace Sys2Proof.Proofs
open Sys2Proof Sys2Proof.Machine

/-- Settles O10: the sequence is the rounds from `i << 8`; linearity gives `T[0] = T[0] ^ T[0]`; no step writes `POLY`. -/
theorem crcTableIsEightRoundsAndLinear : Obligations.CrcTableIsEightRoundsAndLinear := by
  refine fun poly i j => ⟨⟨fun k => (tableRound poly)^[k] (i.setWidth 16 <<< 8), rfl, fun k => ?_, ?_⟩,
    crcTable_zero poly, crcTable_xor poly i j, fun s t h => ?_⟩
  · exact Function.iterate_succ_apply' ..
  · rw [crcTable_eq_rounds, tableRounds_eq_iterate, ← lo8_append_zero, lo8_setWidth]
  · rw [(step_effect h).poly_eq]

/-- Settles O11: each appended byte finds itself at the top of the running CRC and looks up `T[0] = 0`. -/
theorem crcResidueOfAppendedCrcIsZero : Obligations.CrcResidueOfAppendedCrcIsZero := by
  intro poly m b
  have hzero : crcStep poly 0 0 = 0 := crcStep_hi8 poly 0
  refine ⟨?_, ?_, ?_⟩
  · exact (crc16_append ..).trans (crcFrom_own_bytes ..)
  · exact congrArg (crcFrom poly · m) hzero
  · rw [crcStep_eq_rounds]
    exact congrArg (tableRounds poly 8) BitVec.zero_xor

/-- Settles O12: the wrong byte takes the CRC before it to another value, and the bytes after it keep the two apart. -/
theorem crcDetectsOneByteErrorForOddPoly : Obligations.CrcDetectsOneByteErrorForOddPoly := by
  intro poly a z x y hodd hne h
  rw [crc16_append, crc16_append] at h
  exact hne (crcStep_injective_byte hodd _ (crcFrom_injective hodd z h))

/-- Settles O8: the recombining form is the model's; in the other the low byte is the shifted CRC. -/
theorem crcStepIsShiftXorTable : Obligations.CrcStepIsShiftXorTable :=
  fun poly c b => ⟨rfl, crcStep_eq_shift poly c b⟩

/-- Settles O9: both functions are left folds, and a fold over an append goes on from the first part's. -/
theorem crcIsTheLeftFoldFromZero : Obligations.CrcIsTheLeftFoldFromZero :=
  fun poly s t b => ⟨rfl, rfl, crc16_snoc poly s b, fun _ => ⟨rfl, crc16_append poly s t⟩⟩

/-- Refutes O13: with `POLY = 0x8000`, the register started from `0x0300` meets `POLY` as `0xC000 << 1` and is 0 after
seven rounds, so the one-byte messages `00` and `03` have the same CRC. -/
theorem not_crcDetectsOneByteErrorForNonzeroPoly : ¬ Obligations.CrcDetectsOneByteErrorForNonzeroPoly := by
  intro h
  exact h 0x8000 [] [] 0x00 0x03 (by decide) (by decide) (by decide)

end Sys2Proof.Proofs
end

section
/-! PROOF. The commands of the CRC unit (40_crc.md §2): their effect (R106 to R108; O15), their frame (O23) and the fold of a
whole string (R108, "Together"; O16). -/
namespace Sys2Proof.Machine

theorem exec_nop (s : State) : exec .nop s = .next s := rfl

theorem exec_crcClr (s : State) : exec .crcClr s = .next (setCrcAcc 0x0000 s) := rfl

theorem exec_crcByte (b : Byte) (s : State) : exec (.crcByte b) s = .next (setCrcAcc (crcStep s.poly s.crcAcc b) s) := rfl

/-- Each command of the CRC unit sets CRC_ACC: NOP to what it was. -/
theorem exec_crcUnit {i : Instr} (hi : i = .nop ∨ i = .crcClr ∨ ∃ b, i = .crcByte b) (s : State) :
    ∃ c, exec i s = .next (setCrcAcc c s) := by
  rcases hi with rfl | rfl | ⟨b, rfl⟩
  · exact ⟨s.crcAcc, exec_nop s⟩
  · exact ⟨0x0000, exec_crcClr s⟩
  · exact ⟨_, exec_crcByte b s⟩

/-- A host move performs the CMD write at the head of the host's program (R23, R60). -/
theorem runMoves_host_cmd {w : Word} {i : Instr} {ops : List HostOp} {ms : List Move} {s u : State}
    (hprog : s.hostProgram = .write .b32 0x00000 w :: ops) (hd : decode (.word w) = .ok i)
    (hexec : exec i ((s.afterMove ms).afterOp ops) = .next u) (hs : u.schedule = ms) :
    runMoves (.host :: ms) s = runMoves ms u := by
  have hmove : perform .host (s.afterMove ms) = .next u := by
    rw [perform, hostMove, afterMove_hostProgram, hprog]
    exact (hostOp_write_cmd hd _).trans hexec
  exact runMoves_cons hmove hs

/-- Host moves through the CMD writes of `crc.byte` for each byte of a string: the fold from CRC_ACC as it was (R108). -/
theorem runMoves_crcBytes {bytes : List Byte} {s : State}
    (hprog : s.hostProgram = bytes.map fun b => .write .b32 0x00000 (commandWord 0x2 b 0)) :
    runMoves (List.replicate bytes.length .host) s =
      .next { s with hostProgram := [], schedule := [], crcAcc := crcFrom s.poly s.crcAcc bytes } := by
  induction bytes generalizing s with
  | nil =>
    cases s
    subst hprog
    rfl
  | cons b bytes ih =>
    rw [List.length_cons, List.replicate_succ,
      runMoves_host_cmd hprog (decode_encode (.crcByte b)) (exec_crcByte ..) rfl, ih rfl]
    simp only [crcFrom_cons, setCrcAcc, State.afterOp, State.afterMove]

end Sys2Proof.Machine

namespace Sys2Proof.Proofs
open Sys2Proof Sys2Proof.Machine

/-- Settles O16: CRC_CLR seeds CRC_ACC with 0, and the fold of the bytes goes on from there. -/
theorem crcCommandsFoldAWholeString : Obligations.CrcCommandsFoldAWholeString := by
  intro bytes s
  have hclr : decode (.word 0x10000000) = .ok .crcClr := decode_encode .crcClr
  rw [List.replicate_succ, runMoves_host_cmd rfl hclr (exec_crcClr _) rfl, runMoves_crcBytes rfl, crc16]
  simp only [setCrcAcc, State.afterOp, State.afterMove]

/-- Settles O15: no command looks at another unit. -/
theorem crcUnitCommandsHaveTheirEffect : Obligations.CrcUnitCommandsHaveTheirEffect :=
  fun b s => ⟨exec_nop s, exec_crcClr s, exec_crcByte b s⟩

/-- Settles O23: setting CRC_ACC touches no other field. -/
theorem crcUnitFrame : Obligations.CrcUnitFrame := by
  intro i s t hi h
  obtain ⟨c, hc⟩ := exec_crcUnit hi s
  cases hc.symm.trans h
  exact ⟨rfl, fun _ => rfl⟩

end Sys2Proof.Proofs
end

section
/-! PROOF. ENC (41_encoder.md §2): its acceptance (R121; O17) and its frame (R121, R131; O24); the transmit transfer in each
encoder state (R122 to R126; O29) and what a sent wire code leaves (R123, R131; O27). -/
namespace Sys2Proof.Machine

/-! ### ENC -/

/-- Everything an ENC can do: the busy check comes before the length check (R192 to R194). -/
theorem execEnc_cases (b : Byte) (n : U16) (s : State) :
    (s.encState ≠ .idle ∧ execEnc b n s = .next (rejectBusy s)) ∨
      (s.encState = .idle ∧ Config.nMax < n.toNat ∧ execEnc b n s = .next (rejectLength s)) ∨
      (s.encState = .idle ∧ n.toNat ≤ Config.nMax ∧ execEnc b n s = .next (acceptEnc b n s)) := by
  by_cases hidle : s.encState = .idle
  · by_cases hfits : n.toNat ≤ Config.nMax
    · exact .inr (.inr ⟨hidle, hfits, execEnc_accepted b hidle hfits⟩)
    · exact .inr (.inl ⟨hidle, Nat.lt_of_not_le hfits, by simp [execEnc, State.encBusy, hidle, lengthFits, hfits]⟩)
  · exact .inl ⟨hidle, by simp [execEnc, State.encBusy, hidle]⟩

theorem payloadLength_eq_ofNat (n : U16) : payloadLength n = BitVec.ofNat 16 (3 + n.toNat) := by
  simp [payloadLength, BitVec.ofNat_add]

/-! ### The transmit transfer in each encoder state -/

theorem transmitTransfer_lenHi {s : State} (h : s.encState = .lenHi) :
    transmitTransfer s =
      { s with
        txStream := s.txStream ++ [⟨hi8 s.txLen, false⟩]
        txSent := s.txSent + 1
        encState := .lenLo } := by
  simp [transmitTransfer, State.offer, foldSent, emit, completeEncode, State.nextEncState, h]

theorem transmitTransfer_lenLo {s : State} (h : s.encState = .lenLo) :
    transmitTransfer s =
      { s with
        txStream := s.txStream ++ [⟨lo8 s.txLen, true⟩]
        txSent := s.txSent + 1
        encState := .cmd } := by
  simp [transmitTransfer, State.offer, foldSent, emit, completeEncode, State.nextEncState, h]

theorem transmitTransfer_data {s : State} (h : s.encState = .data) :
    transmitTransfer s =
      { s with
        txStream := s.txStream ++ [⟨s.txbuf s.encIdx.toNat, false⟩]
        txSent := s.txSent + 1
        txCrc := crcStep s.poly s.txCrc (s.txbuf s.encIdx.toNat)
        encIdx := s.encIdx + 1
        encState := if s.encIdx + 1 = s.encN then .crcHi else .data } := by
  simp [transmitTransfer, State.offer, foldSent, emit, completeEncode, State.nextEncState, State.fold, h]

theorem transmitTransfer_crcHi {s : State} (h : s.encState = .crcHi) :
    transmitTransfer s =
      { s with
        txStream := s.txStream ++ [⟨hi8 s.txCrc, false⟩]
        txSent := s.txSent + 1
        encState := .crcLo } := by
  simp [transmitTransfer, State.offer, foldSent, emit, completeEncode, State.nextEncState, h]

theorem transmitTransfer_crcLo {s : State} (h : s.encState = .crcLo) :
    transmitTransfer s =
      { s with
        txStream := s.txStream ++ [⟨lo8 s.txCrc, true⟩]
        txSent := s.txSent + 1
        encState := .idle
        encDone := true } := by
  simp [transmitTransfer, State.offer, foldSent, emit, completeEncode, State.nextEncState, h]

/-- A transmit step is the transmit transfer (R123). -/
theorem step_txTake {s : State} {moves : List Move} (h : s.schedule = .txTake :: moves) :
    step s = .next (transmitTransfer (s.afterMove moves)) := by
  rw [step_of_schedule h, perform, txTakeMove_eq]

@[simp] theorem transmitTransfer_bufferByte (s : State) (a : Nat) :
    (transmitTransfer s).bufferByte a = s.bufferByte a := by
  rw [transmitTransfer_fields]; rfl

/-! ### The sent wire codes -/

theorem exec_sentCode {i : Instr} (hi : i ∈ [Instr.bl, .frame, .done .toDevice, .date]) :
    ∃ code, ∀ s, exec i s = carryToDevice code s := by
  simp only [List.mem_cons, List.not_mem_nil, or_false] at hi
  rcases hi with rfl | rfl | rfl | rfl
  · exact ⟨codeBl, fun _ => rfl⟩
  · exact ⟨codeFrame, fun _ => rfl⟩
  · exact ⟨codeDone, fun _ => rfl⟩
  · exact ⟨codeDate, fun _ => rfl⟩

/-- A code that is not the byte on offer is not carried. -/
theorem carryToDevice_cases (code : Byte) (s : State) :
    carryToDevice code s = .next (transmitTransfer s) ∨ carryToDevice code s = .next s :=
  ite_eq_or_eq ..

end Sys2Proof.Machine

namespace Sys2Proof.Proofs
open Sys2Proof Sys2Proof.Machine

/-- Settles O17: neither check of R121 holds, and `3 + N` is TX_LEN's value. -/
theorem encAcceptedWhenIdleAndFits : Obligations.EncAcceptedWhenIdleAndFits := by
  intro b n s hidle hfits
  rw [← payloadLength_eq_ofNat]
  exact execEnc_accepted b hidle hfits

/-- Settles O24: a rejected ENC sets its one error bit; an accepted one takes the encoder out of IDLE. -/
theorem encFrame : Obligations.EncFrame := by
  intro b n s t h
  rcases execEnc_cases b n s with ⟨_, he⟩ | ⟨_, _, he⟩ | ⟨hidle, _, he⟩
  · cases he.symm.trans h
    exact ⟨rfl, fun _ => rfl, fun _ => rfl, id, fun _ => rfl⟩
  · cases he.symm.trans h
    exact ⟨rfl, fun _ => rfl, id, fun _ => rfl, fun _ => rfl⟩
  · cases he.symm.trans h
    exact ⟨rfl, fun _ => rfl, id, id, fun hsame => absurd (hsame.trans hidle) nofun⟩

/-- Settles O27: each code is carried by a transmit transfer, or there is none. -/
theorem sentCodeFrame : Obligations.SentCodeFrame := by
  intro i s t hi h
  obtain ⟨code, hcode⟩ := exec_sentCode hi
  rw [hcode] at h
  rcases carryToDevice_cases code s with hc | hc
  · cases hc.symm.trans h
    exact ⟨transmitTransfer_fields s, transmitTransfer_bufferByte s⟩
  · cases hc.symm.trans h
    exact ⟨rfl, fun _ => rfl⟩

/-- Settles O29: a transmit step is the transfer of its encoder state. -/
theorem transmitTransferInEachState : Obligations.TransmitTransferInEachState := by
  intro s moves hs
  rw [step_txTake hs]
  exact ⟨fun h => congrArg _ (transmitTransfer_idle (s := s.afterMove moves) h),
    fun h => congrArg _ (transmitTransfer_lenHi (s := s.afterMove moves) h),
    fun h => congrArg _ (transmitTransfer_lenLo (s := s.afterMove moves) h),
    fun h => congrArg _ (transmitTransfer_cmd (s := s.afterMove moves) h),
    fun h => congrArg _ (transmitTransfer_data (s := s.afterMove moves) h),
    fun h => congrArg _ (transmitTransfer_crcHi (s := s.afterMove moves) h),
    fun h => congrArg _ (transmitTransfer_crcLo (s := s.afterMove moves) h)⟩

end Sys2Proof.Proofs
end

section
/-! PROOF. A whole encode (41_encoder.md R120, R126, R127): the transfer that completes it, under any interleaving (O50), and
the `N + 5` transfers of an encoder that runs alone (O58). -/
namespace Sys2Proof.Machine

/-! ### The packet -/

theorem writeUnit_map_data (l : List Byte) : (writeUnit l).map TxByte.data = l := by
  fun_induction writeUnit l with
  | case1 => rfl
  | case2 => rfl
  | case3 b c rest ih => rw [List.map_cons, ih]

/-- The marks apart, the marked packet is the packet (R84, R120). -/
theorem markedPacket_map_data (poly : U16) (c : Byte) (d : List Byte) :
    (markedPacket poly c d).map TxByte.data = encodePacket poly c d := by
  rw [markedPacket, List.map_append, writeUnit_map_data, writeUnit_map_data, encodePacket]

theorem length_markedPacket (poly : U16) (c : Byte) (d : List Byte) : (markedPacket poly c d).length = d.length + 5 := by
  simp [markedPacket_eq]

/-- The packet of TX_CMD and `TXBUF[0 .. enc_n)`, with its marks. -/
def State.packet (s : State) : List TxByte := markedPacket s.poly s.txCmd (s.txBytes s.encN.toNat)

@[simp] theorem packet_transmitTransfer (s : State) : (transmitTransfer s).packet = s.packet := by
  simp [State.packet]

theorem length_packet (s : State) : s.packet.length = s.encN.toNat + 5 := by
  rw [State.packet, length_markedPacket, length_txBytes]

/-! ### An encode on its way, and completed -/

/-- The encoder runs, and the stream is `before` and then its packet but for the last `left` bytes (R37, R123, R127). -/
structure Sending (before : List TxByte) (left : Nat) (s : State) : Prop where
  busy : s.encState ≠ .idle
  sequenced : EncSequenced s
  crc : TxCrcCovers s
  stream : s.txStream = before ++ s.packet.take s.txSent.toNat
  sent : s.txSent.toNat + left = s.encN.toNat + 5

/-- The encode that ran in `s` is completed in `t`, its packet on the stream after `before` (R126, R127). -/
structure EncodeCompleted (before : List TxByte) (s t : State) : Prop where
  encState : t.encState = .idle
  encDone : t.encDone = true
  txStream : t.txStream = before ++ s.packet
  txSent : t.txSent.toNat = s.encN.toNat + 5
  txLen : t.txLen.toNat = s.encN.toNat + 3
  txCmd : t.txCmd = s.txCmd
  txCrc : t.txCrc = crc16 s.poly (s.txCmd :: s.txBytes s.encN.toNat)

/-- Only the packet that ran counts. -/
theorem EncodeCompleted.of_packetHeld {before : List TxByte} {s r t : State} (h : EncodeCompleted before r t)
    (hpoly : r.poly = s.poly) (held : PacketHeld s r) : EncodeCompleted before s t := by
  have hbytes : r.txBytes s.encN.toNat = s.txBytes s.encN.toNat := txBytes_congr held.txbuf s.encN.isLt.le
  have hpacket : r.packet = s.packet := by rw [State.packet, hpoly, held.txCmd, held.encN, hbytes, State.packet]
  obtain ⟨hstate, hdone, hstream, hsent, hlen, hcmd, hcrc⟩ := h
  rw [hpacket] at hstream
  rw [held.encN] at hsent hlen
  rw [hpoly, held.txCmd, held.encN, hbytes] at hcrc
  exact ⟨hstate, hdone, hstream, hsent, hlen, hcmd.trans held.txCmd, hcrc⟩

/-- Only the transfer out of CRC_LO ends the encode and sets ENC_DONE (R125, R126). -/
theorem transmitTransfer_unfinished {s : State} (busy : s.encState ≠ .idle) (h : s.encState ≠ .crcLo) :
    (transmitTransfer s).encState ≠ .idle ∧ (transmitTransfer s).encDone = s.encDone := by
  cases he : s.encState with
  | idle => exact absurd he busy
  | lenHi => rw [transmitTransfer_lenHi he]; exact ⟨nofun, rfl⟩
  | lenLo => rw [transmitTransfer_lenLo he]; exact ⟨nofun, rfl⟩
  | cmd => rw [transmitTransfer_cmd he]; exact ⟨by dsimp only; split <;> nofun, rfl⟩
  | data => rw [transmitTransfer_data he]; exact ⟨by dsimp only; split <;> nofun, rfl⟩
  | crcHi => rw [transmitTransfer_crcHi he]; exact ⟨nofun, rfl⟩
  | crcLo => exact absurd he h

/-- By CRC_LO all of the data is folded into TX_CRC (R124). -/
theorem txCrc_of_crcLo {s : State} (hs : EncSequenced s) (hc : TxCrcCovers s) (h : s.encState = .crcLo) :
    s.txCrc = crc16 s.poly (s.txCmd :: s.txBytes s.encN.toNat) := by
  obtain ⟨-, hcount⟩ := hs
  simp only [EncCounters, TxCrcCovers, h] at hcount hc
  rw [hc, hcount.2]

namespace Sending

variable {before : List TxByte} {left : Nat} {s : State}

/-- One byte is left exactly in CRC_LO (R37). -/
theorem crcLo_iff (h : Sending before left s) : s.encState = .crcLo ↔ left = 1 := by
  obtain ⟨busy, ⟨-, hcount⟩, -, -, hsent⟩ := h
  unfold EncCounters at hcount
  cases he : s.encState <;> simp only [he, reduceCtorEq, false_iff, true_iff] at hcount ⊢
  case idle => exact absurd he busy
  all_goals omega

theorem txSent_transmitTransfer (h : Sending before left s) :
    (transmitTransfer s).txSent.toNat = s.txSent.toNat + 1 := by
  rw [transmitTransfer_txSent h.busy, h.sequenced.txSent_succ_toNat h.busy]

theorem txStream_transmitTransfer (h : Sending before left s) :
    (transmitTransfer s).txStream = before ++ s.packet.take (s.txSent.toNat + 1) := by
  have hoffer : s.packet[s.txSent.toNat]? = s.offer := offer_eq_packet_byte h.sequenced h.crc h.busy
  rw [transmitTransfer_stream, h.stream, List.take_add_one, hoffer, List.append_assoc]

/-- A transfer that leaves more to send keeps the encode on its way. -/
theorem transfer (h : Sending before (left + 2) s) : Sending before (left + 1) (transmitTransfer s) where
  busy := (transmitTransfer_unfinished h.busy (mt h.crcLo_iff.mp (by omega))).1
  sequenced := transmitTransfer_sequenced h.sequenced
  crc := transmitTransfer_txCrcCovers h.sequenced h.crc
  stream := by rw [h.txStream_transmitTransfer, h.txSent_transmitTransfer, packet_transmitTransfer]
  sent := by
    have := h.sent
    rw [h.txSent_transmitTransfer, transmitTransfer_encN]
    omega

/-- The transfer of the last byte completes the encode (R126, R127). -/
theorem transfer_last (h : Sending before 1 s) : EncodeCompleted before s (transmitTransfer s) := by
  have hlo : s.encState = .crcLo := h.crcLo_iff.mpr rfl
  have hsent : (transmitTransfer s).txSent.toNat = s.encN.toNat + 5 := by rw [h.txSent_transmitTransfer, ← h.sent]
  have hstream : (transmitTransfer s).txStream = before ++ s.packet := by
    rw [h.txStream_transmitTransfer, h.sent, ← length_packet, List.take_length]
  obtain ⟨hlen, -⟩ := h.sequenced.1 h.busy
  have hcrc := txCrc_of_crcLo h.sequenced h.crc hlo
  rw [transmitTransfer_crcLo hlo] at hsent hstream ⊢
  exact ⟨rfl, rfl, hstream, hsent, hlen.trans (Nat.add_comm ..), rfl, hcrc⟩

end Sending

/-- A running encoder that meets the invariants is sending its packet. -/
theorem exists_sending {s : State} (hs : EncSequenced s) (hc : TxCrcCovers s) (h : StreamCarriesPacket s)
    (busy : s.encState ≠ .idle) : ∃ before left, Sending before left s := by
  obtain ⟨before, hstream⟩ := h busy
  have hlt := hs.txSent_lt busy
  exact ⟨before, s.encN.toNat + 5 - s.txSent.toNat, busy, hs, hc, hstream, by omega⟩

/-- What a step did to a running encoder whose encode it completed was its last transfer. -/
theorem EncEffect.encodeCompleted {s t : State} (e : EncEffect s t) (hs : EncSequenced s) (hc : TxCrcCovers s)
    (h : StreamCarriesPacket s) (busy : s.encState ≠ .idle) (hdone : t.encDone = true) :
    ∃ before, EncodeCompleted before s t := by
  obtain ⟨-, hclear⟩ := hs.1 busy
  cases e with
  | same hsame => exact absurd (hsame.encDone hclear) (by simp [hdone])
  | accepted idle => exact absurd idle busy
  | reset _ _ done => exact absurd done (by simp [hdone])
  | taken _ r hsame eq =>
    subst eq
    have rbusy : r.encState ≠ .idle := hsame.encState ▸ busy
    obtain ⟨before, left, hsending⟩ :=
      exists_sending (hsame.sequenced hs) (hsame.txCrcCovers hc) (hsame.streamCarriesPacket h) rbusy
    have hlo : r.encState = .crcLo := by
      by_contra hne
      have := (transmitTransfer_unfinished rbusy hne).2.trans (hsame.encDone hclear)
      exact absurd hdone (by simp [this])
    obtain rfl := hsending.crcLo_iff.mp hlo
    exact ⟨before, hsending.transfer_last.of_packetHeld hsame.poly (hsame.packetHeld busy)⟩

/-! ### The encoder alone -/

theorem acceptEnc_sending (b : Byte) {n : U16} (s : State) (hfits : n.toNat ≤ Config.nMax) :
    Sending s.txStream (n.toNat + 5) (acceptEnc b n s) where
  busy := nofun
  sequenced := acceptEnc_sequenced b s hfits
  crc := acceptEnc_txCrcCovers b n s
  stream := by simp
  sent := by simp

/-- A transfer does not look at the schedule. -/
theorem transmitTransfer_afterMove (s : State) (moves : List Move) :
    transmitTransfer (s.afterMove moves) = (transmitTransfer s).afterMove moves := by
  cases he : s.encState <;>
    simp [transmitTransfer, State.offer, foldSent, emit, completeEncode, State.nextEncState, State.fold, he,
      State.afterMove, State.txbuf, State.bufferByte]

/-- A transmit move of a run is a transfer (R123). -/
theorem runMoves_txTake (ms : List Move) (s : State) :
    runMoves (.txTake :: ms) s = runMoves ms (transmitTransfer s) := by
  have hmove : perform .txTake (s.afterMove ms) = .next ((transmitTransfer s).afterMove ms) := by
    rw [perform, txTakeMove_eq, transmitTransfer_afterMove]
  rw [runMoves_cons hmove rfl, runMoves_afterMove]

/-- As many transmit moves as there are bytes left complete the encode. -/
theorem Sending.runMoves_completed {before : List TxByte} {left : Nat} {s : State} (h : Sending before (left + 1) s) :
    ∃ t, runMoves (List.replicate (left + 1) .txTake) s = .next t ∧ EncodeCompleted before s t ∧ t.mem = s.mem := by
  induction left generalizing s with
  | zero =>
    rw [List.replicate_one, runMoves_txTake, runMoves_nil]
    obtain ⟨hstate, hdone, hstream, hsent, hlen, hcmd, hcrc⟩ := h.transfer_last
    exact ⟨_, rfl, ⟨hstate, hdone, hstream, hsent, hlen, hcmd, hcrc⟩, transmitTransfer_mem s⟩
  | succ left ih =>
    obtain ⟨t, hrun, hcompleted, hmem⟩ := ih h.transfer
    have held : PacketHeld s (transmitTransfer s) := PacketHeld.transmitTransfer ⟨fun _ _ => rfl, rfl, rfl, rfl⟩
    rw [List.replicate_succ, runMoves_txTake]
    exact ⟨t, hrun, hcompleted.of_packetHeld (transmitTransfer_poly s) held, hmem.trans (transmitTransfer_mem s)⟩

end Sys2Proof.Machine

namespace Sys2Proof.Proofs
open Sys2Proof Sys2Proof.Machine

/-- Settles O50: of all a step can do to a running encoder, only the transfer of its packet's last byte sets ENC_DONE. -/
theorem completedEncodeHasSentItsPacket : Obligations.CompletedEncodeHasSentItsPacket := by
  intro s t hs hr h busy hstep hdone
  obtain ⟨before, hstate, -, hstream, hsent, hlen, hcmd, hcrc⟩ :=
    (step_encEffect hstep).encodeCompleted hs.encoder hr.transmit h busy hdone
  exact ⟨hstate, ⟨before, hstream⟩, hsent, hlen, hcmd, hcrc⟩

/-- Settles O58: acceptance leaves `N + 5` bytes to send, and each transfer sends the packet's next one. -/
theorem encodeSendsThePacket : Obligations.EncodeSendsThePacket := by
  intro b n s s1 hidle hfits h
  cases (execEnc_accepted b hidle hfits).symm.trans h
  obtain ⟨t, hrun, ⟨hstate, hdone, hstream, hsent, hlen, hcmd, hcrc⟩, hmem⟩ :=
    (acceptEnc_sending b s hfits).runMoves_completed
  exact ⟨t, hrun, hstream, markedPacket_map_data .., hstate, hdone, hsent, hlen, hcmd, hcrc, hmem⟩

end Sys2Proof.Proofs
end

section
/-! PROOF. DEC (42_decoder.md §2): its acceptance and rejection (R141, R142, R192; O19) and its frame (R156; O25); the receive
transfer and the timeout in each decoder state (R143 to R148; O30, O31, O32), and what a received wire code leaves (O26). -/
namespace Sys2Proof.Machine

/-! ### DEC -/

theorem execDec_accepted {s : State} (h : s.decState = .idle) : execDec s = .next (acceptDec s) := by
  simp [execDec, State.decBusy, h]

theorem execDec_rejected {s : State} (h : s.decState ≠ .idle) : execDec s = .next (rejectBusy s) := by
  simp [execDec, State.decBusy, h]

/-! ### The receive transfer and the timeout in each decoder state -/

/-- `max(0, L - 3)` is the truncated difference (R33). -/
theorem dataLength_eq_ofNat (l : U16) : dataLength l = BitVec.ofNat 16 (l.toNat - 3) := by
  unfold dataLength
  split
  · simp [Nat.sub_eq_zero_of_le ‹_›]
  · bv_omega

theorem receiveSecond_empty {b : Byte} {s : State} (h : bigEndian s.decLhi b = 0) :
    receiveSecond b s = { s with rxLen := 0, rxDlen := 0, rxResult := .empty, decState := .idle, decDone := true } := by
  simp [receiveSecond, h, finish, dataLength]

theorem receiveSecond_pay {b : Byte} {s : State} (h : bigEndian s.decLhi b ≠ 0) :
    receiveSecond b s =
      { s with
        rxLen := bigEndian s.decLhi b
        rxDlen := BitVec.ofNat 16 ((bigEndian s.decLhi b).toNat - 3)
        decState := .pay
        rdRequests := s.rdRequests ++ [bigEndian s.decLhi b] } := by
  rw [receiveSecond, if_neg h, ← dataLength_eq_ofNat]
  rfl

/-- A payload byte, the last one or not (R146, R150). -/
theorem receivePayload_eq {b : Byte} {s : State} (h : s.decState = .pay) :
    receivePayload b s =
      { s with
        mem := s.mem.write (Config.rxbufBase + s.rxRcvd.toNat) b
        rxCmd := if s.rxRcvd = 0 then b else s.rxCmd
        rxCrc := crcStep s.poly s.rxCrc b
        rxRcvd := s.rxRcvd + 1
        rxResult := if s.rxRcvd.toNat + 1 = s.rxLen.toNat then
            (if crcStep s.poly s.rxCrc b = 0 then .ok else .crcErr) else s.rxResult
        decState := if s.rxRcvd.toNat + 1 = s.rxLen.toNat then .idle else .pay
        decDone := if s.rxRcvd.toNat + 1 = s.rxLen.toNat then true else s.decDone } := by
  by_cases hlast : s.rxRcvd.toNat + 1 = s.rxLen.toNat
  · simp only [receivePayload, hlast, if_true]
    rfl
  · simp only [receivePayload, hlast, if_false, ← h]
    rfl

/-- A receive step with a byte held and wanted is the receive transfer (R208, R210). -/
theorem step_rdValid {s : State} {moves : List Move} {b : Byte} {held : List Byte} (hs : s.schedule = .rdValid :: moves)
    (hheld : s.rxHeld = b :: held) (hw : 0 < s.want) :
    step s = .next (receiveTransfer b ((s.afterMove moves).afterByte held)) := by
  rw [step_of_schedule hs]
  exact rdValidMove_eq (s := s.afterMove moves) hheld hw

theorem step_rdTimeout {s : State} {moves : List Move} (hs : s.schedule = .rdTimeout :: moves) :
    step s = .next (readTimeout (s.afterMove moves)) := by
  rw [step_of_schedule hs, perform]

/-! ### The received wire codes -/

theorem exec_receivedWireCode {i : Instr} (hi : i ∈ [Instr.ver, .next, .retry, .done .toHost, .msg]) :
    ∃ code, ∀ s, exec i s = .next (receiveTransfer code s) := by
  simp only [List.mem_cons, List.not_mem_nil, or_false] at hi
  rcases hi with rfl | rfl | rfl | rfl | rfl
  · exact ⟨codeVer, fun _ => rfl⟩
  · exact ⟨codeNext, fun _ => rfl⟩
  · exact ⟨codeRetry, fun _ => rfl⟩
  · exact ⟨codeDone, fun _ => rfl⟩
  · exact ⟨codeMsg, fun _ => rfl⟩

@[simp] theorem receiveTransfer_bufferEpoch (b : Byte) (s : State) :
    (receiveTransfer b s).bufferEpoch = s.bufferEpoch := by
  rw [receiveTransfer_fields]

/-- A receive transfer stores its byte at `RXBUF[RX_RCVD]` and nowhere else (R146). -/
theorem receiveTransfer_bufferByte_other (b : Byte) (s : State) {a : Nat} (h : a ≠ Config.rxbufBase + s.rxRcvd.toNat) :
    (receiveTransfer b s).bufferByte a = s.bufferByte a := by
  have hmem := receiveTransfer_mem b s
  split at hmem
  · rw [bufferByte_of_write hmem (receiveTransfer_bufferEpoch b s), if_neg h]
  · exact bufferByte_congr hmem (receiveTransfer_bufferEpoch b s) a

/-- Where no payload byte is wanted, nothing is stored (R146). -/
theorem receiveTransfer_mem_of_no_payload (b : Byte) {s : State} (h : s.decState ≠ .pay ∨ s.want = 0) :
    (receiveTransfer b s).mem = s.mem := by
  rcases h with hpay | hw
  · rw [receiveTransfer_mem, if_neg fun hp => hpay hp.1]
  · rw [receiveTransfer_unwanted hw]

end Sys2Proof.Machine

namespace Sys2Proof.Proofs
open Sys2Proof Sys2Proof.Machine

/-- Settles O19: the one check of R141 is whether the decoder is busy. -/
theorem decAcceptedWhenIdleElseRejected : Obligations.DecAcceptedWhenIdleElseRejected :=
  fun _ => ⟨execDec_accepted, execDec_rejected⟩

/-- Settles O25: an accepted DEC and a rejected one each write fields that are listed, ERR_BUSY only by setting it. -/
theorem decFrame : Obligations.DecFrame := by
  intro s t h
  by_cases hidle : s.decState = .idle
  · cases (execDec_accepted hidle).symm.trans h
    exact ⟨rfl, fun _ => rfl, id⟩
  · cases (execDec_rejected hidle).symm.trans h
    exact ⟨rfl, fun _ => rfl, fun _ => rfl⟩

/-- Settles O26: each code is carried by a receive transfer, which stores at most its one byte. -/
theorem receivedCodeFrame : Obligations.ReceivedCodeFrame := by
  intro i s t hi h
  obtain ⟨code, hcode⟩ := exec_receivedWireCode hi
  cases (hcode s).symm.trans h
  exact ⟨receiveTransfer_fields code s, fun _ ha => receiveTransfer_bufferByte_other code s ha,
    fun hno => bufferByte_congr (receiveTransfer_mem_of_no_payload code hno) (receiveTransfer_bufferEpoch code s)⟩

/-- Settles O30: in LEN a byte is always wanted, and the second one gives the length. -/
theorem prefixBytesGiveTheLength : Obligations.PrefixBytesGiveTheLength := by
  intro s moves b held hs hheld hlen
  rw [step_rdValid hs hheld (want_len_pos hlen)]
  have hlen' : ((s.afterMove moves).afterByte held).decState = .len := hlen
  exact ⟨fun h0 => congrArg _ (receiveTransfer_first hlen' h0),
    fun h1 hzero => congrArg _ ((receiveTransfer_second hlen' h1).trans (receiveSecond_empty hzero)),
    fun h1 hpos => congrArg _ ((receiveTransfer_second hlen' h1).trans (receiveSecond_pay hpos))⟩

/-- Settles O31: with `RX_RCVD < RX_LEN` the byte is wanted, and its transfer is the payload's. -/
theorem payloadByteIsStoredAndFolded : Obligations.PayloadByteIsStoredAndFolded := by
  intro s moves b held hs hheld hpay hmore
  rw [step_rdValid hs hheld ((want_pay_pos_iff hpay).mpr hmore)]
  exact congrArg _ ((receiveTransfer_payload (s := (s.afterMove moves).afterByte held) hpay hmore).trans
    (receivePayload_eq hpay))

/-- Settles O32: a timeout ends the decode of its state, and is ignored where no byte is wanted. -/
theorem timeoutEndsTheOutstandingRead : Obligations.TimeoutEndsTheOutstandingRead := by
  intro s moves hs
  rw [step_rdTimeout hs]
  exact ⟨fun h => congrArg _ (readTimeout_len (s := s.afterMove moves) h),
    fun h hl => congrArg _ (readTimeout_pay (s := s.afterMove moves) h hl),
    fun hw => congrArg _ (readTimeout_unwanted (s := s.afterMove moves) hw)⟩

end Sys2Proof.Proofs
end

section
/-! PROOF. A whole decode (42_decoder.md R140, R149 to R151): the decoder alone, from the acceptance of a DEC, through the
length bytes, the payload and the timeout (O59), and on an encoder's packet (O60). -/
namespace Sys2Proof.Machine

/-! ### The receive port's moves in a run -/

theorem receiveSecond_afterMove (b : Byte) (s : State) (moves : List Move) :
    receiveSecond b (s.afterMove moves) = (receiveSecond b s).afterMove moves := by
  by_cases h : bigEndian s.decLhi b = 0
  · rw [receiveSecond_empty h]
    exact receiveSecond_empty (s := s.afterMove moves) h
  · rw [receiveSecond_pay h]
    exact receiveSecond_pay (s := s.afterMove moves) h

/-- A receive transfer does not look at the schedule. -/
theorem receiveTransfer_afterMove (b : Byte) (s : State) (moves : List Move) :
    receiveTransfer b (s.afterMove moves) = (receiveTransfer b s).afterMove moves := by
  rcases receiveTransfer_cases b s with ⟨hw, h⟩ | ⟨hlen, h0, h⟩ | ⟨hlen, h1, h⟩ | ⟨hpay, hmore, h⟩ <;> rw [h]
  · exact receiveTransfer_unwanted hw
  · exact receiveTransfer_first hlen h0
  · exact (receiveTransfer_second (s := s.afterMove moves) hlen h1).trans (receiveSecond_afterMove b s moves)
  · rw [receivePayload_eq hpay]
    exact (receiveTransfer_payload (s := s.afterMove moves) hpay hmore).trans (receivePayload_eq hpay)

/-- A timeout does not look at the schedule. -/
theorem readTimeout_afterMove (s : State) (moves : List Move) :
    readTimeout (s.afterMove moves) = (readTimeout s).afterMove moves := by
  rcases readTimeout_cases s with ⟨hw, h⟩ | ⟨hlen, h⟩ | ⟨hpay, hmore, h⟩ <;> rw [h]
  · exact readTimeout_unwanted hw
  · exact readTimeout_len hlen
  · exact readTimeout_pay hpay hmore

/-- A receive move of a run is a receive transfer where a byte is held and wanted (R208). -/
theorem runMoves_rdValid {s : State} {b : Byte} {held : List Byte} (ms : List Move) (hheld : s.rxHeld = b :: held)
    (hw : 0 < s.want) : runMoves (.rdValid :: ms) s = runMoves ms (receiveTransfer b (s.afterByte held)) := by
  have hmove : perform .rdValid (s.afterMove ms) = .next ((receiveTransfer b (s.afterByte held)).afterMove ms) :=
    (rdValidMove_eq (s := s.afterMove ms) hheld hw).trans (congrArg _ (receiveTransfer_afterMove b (s.afterByte held) ms))
  rw [runMoves_cons hmove rfl, runMoves_afterMove]

/-- Receive moves with nothing wanted do nothing (R208). -/
theorem runMoves_rdValid_unwanted {s : State} (n : Nat) (ms : List Move) (hw : s.want = 0) :
    runMoves (List.replicate n .rdValid ++ ms) s = runMoves ms s := by
  induction n with
  | zero => rfl
  | succ n ih =>
    have hmove {ns : List Move} : perform .rdValid (s.afterMove ns) = .next (s.afterMove ns) :=
      rdValidMove_idle (.inr hw)
    rw [List.replicate_succ, List.cons_append, runMoves_cons hmove rfl, runMoves_afterMove, ih]

theorem runMoves_rdTimeout (s : State) (ms : List Move) :
    runMoves (.rdTimeout :: ms) s = runMoves ms (readTimeout s) := by
  have hmove : perform .rdTimeout (s.afterMove ms) = .next ((readTimeout s).afterMove ms) := by
    rw [perform, readTimeout_afterMove]
  rw [runMoves_cons hmove rfl, runMoves_afterMove]

/-- Once a decode has ended, neither the bytes still held nor a timeout do anything (R150). -/
theorem runMoves_decodeEnded {s : State} (n : Nat) (hidle : s.decState = .idle) :
    runMoves (List.replicate n .rdValid ++ [.rdTimeout]) s = .next (s.afterMove []) := by
  rw [runMoves_rdValid_unwanted n _ (want_idle hidle), runMoves_rdTimeout, readTimeout_unwanted (want_idle hidle),
    runMoves_nil]

/-- The first byte after an acceptance (R143). -/
theorem runMoves_acceptDec_first {s : State} {b : Byte} {rest : List Byte} (ms : List Move) (hheld : s.rxHeld = b :: rest) :
    runMoves (.rdValid :: ms) (acceptDec s) = runMoves ms (receiveFirst b ((acceptDec s).afterByte rest)) := by
  rw [runMoves_rdValid (s := acceptDec s) ms hheld (want_len_pos rfl), receiveTransfer_first rfl rfl]

/-- The decoder that has received both length bytes after the DEC accepted in `s`, with `rest` still held (R143, R144). -/
def afterLength (b0 b1 : Byte) (rest : List Byte) (s : State) : State :=
  receiveSecond b1 (receiveFirst b0 ((acceptDec s).afterByte rest))

theorem runMoves_length {s : State} {b0 b1 : Byte} {rest : List Byte} (ms : List Move)
    (hheld : s.rxHeld = b0 :: b1 :: rest) :
    runMoves (.rdValid :: .rdValid :: ms) (acceptDec s) = runMoves ms (afterLength b0 b1 rest s) := by
  rw [runMoves_acceptDec_first _ hheld,
    runMoves_rdValid (s := receiveFirst b0 ((acceptDec s).afterByte (b1 :: rest))) ms rfl (want_len_pos rfl),
    receiveTransfer_second rfl rfl]
  rfl

theorem afterLength_empty {b0 b1 : Byte} (rest : List Byte) (s : State) (h : bigEndian b0 b1 = 0) :
    afterLength b0 b1 rest s =
      { receiveFirst b0 ((acceptDec s).afterByte rest) with
        rxLen := 0, rxDlen := 0, rxResult := .empty, decState := .idle, decDone := true } :=
  receiveSecond_empty (s := receiveFirst b0 ((acceptDec s).afterByte rest)) h

theorem afterLength_pay {b0 b1 : Byte} (rest : List Byte) (s : State) (h : bigEndian b0 b1 ≠ 0) :
    afterLength b0 b1 rest s =
      { receiveFirst b0 ((acceptDec s).afterByte rest) with
        rxLen := bigEndian b0 b1
        rxDlen := BitVec.ofNat 16 ((bigEndian b0 b1).toNat - 3)
        decState := .pay
        rdRequests := s.rdRequests ++ [2] ++ [bigEndian b0 b1] } :=
  receiveSecond_pay (s := receiveFirst b0 ((acceptDec s).afterByte rest)) h

/-! ### Ranges of RXBUF -/

theorem length_rxBytes (s : State) (i n : Nat) : (s.rxBytes i n).length = n := by simp [State.rxBytes]

/-- A range inside `RXBUF[0 .. n)`. -/
theorem rxBytes_eq_slice (s : State) {i k n : Nat} (h : i + k ≤ n) :
    s.rxBytes i k = ((s.rxBytes 0 n).drop i).take k := by
  refine List.ext_getElem (by simp [length_rxBytes]; omega) fun j _ _ => ?_
  simp [State.rxBytes]

/-- `RXBUF[0 .. RX_RCVD)` grows by the payload byte (R146). -/
theorem receiveTransfer_rxBytes (b : Byte) {s : State} (h : s.decState = .pay) (hl : s.rxRcvd.toNat < s.rxLen.toNat) :
    (receiveTransfer b s).rxBytes 0 (s.rxRcvd.toNat + 1) = s.rxBytes 0 s.rxRcvd.toNat ++ [b] := by
  have hkept : (receiveTransfer b s).rxBytes 0 s.rxRcvd.toNat = s.rxBytes 0 s.rxRcvd.toNat := by
    refine List.map_congr_left fun k hk => ?_
    have := List.mem_range.mp hk
    rw [receiveTransfer_rxbuf b h hl, if_neg (by omega)]
  rw [rxBytes_succ, hkept, receiveTransfer_rxbuf b h hl, if_pos (Nat.zero_add _)]

/-! ### A payload on its way, and whole -/

/-- Since the DEC accepted in `s0`, the length `l` has been received, the payload bytes `p` have been received, and
`held` is what the transport still holds; after the last of `l` bytes the decode has ended (R144, R146, R150). -/
structure Receiving (s0 : State) (l : U16) (p held : List Byte) (s : State) : Prop where
  poly : s.poly = s0.poly
  rxLen : s.rxLen = l
  rxDlen : s.rxDlen.toNat = l.toNat - 3
  stored : s.rxBytes 0 s.rxRcvd.toNat = p
  covers : RxCrcCovers s
  rxHeld : s.rxHeld = held
  requests : s.rdRequests = s0.rdRequests ++ [2, l]
  running : p.length < l.toNat → s.decState = .pay
  ended : p.length = l.toNat →
    s.decState = .idle ∧ s.decDone = true ∧ s.rxResult = if s.rxCrc = 0 then .ok else .crcErr

namespace Receiving

variable {s0 s : State} {l : U16} {p held : List Byte}

theorem rxRcvd (h : Receiving s0 l p held s) : s.rxRcvd.toNat = p.length := by
  rw [← h.stored, length_rxBytes]

theorem rxCrc (h : Receiving s0 l p held s) : s.rxCrc = crc16 s0.poly p := by
  rw [h.covers.1, h.poly, h.stored]

theorem slice (h : Receiving s0 l p held s) {i k : Nat} (hle : i + k ≤ p.length) :
    s.rxBytes i k = (p.drop i).take k := by
  rw [rxBytes_eq_slice s (h.rxRcvd ▸ hle), h.stored]

/-- The command is payload byte 0 (R146). -/
theorem rxCmd {c : Byte} (h : Receiving s0 l (c :: p) held s) : s.rxCmd = c := by
  have hfirst : [s.rxbuf 0] = [c] := h.slice (i := 0) (k := 1) (by simp)
  have hcount : s.rxRcvd ≠ 0 := fun hz => by simpa [hz] using h.rxRcvd
  rw [h.covers.2, if_neg hcount]
  exact List.head_eq_of_cons_eq hfirst

/-- A delivered byte joins the payload, and ends the decode when it is the last (R146). -/
theorem transfer {b : Byte} (h : Receiving s0 l p (b :: held) s) (hlt : p.length < l.toNat) :
    Receiving s0 l (p ++ [b]) held (receiveTransfer b (s.afterByte held)) := by
  have hpay : (s.afterByte held).decState = .pay := h.running hlt
  have hcount : s.rxRcvd.toNat + 1 = (p ++ [b]).length := by rw [h.rxRcvd, List.length_append]; rfl
  have hmore : (s.afterByte held).rxRcvd.toNat < (s.afterByte held).rxLen.toNat := by
    rw [afterByte_rxRcvd, afterByte_rxLen, h.rxRcvd, h.rxLen]; exact hlt
  have hsucc : (s.rxRcvd + 1).toNat = s.rxRcvd.toNat + 1 := by have := l.isLt; simp [h.rxRcvd]; omega
  have hstored := receiveTransfer_rxBytes b hpay hmore
  have hcovers := receiveTransfer_rxCrcCovers b (s := s.afterByte held) h.covers
  rw [receiveTransfer_payload hpay hmore, receivePayload_eq hpay] at hstored hcovers ⊢
  have hlast : (s.afterByte held).rxRcvd.toNat + 1 = (s.afterByte held).rxLen.toNat ↔ (p ++ [b]).length = l.toNat := by
    rw [← hcount, ← h.rxLen]; rfl
  exact {
    poly := h.poly
    rxLen := h.rxLen
    rxDlen := h.rxDlen
    stored := (congrArg _ hsucc).trans (hstored.trans (congrArg (· ++ [b]) h.stored))
    covers := hcovers
    rxHeld := rfl
    requests := h.requests
    running := fun hlt => if_neg (mt hlast.mp hlt.ne)
    ended := fun hend => ⟨if_pos (hlast.mpr hend), if_pos (hlast.mpr hend), if_pos (hlast.mpr hend)⟩ }

/-- Delivering payload bytes, no more than are wanted. -/
theorem runMoves_payload {q rest : List Byte} (h : Receiving s0 l p (q ++ rest) s) (hle : p.length + q.length ≤ l.toNat)
    (ms : List Move) :
    ∃ t, runMoves (List.replicate q.length .rdValid ++ ms) s = runMoves ms t ∧ Receiving s0 l (p ++ q) rest t := by
  induction q generalizing p s with
  | nil => exact ⟨s, rfl, by rwa [List.append_nil]⟩
  | cons b q ih =>
    rw [List.length_cons] at hle
    have hlt : p.length < l.toNat := by omega
    have hw : 0 < s.want := (want_pay_pos_iff (h.running hlt)).mpr (by rwa [h.rxRcvd, h.rxLen])
    obtain ⟨t, hrun, ht⟩ := ih (h.transfer hlt) (by simp; omega)
    rw [List.append_assoc] at ht
    exact ⟨t, (runMoves_rdValid _ h.rxHeld hw).trans hrun, ht⟩

end Receiving

/-- Right after the length no payload byte has been received, and all of the payload is requested (R144). -/
theorem receiving_start (s : State) {b0 b1 : Byte} (rest : List Byte) (hpos : bigEndian b0 b1 ≠ 0) :
    Receiving s (bigEndian b0 b1) [] rest (afterLength b0 b1 rest s) := by
  have hl := toNat_pos_of_ne_zero hpos
  rw [afterLength_pay rest s hpos]
  exact {
    poly := rfl
    rxLen := rfl
    rxDlen := Nat.mod_eq_of_lt (by omega)
    stored := rfl
    covers := rxCrcCovers_of_cleared rfl rfl rfl
    rxHeld := rfl
    requests := List.append_assoc ..
    running := fun _ => rfl
    ended := fun hend => absurd hend hl.ne }

/-- The length bytes and then payload bytes `q`, no more than the length counts. -/
theorem acceptDec_receiving {s : State} {b0 b1 : Byte} {q rest : List Byte} (hheld : s.rxHeld = b0 :: b1 :: (q ++ rest))
    (hpos : bigEndian b0 b1 ≠ 0) (hle : q.length ≤ (bigEndian b0 b1).toNat) (ms : List Move) :
    ∃ t, runMoves (List.replicate (q.length + 2) .rdValid ++ ms) (acceptDec s) = runMoves ms t ∧
      Receiving s (bigEndian b0 b1) q rest t := by
  obtain ⟨t, hrun, ht⟩ := (receiving_start s (q ++ rest) hpos).runMoves_payload (by simpa using hle) ms
  exact ⟨t, (runMoves_length _ hheld).trans hrun, ht⟩

/-! ### The outcome of a decode -/

/-- The registers that go with R140's `Result` (R32 to R34, R154). -/
def RxHolds (t : State) : DecodeResult → Prop
  | .ok cmd data => t.rxCmd = cmd ∧ t.rxData = data ∧ t.rxCrc = 0
  | .crcErr residue => t.rxCrc = residue ∧ residue ≠ 0
  | .tmoLen | .empty | .tmoPay => True

theorem RxHolds.afterMove {t : State} {r : DecodeResult} (h : RxHolds t r) (moves : List Move) :
    RxHolds (t.afterMove moves) r := by
  cases r <;> exact h

/-- The DEC accepted in `s` has ended in `t` with the outcome of `decode(stream)` (R140, R149, R150, R155). -/
structure DecodeEnded (s : State) (stream : List Byte) (t : State) : Prop where
  idle : t.decState = .idle
  done : t.decDone = true
  result : t.rxResult = (decodeStream s.poly stream).code
  held : t.rxHeld = stream.drop (decodeConsumes stream)
  requests : t.rdRequests = s.rdRequests ++ decodeRequests stream
  registers : RxHolds t (decodeStream s.poly stream)

/-- A whole payload is judged by its residue (R140, R150). -/
theorem Receiving.judged {s0 s : State} {l : U16} {p held : List Byte} (h : Receiving s0 l p held s)
    (hend : p.length = l.toNat) (hpos : p ≠ []) :
    s.rxResult = (judgePayload s0.poly p).code ∧ RxHolds s (judgePayload s0.poly p) := by
  obtain ⟨-, -, hresult⟩ := h.ended hend
  have hcrc := h.rxCrc
  rw [judgePayload]
  by_cases hz : crc16 s0.poly p = 0
  · have hdata : s.rxData = (p.drop 1).take (p.length - 3) := by
      have := List.length_pos_of_ne_nil hpos
      rw [State.rxData, h.rxDlen, ← hend]
      exact h.slice (by omega)
    obtain ⟨c, q, rfl⟩ := List.exists_cons_of_ne_nil hpos
    rw [hcrc, if_pos hz] at hresult
    rw [if_pos hz]
    exact ⟨hresult, h.rxCmd, hdata, hcrc.trans hz⟩
  · rw [hcrc, if_neg hz] at hresult
    rw [if_neg hz]
    exact ⟨hresult, hcrc, hz⟩

/-- From the acceptance of a DEC, as many receive moves as bytes are held and then a timeout end the decode. -/
def EndsDecode (s : State) (stream : List Byte) : Prop :=
  ∃ t, runMoves (List.replicate stream.length .rdValid ++ [.rdTimeout]) (acceptDec s) = .next t ∧ DecodeEnded s stream t

/-- No byte, or one, is no length (R147). -/
theorem endsDecode_tmoLen {s : State} {stream : List Byte} (hheld : s.rxHeld = stream) (hshort : stream.length < 2) :
    EndsDecode s stream := by
  match stream, hshort with
  | [], _ =>
    refine ⟨(finish .tmoLen (acceptDec s)).afterMove [], ?_, rfl, rfl, rfl, hheld, rfl, trivial⟩
    exact (runMoves_rdTimeout ..).trans (congrArg (runMoves []) (readTimeout_len rfl))
  | [b], _ =>
    refine ⟨(finish .tmoLen (receiveFirst b ((acceptDec s).afterByte []))).afterMove [], ?_, rfl, rfl, rfl, rfl, rfl,
      trivial⟩
    rw [List.length_singleton, List.replicate_one, List.singleton_append, runMoves_acceptDec_first _ hheld,
      runMoves_rdTimeout, readTimeout_len rfl, runMoves_nil]

/-- A zero length ends the decode at once, and the rest stays held (R144, R149). -/
theorem endsDecode_empty {s : State} {b0 b1 : Byte} {rest : List Byte} (hheld : s.rxHeld = b0 :: b1 :: rest)
    (hzero : bigEndian b0 b1 = 0) : EndsDecode s (b0 :: b1 :: rest) := by
  have hdecode : decodeStream s.poly (b0 :: b1 :: rest) = .empty := by simp [decodeStream, hzero]
  refine ⟨(afterLength b0 b1 rest s).afterMove [], ?_, ?_⟩
  · exact (runMoves_length _ hheld).trans (runMoves_decodeEnded _ (by rw [afterLength_empty rest s hzero]))
  · rw [afterLength_empty rest s hzero]
    refine ⟨rfl, rfl, by rw [hdecode]; rfl, ?_, ?_, by rw [hdecode]; trivial⟩
    · simp [decodeConsumes, hzero]
    · simp [decodeRequests, hzero]

/-- Fewer bytes than the length counts: the timeout cuts the payload short, nothing being left to hold (R148). -/
theorem endsDecode_tmoPay {s : State} {b0 b1 : Byte} {rest : List Byte} (hheld : s.rxHeld = b0 :: b1 :: rest)
    (hpos : bigEndian b0 b1 ≠ 0) (hshort : rest.length < (bigEndian b0 b1).toNat) :
    EndsDecode s (b0 :: b1 :: rest) := by
  have hlen : (bigEndian b0 b1).toNat ≠ 0 := (toNat_pos_of_ne_zero hpos).ne'
  have hdecode : decodeStream s.poly (b0 :: b1 :: rest) = .tmoPay := by simp [decodeStream, hlen, hshort]
  have hall : decodeConsumes (b0 :: b1 :: rest) = (b0 :: b1 :: rest).length := by
    rw [decodeConsumes, min_eq_right hshort.le, Nat.add_comm]
    rfl
  obtain ⟨t, hrun, ht⟩ :=
    acceptDec_receiving (rest := []) (by rwa [List.append_nil]) hpos hshort.le [.rdTimeout]
  refine ⟨(finish .tmoPay t).afterMove [], hrun.trans ?_, rfl, rfl, ?_, ?_, ?_, ?_⟩
  · rw [runMoves_rdTimeout, readTimeout_pay (ht.running hshort) (by rwa [ht.rxRcvd, ht.rxLen]), runMoves_nil]
  · rw [hdecode]; rfl
  · rw [hall, List.drop_length]
    exact ht.rxHeld
  · rw [decodeRequests, if_neg hpos]
    exact ht.requests
  · rw [hdecode]; trivial

/-- The whole payload is held: it is judged, and what comes after it stays held (R146, R149). -/
theorem endsDecode_judged {s : State} {b0 b1 : Byte} {p rest : List Byte} (hheld : s.rxHeld = b0 :: b1 :: (p ++ rest))
    (hpos : bigEndian b0 b1 ≠ 0) (hlen : p.length = (bigEndian b0 b1).toNat) :
    EndsDecode s (b0 :: b1 :: (p ++ rest)) := by
  have hne : p ≠ [] := List.ne_nil_of_length_pos (hlen ▸ toNat_pos_of_ne_zero hpos)
  have hdecode : decodeStream s.poly (b0 :: b1 :: (p ++ rest)) = judgePayload s.poly p := by
    simp [decodeStream, ← hlen, hne]
  have hmoves : List.replicate (b0 :: b1 :: (p ++ rest)).length Move.rdValid ++ [.rdTimeout] =
      List.replicate (p.length + 2) .rdValid ++ (List.replicate rest.length .rdValid ++ [.rdTimeout]) := by
    rw [← List.append_assoc, ← List.replicate_add]
    congr 2
    simp
    omega
  obtain ⟨t, hrun, ht⟩ := acceptDec_receiving hheld hpos hlen.le (List.replicate rest.length .rdValid ++ [.rdTimeout])
  obtain ⟨hidle, hdone, -⟩ := ht.ended hlen
  obtain ⟨hresult, hregs⟩ := ht.judged hlen hne
  rw [← hdecode] at hresult hregs
  refine ⟨t.afterMove [], ?_, hidle, hdone, hresult, ?_, ?_, hregs.afterMove []⟩
  · rw [hmoves, hrun, runMoves_decodeEnded _ hidle]
  · rw [afterMove_rxHeld, ht.rxHeld]
    simp [decodeConsumes, ← hlen, Nat.add_comm 2]
  · rw [decodeRequests, if_neg hpos]
    exact ht.requests

/-! ### An encoder's packet -/

/-- A packet's two length bytes read back as its length (R9, R81). -/
theorem bigEndian_hi8_lo8 (x : U16) : bigEndian (hi8 x) (lo8 x) = x := hi8_append_lo8 x

theorem encodePacket_eq (poly : U16) (c : Byte) (d : List Byte) :
    encodePacket poly c d = hi8 (BitVec.ofNat 16 (3 + d.length)) :: lo8 (BitVec.ofNat 16 (3 + d.length)) ::
      encodePayload poly c d := rfl

theorem length_encodePayload (poly : U16) (c : Byte) (d : List Byte) : (encodePayload poly c d).length = 3 + d.length := by
  simp [encodePayload]
  omega

/-- The CRC field leaves residue 0 (R105 law 1). -/
theorem crc16_encodePayload (poly : U16) (c : Byte) (d : List Byte) : crc16 poly (encodePayload poly c d) = 0 :=
  (crc16_append ..).trans (crcFrom_own_bytes ..)

end Sys2Proof.Machine

namespace Sys2Proof.Proofs
open Sys2Proof Sys2Proof.Machine

/-- Settles O59, by the cases of `decode`: no length, a zero length, a payload cut short, a whole payload. -/
theorem decoderComputesDecode : Obligations.DecoderComputesDecode := by
  intro stream s s1 hidle hheld h
  cases (execDec_accepted hidle).symm.trans h
  have hends : EndsDecode s stream := by
    match stream with
    | [] | [_] => exact endsDecode_tmoLen hheld (by simp)
    | b0 :: b1 :: rest =>
      by_cases hzero : bigEndian b0 b1 = 0
      · exact endsDecode_empty hheld hzero
      by_cases hshort : rest.length < (bigEndian b0 b1).toNat
      · exact endsDecode_tmoPay hheld hzero hshort
      · rw [← List.take_append_drop (bigEndian b0 b1).toNat rest] at hheld ⊢
        exact endsDecode_judged hheld hzero (List.length_take_of_le (Nat.le_of_not_lt hshort))
  obtain ⟨t, hrun, hidle, hdone, hresult, hrest, hrequests, hregs⟩ := hends
  exact ⟨t, hrun, hidle, hdone, hresult, hrest, hrequests, fun _ _ hok => by rwa [hok] at hregs,
    fun _ herr => by rwa [herr] at hregs⟩

/-- Settles O60: the packet's payload is as long as its length bytes say, and its CRC field leaves residue 0. -/
theorem decodeOfEncodeRoundTrip : Obligations.DecodeOfEncodeRoundTrip := by
  intro b d s s1 hfits hidle hheld h
  cases (execDec_accepted hidle).symm.trans h
  have hL : (BitVec.ofNat 16 (3 + d.length)).toNat = 3 + d.length := Nat.mod_eq_of_lt (by omega)
  have hlen := length_encodePayload s.poly b d
  have hpos : BitVec.ofNat 16 (3 + d.length) ≠ 0 := fun hz => by simp [hz] at hL; omega
  rw [encodePacket_eq, ← List.append_nil (encodePayload s.poly b d)] at hheld
  obtain ⟨t, hrun, ht⟩ := acceptDec_receiving hheld (by rwa [bigEndian_hi8_lo8])
    (by rw [bigEndian_hi8_lo8, hL, hlen]) []
  rw [bigEndian_hi8_lo8] at ht
  rw [hlen, show 3 + d.length + 2 = d.length + 5 by omega, List.append_nil] at hrun
  obtain ⟨hend, hdone, hresult⟩ := ht.ended (hlen.trans hL.symm)
  have hcrc : t.rxCrc = 0 := ht.rxCrc.trans (crc16_encodePayload ..)
  have hdata : t.rxBytes 1 d.length = d := by
    rw [ht.slice (by omega)]
    simp [encodePayload]
  have hfield : t.rxBytes (1 + d.length) 2 = [hi8 (crc16 s.poly (b :: d)), lo8 (crc16 s.poly (b :: d))] := by
    rw [ht.slice (by omega), Nat.add_comm]
    simp [encodePayload]
  rw [hcrc, if_pos rfl] at hresult
  exact ⟨t.afterMove [], hrun, hresult, by rw [afterMove_rxLen, ht.rxLen, hL], ht.rxCmd,
    by rw [afterMove_rxDlen, ht.rxDlen, hL]; omega, hdata, hfield, hcrc, ht.rxRcvd.trans hlen, hend, hdone, ht.rxHeld⟩

end Sys2Proof.Proofs
end

section
/-! PROOF. Errors (60_exceptions.md §1): no instruction stops the machine (R190; O14), and a rejected CMD write sets its one
error bit (R191 to R194; O18). -/
namespace Sys2Proof.Machine

/-! ### Every instruction answers -/

theorem exists_execEnc (b : Byte) (n : U16) (s : State) : ∃ t, execEnc b n s = .next t := by
  rcases execEnc_cases b n s with ⟨_, he⟩ | ⟨_, _, he⟩ | ⟨_, _, he⟩
  · exact ⟨_, he⟩
  · exact ⟨_, he⟩
  · exact ⟨_, he⟩

theorem exists_execDec (s : State) : ∃ t, execDec s = .next t := by
  by_cases hidle : s.decState = .idle
  · exact ⟨_, execDec_accepted hidle⟩
  · exact ⟨_, execDec_rejected hidle⟩

theorem exists_carryToDevice (code : Byte) (s : State) : ∃ t, carryToDevice code s = .next t :=
  (carryToDevice_cases code s).elim (⟨_, ·⟩) (⟨_, ·⟩)

/-- The commands of the CRC unit and the received codes have one answer; ENC, DEC and the sent codes answer in each of
their cases. -/
theorem exists_exec (i : Instr) (s : State) : ∃ t, exec i s = .next t := by
  cases i with
  | enc b n => exact exists_execEnc b n s
  | dec => exact exists_execDec s
  | bl => exact exists_carryToDevice codeBl s
  | frame => exact exists_carryToDevice codeFrame s
  | date => exact exists_carryToDevice codeDate s
  | done d =>
    cases d with
    | toHost => exact ⟨_, rfl⟩
    | toDevice => exact exists_carryToDevice codeDone s
  | nop | crcClr | crcByte | ver | next | retry | msg => exact ⟨_, rfl⟩

/-! ### Rejected commands -/

/-- A CMD write of a word that does not decode is rejected (R191). -/
theorem hostOp_write_cmd_illegal {w : Word} {r : Reject} (h : decode (.word w) = .error r) (s : State) :
    hostOp (.write .b32 0x000 w) s = .next (rejectIllegal s) := by
  refine (hostOp_write_reg .cmd w s).trans ?_
  simp [writeReg, writeCommand, h]

/-- The busy check comes first, whatever the length (R192, R194). -/
theorem execEnc_rejectedBusy (b : Byte) (n : U16) {s : State} (hbusy : s.encState ≠ .idle) :
    execEnc b n s = .next (rejectBusy s) := by
  rcases execEnc_cases b n s with ⟨_, he⟩ | ⟨hidle, _⟩ | ⟨hidle, _⟩
  · exact he
  · exact absurd hidle hbusy
  · exact absurd hidle hbusy

/-- The idle encoder rejects what its length prefix cannot hold (R193). -/
theorem execEnc_rejectedLength (b : Byte) {n : U16} {s : State} (hidle : s.encState = .idle)
    (hlong : Config.nMax < n.toNat) : execEnc b n s = .next (rejectLength s) := by
  rcases execEnc_cases b n s with ⟨hbusy, _⟩ | ⟨_, _, he⟩ | ⟨_, hfits, _⟩
  · exact absurd hidle hbusy
  · exact he
  · exact absurd hlong (Nat.not_lt_of_le hfits)

end Sys2Proof.Machine

namespace Sys2Proof.Proofs
open Sys2Proof Sys2Proof.Machine

/-- Settles O14, by the cases of the instruction table. -/
theorem everyInstructionAnswersANextState : Obligations.EveryInstructionAnswersANextState :=
  exists_exec

/-- Settles O18: the word does not decode, or it is a command that its unit rejects. -/
theorem rejectedCommandsSetOneErrorBit : Obligations.RejectedCommandsSetOneErrorBit := by
  intro w s
  refine ⟨fun _ hill => ?illegal, fun b n henc hbusy => ?encBusy, fun hdec hbusy => ?decBusy,
    fun b n henc hidle hlong => ?length⟩
  case illegal => exact hostOp_write_cmd_illegal hill s
  case encBusy => exact (hostOp_write_cmd henc s).trans (execEnc_rejectedBusy b n hbusy)
  case decBusy => exact (hostOp_write_cmd hdec s).trans (execDec_rejected hbusy)
  case length => exact (hostOp_write_cmd henc s).trans (execEnc_rejectedLength b hidle hlong)

end Sys2Proof.Proofs
end

section
/-! PROOF. The reset input (70_reset_and_hazards.md R220 to R222; O45), and fair runs (R236, R211; O57): by each unit, what
a step does to it while it runs and how much it has left, and then that an endless run comes to its end. -/
namespace Sys2Proof.Machine

/-! ### The step of one move of a run -/

theorem step_afterMove (s : State) (m : Move) : step (s.afterMove [m]) = perform m (s.afterMove []) := rfl

theorem resetNext_afterMove_iff {s : State} {m : Move} : ResetNext (s.afterMove [m]) ↔ m = .reset ∨ m = .powerOn := by
  simp [ResetNext]

theorem Sequenced.afterMove {s : State} (h : Sequenced s) (moves : List Move) : Sequenced (s.afterMove moves) :=
  ⟨h.memory, h.encoder, h.decoder⟩

/-! ### The host's program -/

@[simp] theorem transmitTransfer_hostProgram (s : State) : (transmitTransfer s).hostProgram = s.hostProgram := by
  rw [transmitTransfer_fields]

@[simp] theorem receiveTransfer_hostProgram (b : Byte) (s : State) :
    (receiveTransfer b s).hostProgram = s.hostProgram := by
  rw [receiveTransfer_fields]

@[simp] theorem readTimeout_hostProgram (s : State) : (readTimeout s).hostProgram = s.hostProgram := by
  rcases readTimeout_finish s with h | ⟨_, h⟩ <;> simp [h]

/-- Only the host's own moves take operations off its program (R60). -/
theorem StepEffect.hostProgram_eq {s t : State} {moves : List Move} (e : StepEffect s (s.afterMove moves) t)
    (hhost : ∀ ms, s.schedule ≠ .host :: ms) : t.hostProgram = s.hostProgram := by
  cases e with
  | hostOp move => exact absurd move.choose_spec (hhost _)
  | _ => simp

/-! ### The decoder: requests left to end -/

/-- The most requests the decode that runs has yet to end: that of the length and that of the payload, or the latter
alone (R142, R144). -/
def State.requestsLeft (s : State) : Nat :=
  match s.decState with
  | .idle => 0
  | .len => 2
  | .pay => 1

theorem requestsLeft_eq_zero_iff {s : State} : s.requestsLeft = 0 ↔ s.decState = .idle := by
  cases h : s.decState <;> simp [State.requestsLeft, h]

theorem DecSame.requestsLeft {r s : State} (h : DecSame r s) : r.requestsLeft = s.requestsLeft := by
  rw [State.requestsLeft, h.decState, State.requestsLeft]

@[simp] theorem requestsLeft_finish (x : RxResult) (s : State) : (finish x s).requestsLeft = 0 := rfl

theorem requestsLeft_pos_of_want {s : State} (h : 0 < s.want) : 0 < s.requestsLeft :=
  Nat.pos_of_ne_zero fun h0 => h.ne' (want_idle (requestsLeft_eq_zero_iff.mp h0))

/-- A decoder that runs always has a request outstanding (R41). -/
theorem DecSequenced.want_pos {s : State} (h : DecSequenced s) (busy : s.decState ≠ .idle) : 0 < s.want := by
  obtain ⟨-, -, -, -, hpay⟩ := h
  cases hs : s.decState with
  | idle => exact absurd hs busy
  | len => exact want_len_pos hs
  | pay => exact (want_pay_pos_iff hs).mpr (hpay hs)

/-- The decode that runs in `s` has ended in `t` with an outcome (R150), or goes on with no more requests to end than before. -/
def DecodeAdvances (s t : State) : Prop :=
  (∃ u x, x ≠ .none ∧ t = finish x u) ∨ (t.decState ≠ .idle ∧ t.requestsLeft ≤ s.requestsLeft)

theorem receiveSecond_advances (b : Byte) {s : State} (h : s.decState = .len) : DecodeAdvances s (receiveSecond b s) := by
  simp only [receiveSecond]
  split
  · exact .inl ⟨_, .empty, nofun, rfl⟩
  · exact .inr ⟨nofun, by simp [State.requestsLeft, h]⟩

theorem receivePayload_advances (b : Byte) {s : State} (h : s.decState = .pay) :
    DecodeAdvances s (receivePayload b s) := by
  simp only [receivePayload]
  split
  · exact .inl ⟨_, _, by split <;> nofun, rfl⟩
  · exact .inr ⟨by simp [h], by simp [State.requestsLeft]⟩

theorem receiveTransfer_advances (b : Byte) {s : State} (busy : s.decState ≠ .idle) :
    DecodeAdvances s (receiveTransfer b s) := by
  rcases receiveTransfer_cases b s with ⟨-, h⟩ | ⟨-, -, h⟩ | ⟨hlen, -, h⟩ | ⟨hpay, -, h⟩ <;> rw [h]
  · exact .inr ⟨busy, le_rfl⟩
  · exact .inr ⟨busy, le_rfl⟩
  · exact receiveSecond_advances b hlen
  · exact receivePayload_advances b hpay

theorem readTimeout_advances {s : State} (busy : s.decState ≠ .idle) : DecodeAdvances s (readTimeout s) := by
  rcases readTimeout_cases s with ⟨-, h⟩ | ⟨-, h⟩ | ⟨-, -, h⟩ <;> rw [h]
  · exact .inr ⟨busy, le_rfl⟩
  · exact .inl ⟨_, .tmoLen, nofun, rfl⟩
  · exact .inl ⟨_, .tmoPay, nofun, rfl⟩

/-- A decoder that runs accepts no DEC, so a step that is no reset advances its decode. -/
theorem DecEffect.advances {s t : State} (e : DecEffect s t) (busy : s.decState ≠ .idle) :
    (ResetNext s ∧ t.decState = .idle) ∨ DecodeAdvances s t := by
  have ofSame {r u : State} (hsame : DecSame r s) (h : DecodeAdvances r u) : DecodeAdvances s u := by
    rwa [DecodeAdvances, ← hsame.requestsLeft]
  have rbusy {r : State} (hsame : DecSame r s) : r.decState ≠ .idle := hsame.decState ▸ busy
  cases e with
  | same hsame => exact .inr (.inr ⟨rbusy hsame, hsame.requestsLeft.le⟩)
  | accepted idle => exact absurd idle busy
  | reset move _ idle => exact .inl ⟨move, idle⟩
  | delivered _ r b hsame eq => exact .inr (eq ▸ ofSame hsame (receiveTransfer_advances b (rbusy hsame)))
  | timedOut r hsame eq => exact .inr (eq ▸ ofSame hsame (readTimeout_advances (rbusy hsame)))

theorem DecEffect.requestsLeft_le {s t : State} (e : DecEffect s t) (busy : s.decState ≠ .idle) :
    t.requestsLeft ≤ s.requestsLeft := by
  rcases e.advances busy with ⟨-, idle⟩ | ⟨_, _, -, rfl⟩ | ⟨-, hle⟩
  · exact (requestsLeft_eq_zero_iff.mpr idle).trans_le (Nat.zero_le _)
  · exact Nat.zero_le _
  · exact hle

/-- A step that ends a decode is a reset, or sets DEC_DONE and an outcome (R150). -/
theorem DecEffect.decode_ends {s t : State} (e : DecEffect s t) (busy : s.decState ≠ .idle) (idle : t.decState = .idle) :
    ResetNext s ∨ (t.decDone = true ∧ t.rxResult ≠ .none) := by
  rcases e.advances busy with ⟨hreset, -⟩ | ⟨_, _, hx, rfl⟩ | ⟨hbusy, -⟩
  · exact .inl hreset
  · exact .inr ⟨rfl, hx⟩
  · exact absurd idle hbusy

/-! ### The end of a request -/

/-- A request's last byte ends the decode, or gives a length whose payload is the one request left (R144, R146). -/
theorem receiveTransfer_requestsLeft_lt (b : Byte) {s : State} (h : s.want = 1) :
    (receiveTransfer b s).requestsLeft < s.requestsLeft := by
  rcases receiveTransfer_cases b s with ⟨h0, -⟩ | ⟨hlen, h0, -⟩ | ⟨hlen, -, he⟩ | ⟨hpay, -, he⟩
  · omega
  · simp [State.want, hlen, h0] at h
  · rw [he, receiveSecond]
    split <;> simp [State.requestsLeft, hlen]
  · have hlast : s.rxRcvd.toNat + 1 = s.rxLen.toNat := by
      simp only [State.want, hpay] at h
      omega
    rw [he, receivePayload, if_pos hlast]
    simp [State.requestsLeft, hpay]

/-- A timeout of an outstanding request ends the decode (R147, R148). -/
theorem readTimeout_requestsLeft_lt {s : State} (h : 0 < s.want) : (readTimeout s).requestsLeft < s.requestsLeft := by
  have hpos := requestsLeft_pos_of_want h
  rcases readTimeout_cases s with ⟨h0, -⟩ | ⟨-, he⟩ | ⟨-, -, he⟩
  · exact absurd h0 h.ne'
  · rwa [he]
  · rwa [he]

theorem EndsRequest.requestsLeft_lt {s t : State} {m : Move} (h : EndsRequest s m)
    (hstep : step (s.afterMove [m]) = .next t) : t.requestsLeft < s.requestsLeft := by
  obtain ⟨hw, hm⟩ := h
  rw [step_afterMove] at hstep
  cases m with
  | txTake | linkByte => exact hm.elim
  | rdTimeout => cases hstep; exact readTimeout_requestsLeft_lt (s := s.afterMove []) hw
  | reset | powerOn => cases hstep; exact requestsLeft_pos_of_want hw
  | rdValid =>
    obtain ⟨hheld, hlast⟩ := hm
    obtain ⟨b, held, hheld⟩ := List.exists_cons_of_ne_nil hheld
    rw [perform, rdValidMove_eq (s := s.afterMove []) hheld hw] at hstep
    cases hstep
    exact receiveTransfer_requestsLeft_lt b (s := (s.afterMove []).afterByte held) hlast
  | host =>
    obtain ⟨ops, hprog⟩ := hm
    simp only [perform, hostMove, afterMove_hostProgram, hprog] at hstep
    cases hstep
    exact readTimeout_requestsLeft_lt (s := ((s.afterMove []).afterOp ops).afterByte []) hw

/-! ### The encoder: bytes left to send -/

/-- How many bytes of the packet being sent the transport has yet to take (R37, R127). -/
def State.bytesLeft (s : State) : Nat := s.encN.toNat + 5 - s.txSent.toNat

theorem EncSame.bytesLeft {r s : State} (h : EncSame r s) : r.bytesLeft = s.bytesLeft := by
  rw [State.bytesLeft, h.encN, h.txSent, State.bytesLeft]

theorem transmitTransfer_bytesLeft_lt {s : State} (hs : EncSequenced s) (busy : s.encState ≠ .idle) :
    (transmitTransfer s).bytesLeft < s.bytesLeft := by
  have hlt := hs.txSent_lt busy
  simp only [State.bytesLeft, transmitTransfer_encN, transmitTransfer_txSent busy, hs.txSent_succ_toNat busy]
  omega

theorem txTake_bytesLeft_lt {s t : State} (hs : EncSequenced s) (busy : s.encState ≠ .idle)
    (hstep : step (s.afterMove [.txTake]) = .next t) : t.bytesLeft < s.bytesLeft := by
  rw [step_afterMove, perform, txTakeMove_eq] at hstep
  cases hstep
  exact transmitTransfer_bytesLeft_lt (s := s.afterMove []) hs busy

/-- As long as the encoder runs, a step sends a byte of its packet or leaves it what it has to send. -/
theorem EncEffect.bytesLeft_le {s t : State} (e : EncEffect s t) (hs : EncSequenced s) (busy : s.encState ≠ .idle)
    (still : t.encState ≠ .idle) : t.bytesLeft ≤ s.bytesLeft := by
  cases e with
  | same hsame => exact hsame.bytesLeft.le
  | accepted idle => exact absurd idle busy
  | reset _ idle => exact absurd idle still
  | taken _ r hsame eq =>
    rw [eq, ← hsame.bytesLeft]
    exact (transmitTransfer_bytesLeft_lt (hsame.sequenced hs) (hsame.encState ▸ busy)).le

/-- A step that ends an encode is a reset, or the transfer out of CRC_LO, which sets ENC_DONE (R126). -/
theorem EncEffect.encode_ends {s t : State} (e : EncEffect s t) (busy : s.encState ≠ .idle) (idle : t.encState = .idle) :
    ResetNext s ∨ t.encDone = true := by
  cases e with
  | same hsame => exact absurd (hsame.encState.symm.trans idle) busy
  | accepted hidle => exact absurd hidle busy
  | reset move => exact .inl move
  | taken _ r hsame eq =>
    subst eq
    have hlo : r.encState = .crcLo := by
      by_contra hne
      exact (transmitTransfer_unfinished (hsame.encState ▸ busy) hne).1 idle
    exact .inr (by rw [transmitTransfer_crcLo hlo])

/-! ### Endless runs -/

namespace IsRun

variable {states : Nat → State} {moves : Nat → Move}

theorem sequenced (hrun : IsRun states moves) (h0 : Sequenced (states 0)) (n : Nat) : Sequenced (states n) := by
  induction n with
  | zero => exact h0
  | succ n ih => exact step_sequenced (ih.afterMove _) (hrun n)

theorem hostProgram_eq (hrun : IsRun states moves) {n : Nat} (hhost : moves n ≠ .host) :
    (states (n + 1)).hostProgram = (states n).hostProgram :=
  (step_effect (hrun n)).hostProgram_eq fun _ h => hhost (List.head_eq_of_cons_eq h)

/-- While the decoder runs, its requests are ended one by one, so it does not run for ever. -/
theorem exists_decoder_idle (hrun : IsRun states moves) (h0 : Sequenced (states 0))
    (hduty : EndsEveryRequest states moves) (n : Nat) : ∃ m, n ≤ m ∧ (states m).decState = .idle := by
  by_contra hnever
  have busy (m : Nat) (hm : n ≤ m) : (states m).decState ≠ .idle := fun h => hnever ⟨m, hm, h⟩
  have mono (m k : Nat) (hm : n ≤ m) (hk : m ≤ k) : (states k).requestsLeft ≤ (states m).requestsLeft := by
    induction k, hk using Nat.le_induction with
    | base => exact le_rfl
    | succ k hk ih => exact ((step_decEffect (hrun k)).requestsLeft_le (busy k (hm.trans hk))).trans ih
  have down (v m : Nat) (hm : n ≤ m) (hv : (states m).requestsLeft ≤ v) : False := by
    induction v generalizing m with
    | zero => exact busy m hm (requestsLeft_eq_zero_iff.mp (Nat.le_zero.mp hv))
    | succ v ih =>
      obtain ⟨k, hk, hend⟩ := hduty m ((hrun.sequenced h0 m).decoder.want_pos (busy m hm))
      have hlt := hend.requestsLeft_lt (hrun k)
      have hle := mono m k hm hk
      exact ih (k + 1) (by omega) (by omega)
  exact down _ n le_rfl le_rfl

/-- Weak fairness to the taking of transmit bytes ends the encode: each taking leaves one byte less to send. -/
theorem encoder_exits (hrun : IsRun states moves) (h0 : Sequenced (states 0)) (hfair : FairTo states moves .txTake)
    {n : Nat} (busy : (states n).encState ≠ .idle) :
    ∃ k, n ≤ k ∧ (∀ j, n ≤ j → j ≤ k → (states j).encState ≠ .idle) ∧ ¬ (states (k + 1)).encState ≠ .idle := by
  refine hfair.exits (μ := fun k => (states k).bytesLeft) (fun _ h => h) (fun k hbusy hstill => ⟨?_, fun hm => ?_⟩) busy
  · exact (step_encEffect (hrun k)).bytesLeft_le (hrun.sequenced h0 k).encoder hbusy hstill
  · have hnext := hrun k
    rw [hm] at hnext
    exact txTake_bytesLeft_lt (hrun.sequenced h0 k).encoder hbusy hnext

/-- Until its move comes, the host's program stays as it is, so weak fairness to the host performs the next operation. -/
theorem host_performs (hrun : IsRun states moves) (hfair : FairTo states moves .host) {n : Nat}
    (hprog : (states n).hostProgram ≠ []) :
    ∃ k, n ≤ k ∧ moves k = .host ∧ (states k).hostProgram = (states n).hostProgram := by
  by_contra hnever
  have same (k : Nat) (hk : n ≤ k) : (states k).hostProgram = (states n).hostProgram := by
    induction k, hk using Nat.le_induction with
    | base => rfl
    | succ k hk ih => exact (hrun.hostProgram_eq fun hm => hnever ⟨k, hk, hm, ih⟩).trans ih
  obtain ⟨k, hk, hm⟩ := hfair n fun j hj => (same j hj).trans_ne hprog
  exact hnever ⟨k, hk, hm, same k hk⟩

/-- A decode goes on until a step ends it: a reset, or one that sets DEC_DONE and an outcome. -/
theorem decode_completes (hrun : IsRun states moves) (h0 : Sequenced (states 0)) (hduty : EndsEveryRequest states moves)
    {n : Nat} (busy : (states n).decState ≠ .idle) :
    ∃ k, n ≤ k ∧ (∀ j, n ≤ j → j ≤ k → (states j).decState ≠ .idle) ∧ (states (k + 1)).decState = .idle ∧
      (moves k = .reset ∨ moves k = .powerOn ∨
        ((states (k + 1)).decDone = true ∧ (states (k + 1)).rxResult ≠ .none)) := by
  obtain ⟨m, hm, hidle⟩ := hrun.exists_decoder_idle h0 hduty n
  obtain ⟨k, hk, hall, hexit⟩ := first_exit (P := fun j => (states j).decState ≠ .idle) busy hm (not_not.mpr hidle)
  have hidle := not_not.mp hexit
  have hend := (step_decEffect (hrun k)).decode_ends (hall k hk le_rfl) hidle
  rw [resetNext_afterMove_iff, or_assoc] at hend
  exact ⟨k, hk, hall, hidle, hend⟩

/-- An encode whose bytes are taken goes on until a step ends it: a reset, or one that sets ENC_DONE. -/
theorem encode_completes (hrun : IsRun states moves) (h0 : Sequenced (states 0)) (hfair : FairTo states moves .txTake)
    {n : Nat} (busy : (states n).encState ≠ .idle) :
    ∃ k, n ≤ k ∧ (∀ j, n ≤ j → j ≤ k → (states j).encState ≠ .idle) ∧ (states (k + 1)).encState = .idle ∧
      (moves k = .reset ∨ moves k = .powerOn ∨ (states (k + 1)).encDone = true) := by
  obtain ⟨k, hk, hall, hexit⟩ := hrun.encoder_exits h0 hfair busy
  have hidle := not_not.mp hexit
  have hend := (step_encEffect (hrun k)).encode_ends (hall k hk le_rfl) hidle
  rw [resetNext_afterMove_iff, or_assoc] at hend
  exact ⟨k, hk, hall, hidle, hend⟩

end IsRun

end Sys2Proof.Machine

namespace Sys2Proof.Proofs
open Sys2Proof Sys2Proof.Machine

/-- Settles O45: each field by its reset value; after a power-on nothing has been written, so a byte is its draw. -/
theorem resetInputRestoresTheResetState : Obligations.ResetInputRestoresTheResetState := by
  refine fun s moves => ⟨fun hs => step_of_schedule hs, fun hs => ?_⟩
  exact ⟨powerOnBlock (s.afterMove moves), step_of_schedule hs, rfl, rfl, rfl, fun _ => rfl⟩

/-- Settles O57: the host by its fairness; the decoder by the transport's duty, which leaves ever fewer requests to end; the
encoder by the taking of its bytes, which leaves ever fewer to send. -/
theorem fairRunsComplete : Obligations.FairRunsComplete := by
  rintro states moves ⟨hrun, hfair, hduty⟩ h0 n
  refine ⟨fun hprog => ?host, fun busy => ?decoder, fun htake busy => ?encoder⟩
  case host => exact hrun.host_performs (hfair .host nofun) hprog
  case decoder => exact hrun.decode_completes h0 hduty busy
  case encoder => exact hrun.encode_completes h0 htake busy

end Sys2Proof.Proofs
end
